-- ==== Sys2Proof/Word.lean ====
section
/-! DEFINITION. The word types of the block (00_scope R8): every value is unsigned, a level is one bit. -/

namespace Sys2Proof

/-- A byte: 8 bits, numbered from 0 at the least significant end (R8). -/
abbrev Byte := BitVec 8

/-- A nibble: 4 bits (R8). -/
abbrev Nibble := BitVec 4

/-- A level: one bit, 0 (low) is `false`, 1 (high) is `true` (R8). -/
abbrev Level := Bool

end Sys2Proof
end

