-- ==== Sys2Proof/Config.lean ====
section
/-! DEFINITION. What an implementation fixes (00_scope R6, 10_state R28 and R29) and the free values: values the spec
leaves open, as opaque constants, so that no proof can see one. -/

namespace Sys2Proof

/-- A PinDescriptor (R28): three opaque identifiers with decidable equality. Their widths are not given (N7), so they are
natural numbers used as names only. DESIGN CHOICE (log 3). -/
structure PinDescriptor where
  clockDomain : Nat
  port : Nat
  pinMask : Nat
  deriving DecidableEq, Repr, Inhabited

/-- The map `PINS` from role to PinDescriptor (R6, R28); `none` where it is not defined (R7(d)). -/
structure PinMap where
  rs : Option PinDescriptor
  rw : Option PinDescriptor
  e : Option PinDescriptor
  bl : Option PinDescriptor
  d0 : Option PinDescriptor
  d1 : Option PinDescriptor
  d2 : Option PinDescriptor
  d3 : Option PinDescriptor
  deriving DecidableEq, Repr, Inhabited

/-- The parameters the source leaves open (R6), the block's own copy of them (R28, R29). Durations are natural numbers of
timer ticks (R10(e)). No field has a default. -/
structure Config where
  scale : Nat
  tAs : Nat
  tRise : Nat
  tFall : Nat
  tDsw : Nat
  tDdr : Nat
  tH : Nat
  /-- `T_CYC`. No rule reads it: the wait it would enter is the open parameter `W_CYCREM` (D5). -/
  tCyc : Nat
  /-- `W_CYCREM(false)`. -/
  cycRemWrite : Nat
  /-- `W_CYCREM(true)`. -/
  cycRemRead : Nat
  tPowerOn : Nat
  tWake1 : Nat
  tWake2 : Nat
  wakeNibble : Nibble
  initTwoLine : Bool
  initFont5x10 : Bool
  initDisplayOn : Bool
  initCursorOn : Bool
  initBlink : Bool
  initCursorRight : Bool
  initShiftOnWrite : Bool
  pins : PinMap
  useBacklight : Bool
  /-- `RESERVED_PINS`: a set of (port, pinMask) combinations. -/
  reserved : List (Nat × Nat)
  driveStrength : Nat
  slewControl : Nat
  timerModulus : Nat
  deriving DecidableEq, Repr, Inhabited

/-- The configuration supplied at construction (R28, R280). No value is given (R6): opaque (log 3). -/
opaque Config.supplied : Config

/-- The level on the wire at the n-th draw: chosen by the environment, under no law (R23, R57, D22, U3; log 6). -/
opaque Config.sampleLevel : Nat → Level

/-- What a caller's buffer holds at an index past its end, for a call whose count is greater than the buffer: the spec
gives no value (log 17). -/
opaque Config.beyondBuffer : List Byte → Nat → Byte

/-- The nibble on the data wires at the n-th draw when the block does not drive them: while `dir` is not Output, or while a
data latch holds no value (R21, R22, R263, U1, U23; log 7). -/
opaque Config.undrivenNibble : Nat → Nibble

/-- Which of the peer's two RAMs the address counter points into (20_memory R51). -/
inductive Ram where
  | ddram
  | cgram
  deriving DecidableEq, Repr, Inhabited

/-- The peer's registers, as far as the contract names them: the address counter and its RAM (R51), and the settings of
the entry-mode, display-control and function-set commands (30_encoding R85, R86, R88; R285). -/
structure PeerRegs where
  ac : BitVec 7
  ram : Ram
  cursorRight : Bool
  shiftOnWrite : Bool
  displayOn : Bool
  cursorOn : Bool
  blink : Bool
  twoLine : Bool
  font5x10 : Bool
  deriving DecidableEq, Repr, Inhabited

/-- What the peer's registers hold where the spec gives no value: at power-up (draw 0), after a wrap, a cursor SHIFT, or once
its nibble pairing is not determined (U4, U7, U8; logs 7 to 9). -/
opaque Config.peerRegs : Nat → PeerRegs

end Sys2Proof
end

