-- ==== Sys2Proof/Syntax.lean ====
section
/-! DEFINITION. The instructions: one constructor for each row of spec/opcode_table.json (30_encoding R103), in the
table's order, with the operands the table and the rule give it. -/

namespace Sys2Proof

/-- The two peer registers the register-select line chooses between (20_memory R50). -/
inductive Reg where
  | command
  | data
  deriving DecidableEq, Repr

/-- The eight pin roles (41_pin_bus R144). -/
inductive PinRole where
  | rs
  | rw
  | e
  | bl
  | d0
  | d1
  | d2
  | d3
  deriving DecidableEq, Repr

/-- A glyph pattern: 8 bytes, byte r is pixel row r (30_encoding R98). -/
structure Glyph where
  r0 : Byte
  r1 : Byte
  r2 : Byte
  r3 : Byte
  r4 : Byte
  r5 : Byte
  r6 : Byte
  r7 : Byte
  deriving DecidableEq, Repr

/-- A command byte as its category and fields (R81, R82). JUMP_LINE2 is `setDdramAddr 0x40` (R91). The `x` fields are the
bits the table prints as don't-care. -/
inductive Command where
  | clear
  | home
  | entryMode (r s : Bool)
  | displayControl (d c b : Bool)
  | shift (w t : Bool) (x : BitVec 2)
  | functionSet (l n f : Bool) (x : BitVec 2)
  | setCgramAddr (a : BitVec 6)
  | setDdramAddr (a : BitVec 7)
  deriving DecidableEq, Repr

inductive Instr where
  -- CMD8: command bytes (R83 to R91)
  | clear
  | home
  | entryMode (r s : Bool)
  | displayControl (d c b : Bool)
  | shift (w t : Bool) (x : BitVec 2)
  | functionSet (l n f : Bool) (x : BitVec 2)
  | setCgramAddr (a : BitVec 6)
  | setDdramAddr (a : BitVec 7)
  | jumpLine2
  -- BUS4: nibble frames (R93)
  | nibWrCmd (n : Nibble)
  | nibWrData (n : Nibble)
  | nibRdCmd (n : Nibble)
  | nibRdData (n : Nibble)
  -- TXT: text forms (R96)
  | txtNewline
  | txtGlyph (d : BitVec 3)
  | txtDropTab
  | txtDropVt
  | txtDropFf
  | txtDropCr
  | txtSpace
  | txtEscapeFailed
  | txtVerbatim (c : Byte)
  -- OP: the Bus Transaction Engine (R110 to R119)
  | beginTransaction (targetIsDataRegister isRead : Bool)
  | continueTransaction (isRead : Bool)
  | endTransaction
  | driveNibble (n : Nibble)
  | sampleNibble
  | busWriteBytes (reg : Reg) (bytes : List Byte)
  | busReadBytes (reg : Reg) (count : Nat)
  | busWriteNibble (reg : Reg) (n : Nibble) (terminate : Bool)
  -- OP: the Pin Bus (R140 to R143)
  | configure
  | setDataDirection (isInput : Bool)
  | pinWrite (r : PinRole) (level : Level)
  | pinRead (r : PinRole)
  -- OP: the Command Encoder (R156 to R163)
  | encEntryMode (cursorMovesRight displayShiftsOnWrite : Bool)
  | encDisplayControl (displayOn cursorOn cursorBlinks : Bool)
  | encFunctionSet (eightBitBus twoLineMode font5x10 : Bool)
  | encShift (shiftWholeDisplay shiftRight : Bool)
  | writeCommand (c : Byte)
  -- OP: the RAM Access Layer (R175 to R182)
  | setAddressCounter (addr : BitVec 7) (targetIsDataRam : Bool)
  | readBytes (count : Nat) (startAddr : BitVec 7) (fromDataRam : Bool)
  | writeBytesRaw (data : List Byte) (count : Nat)
  | writeBytesText (data : List Byte) (count : Nat)
  | readStatus
  -- OP: the Driver Facade (R216 to R224)
  | init
  | enable
  | displayWrite (text : List Byte)
  | displayAppend (text : List Byte)
  | addCustomGlyph (pattern : Glyph) (slot : Nat)
  | setCursor (x y : Nat)
  | toggleFeatures (displayOn cursorOn cursorBlinkOn : Bool)
  | reset
  | setBacklight (on : Bool)
  deriving DecidableEq, Repr

end Sys2Proof
end

