-- ==== Sys2Proof/WellFormed.lean ====
section
/-! DEFINITION. Which instructions have an encoding: counts and natural operands fit the 16 bits the call form gives them
(log 1), and a verbatim byte is one no earlier TXT row matches (30_encoding R96, R103). -/

namespace Sys2Proof

/-- The source bytes that a TXT row before TXT_VERBATIM matches in its first byte (R96, R97). -/
def textSpecial (c : Byte) : Bool :=
  c == 0x0A || c == 0x60 || c == 0x09 || c == 0x0B || c == 0x0C || c == 0x0D || c == 0x20

/-- A natural operand fits the two bytes the call form gives it (log 1). -/
def fits16 (n : Nat) : Bool := n < 65536

def Instr.wf : Instr → Bool
  | .txtVerbatim c => !textSpecial c
  | .busWriteBytes _ bytes => fits16 bytes.length
  | .busReadBytes _ count => fits16 count
  | .readBytes count _ _ => fits16 count
  | .writeBytesRaw data count => fits16 data.length && fits16 count
  | .writeBytesText data count => fits16 data.length && fits16 count
  | .displayWrite text => fits16 text.length
  | .displayAppend text => fits16 text.length
  | .addCustomGlyph _ slot => fits16 slot
  | .setCursor x y => fits16 x && fits16 y
  | .clear | .home | .entryMode _ _ | .displayControl _ _ _ | .shift _ _ _ | .functionSet _ _ _ _
  | .setCgramAddr _ | .setDdramAddr _ | .jumpLine2
  | .nibWrCmd _ | .nibWrData _ | .nibRdCmd _ | .nibRdData _
  | .txtNewline | .txtGlyph _ | .txtDropTab | .txtDropVt | .txtDropFf | .txtDropCr | .txtSpace | .txtEscapeFailed
  | .beginTransaction _ _ | .continueTransaction _ | .endTransaction | .driveNibble _ | .sampleNibble
  | .busWriteNibble _ _ _ | .configure | .setDataDirection _ | .pinWrite _ _ | .pinRead _
  | .encEntryMode _ _ | .encDisplayControl _ _ _ | .encFunctionSet _ _ _ | .encShift _ _ | .writeCommand _
  | .setAddressCounter _ _ | .readStatus | .init | .enable | .toggleFeatures _ _ _ | .reset | .setBacklight _ => true

end Sys2Proof
end

