-- ==== Sys2Proof/Decode.lean ====
section
/-! DEFINITION. The decoder of the host's call stream, total on any bytes and refusing by name, and after it the encoder.

The four layers (30_encoding R80) keep the spec's own words: the command byte of R81 and R82, the frame of R93, the text
forms of R96, the select codes of R100. How a call is told from the next and where its operands stand is the model's own
(DESIGN CHOICE, log 1): bits 7:6 of a call's first byte name the layer, 0 OP with the select code in bits 5:0, 1 CMD8 with
the command byte next, 2 BUS4 with the frame in bits 5:0, 3 TXT with the number of source bytes in bits 5:0. -/

namespace Sys2Proof

/-- Why bytes are no call. Safe: the machine then has no step. -/
inductive DecodeError where
  /-- The bytes end inside a call. -/
  | truncated
  /-- A 6-bit select code R100 gives no operation. -/
  | unassignedSelectCode (code : Nat)
  /-- A bit the call form keeps at 0 is 1. -/
  | reservedBits (b : Byte)
  /-- Command byte 0x00 or 0x03 (R92). -/
  | unlistedCommand (c : Byte)
  /-- The source bytes are no single text form of R96. -/
  | notATextForm
  deriving DecidableEq, Repr

/-! ## Bit fields -/

/-- `lvl(b)`: a boolean flag as a bit (R8), at bit `k` of a byte. -/
def flagAt (k : Nat) (b : Bool) : Byte := (BitVec.ofBool b).setWidth 8 <<< k

/-- A 16-bit operand of the call form, least significant byte first (log 1). -/
def le16 (n : Nat) : List Byte := [BitVec.ofNat 8 (n % 256), BitVec.ofNat 8 (n / 256)]

/-! ## CMD8 (R81 to R92) -/

/-- The command byte of a category and its fields (R83 to R90). -/
def Command.toByte : Command → Byte
  | .clear => 0b00000001
  | .home => 0b00000010
  | .entryMode r s => 0b00000100 ||| flagAt 1 r ||| flagAt 0 s
  | .displayControl d c b => 0b00001000 ||| flagAt 2 d ||| flagAt 1 c ||| flagAt 0 b
  | .shift w t x => 0b00010000 ||| flagAt 3 w ||| flagAt 2 t ||| x.setWidth 8
  | .functionSet l n f x => 0b00100000 ||| flagAt 4 l ||| flagAt 3 n ||| flagAt 2 f ||| x.setWidth 8
  | .setCgramAddr a => 0b01000000 ||| a.setWidth 8
  | .setDdramAddr a => 0b10000000 ||| a.setWidth 8

/-- Decoding a command byte, testing from the top (R82); `none` for the unlisted 0x00 and 0x03 (R92). -/
def decodeCommand (c : Byte) : Option Command :=
  if c.getLsbD 7 then some (.setDdramAddr (c.setWidth 7))
  else if c.getLsbD 6 then some (.setCgramAddr (c.setWidth 6))
  else if c.getLsbD 5 then some (.functionSet (c.getLsbD 4) (c.getLsbD 3) (c.getLsbD 2) (c.setWidth 2))
  else if c.getLsbD 4 then some (.shift (c.getLsbD 3) (c.getLsbD 2) (c.setWidth 2))
  else if c.getLsbD 3 then some (.displayControl (c.getLsbD 2) (c.getLsbD 1) (c.getLsbD 0))
  else if c.getLsbD 2 then some (.entryMode (c.getLsbD 1) (c.getLsbD 0))
  else if c = 0x02 then some .home
  else if c = 0x01 then some .clear
  else none

/-- The row of the table a command stands for. JUMP_LINE2 is a second name of one of them (R91) and is not made here:
"decode prefers the alias only for printing". -/
def Command.toInstr : Command → Instr
  | .clear => .clear
  | .home => .home
  | .entryMode r s => .entryMode r s
  | .displayControl d c b => .displayControl d c b
  | .shift w t x => .shift w t x
  | .functionSet l n f x => .functionSet l n f x
  | .setCgramAddr a => .setCgramAddr a
  | .setDdramAddr a => .setDdramAddr a

/-- `CMD_CLEAR` (42_command_encoder R160). -/
def cmdClear : Byte := 0x01

/-- `CMD_HOME` (R161). -/
def cmdHome : Byte := 0x02

/-- `CMD_JUMP_LINE2` (R162). -/
def cmdJumpLine2 : Byte := 0xC0

/-! ## BUS4 (R93) -/

/-- The frame `s w n[3] n[2] n[1] n[0]` as an instruction (R93, with the levels of D1). -/
def decodeFrame (f : BitVec 6) : Instr :=
  match f.getLsbD 5, f.getLsbD 4 with
  | false, false => .nibWrCmd (f.setWidth 4)
  | true, false => .nibWrData (f.setWidth 4)
  | false, true => .nibRdCmd (f.setWidth 4)
  | true, true => .nibRdData (f.setWidth 4)

/-! ## TXT (R96) -/

/-- The text form whose source bytes are exactly these, by the rows of R96 in their order; a lone 0x60 is a marker that is
last in its buffer (R202). -/
def decodeTextForm : List Byte → Option Instr
  | [ch] =>
    if ch = 0x0A then some .txtNewline
    else if ch = 0x09 then some .txtDropTab
    else if ch = 0x0B then some .txtDropVt
    else if ch = 0x0C then some .txtDropFf
    else if ch = 0x0D then some .txtDropCr
    else if ch = 0x20 then some .txtSpace
    else if ch = 0x60 then some .txtEscapeFailed
    else some (.txtVerbatim ch)
  | [ch, d] => if ch = 0x60 ∧ d.extractLsb' 3 5 = 0b00110 then some (.txtGlyph (d.setWidth 3)) else none
  | _ => none

/-! ## OP: operand parsers of the call form (log 1) -/

/-- What is left to read after a parsed operand. -/
abbrev Parsed (α : Type) := Except DecodeError (α × List Byte)

/-- Parse one operand and go on with what is left. -/
def andThen {α β : Type} (p : Parsed α) (k : α → List Byte → Parsed β) : Parsed β :=
  match p with
  | .ok (a, rest) => k a rest
  | .error e => .error e

def takeByte : List Byte → Parsed Byte
  | [] => .error .truncated
  | b :: rest => .ok (b, rest)

/-- A byte whose bits from `k` up are 0. -/
def takeLow (k : Nat) (bytes : List Byte) : Parsed Byte :=
  andThen (takeByte bytes) fun b rest =>
  if b.toNat < 2 ^ k then .ok (b, rest) else .error (.reservedBits b)

def takeNibble (bytes : List Byte) : Parsed Nibble :=
  andThen (takeLow 4 bytes) fun b rest =>
  .ok (b.setWidth 4, rest)

def takeAddr (bytes : List Byte) : Parsed (BitVec 7) :=
  andThen (takeLow 7 bytes) fun b rest =>
  .ok (b.setWidth 7, rest)

def takeNat (bytes : List Byte) : Parsed Nat :=
  andThen (takeByte bytes) fun lo rest =>
  andThen (takeByte rest) fun hi rest =>
  .ok (lo.toNat + 256 * hi.toNat, rest)

def takeBytes (n : Nat) (bytes : List Byte) : Parsed (List Byte) :=
  if n ≤ bytes.length then .ok (bytes.take n, bytes.drop n) else .error .truncated

/-- A list of bytes after its length. -/
def takeList (bytes : List Byte) : Parsed (List Byte) :=
  andThen (takeNat bytes) fun n rest =>
  takeBytes n rest

/-- The roles in the order of R144. -/
def roleOfNat : Nat → PinRole
  | 0 => .rs
  | 1 => .rw
  | 2 => .e
  | 3 => .bl
  | 4 => .d0
  | 5 => .d1
  | 6 => .d2
  | _ => .d3

def PinRole.toNat : PinRole → Nat
  | .rs => 0
  | .rw => 1
  | .e => 2
  | .bl => 3
  | .d0 => 4
  | .d1 => 5
  | .d2 => 6
  | .d3 => 7

def takeRole (bytes : List Byte) : Parsed PinRole :=
  andThen (takeLow 3 bytes) fun b rest =>
  .ok (roleOfNat b.toNat, rest)

/-- The register a boolean `targetIsDataRegister` names (R112). -/
def Reg.ofBool (targetIsDataRegister : Bool) : Reg := if targetIsDataRegister then .data else .command

def Reg.isData : Reg → Bool
  | .command => false
  | .data => true

def takeGlyph (bytes : List Byte) : Parsed Glyph :=
  andThen (takeByte bytes) fun r0 rest =>
  andThen (takeByte rest) fun r1 rest =>
  andThen (takeByte rest) fun r2 rest =>
  andThen (takeByte rest) fun r3 rest =>
  andThen (takeByte rest) fun r4 rest =>
  andThen (takeByte rest) fun r5 rest =>
  andThen (takeByte rest) fun r6 rest =>
  andThen (takeByte rest) fun r7 rest =>
  .ok (⟨r0, r1, r2, r3, r4, r5, r6, r7⟩, rest)

def Glyph.rows (g : Glyph) : List Byte := [g.r0, g.r1, g.r2, g.r3, g.r4, g.r5, g.r6, g.r7]

/-- An operation from its select code (R100) and the bytes after it. -/
def decodeOp (code : Nat) (bytes : List Byte) : Parsed Instr :=
  match code with
  | 0b000000 => andThen (takeLow 2 bytes) fun f r => .ok (.beginTransaction (f.getLsbD 0) (f.getLsbD 1), r)
  | 0b000001 => andThen (takeLow 1 bytes) fun f r => .ok (.continueTransaction (f.getLsbD 0), r)
  | 0b000010 => .ok (.endTransaction, bytes)
  | 0b000011 => andThen (takeNibble bytes) fun n r => .ok (.driveNibble n, r)
  | 0b000100 => .ok (.sampleNibble, bytes)
  | 0b000101 =>
    andThen (takeLow 1 bytes) fun f r =>
    andThen (takeList r) fun bs r =>
    .ok (.busWriteBytes (Reg.ofBool (f.getLsbD 0)) bs, r)
  | 0b000110 =>
    andThen (takeLow 1 bytes) fun f r =>
    andThen (takeNat r) fun n r =>
    .ok (.busReadBytes (Reg.ofBool (f.getLsbD 0)) n, r)
  | 0b000111 =>
    andThen (takeLow 2 bytes) fun f r =>
    andThen (takeNibble r) fun n r =>
    .ok (.busWriteNibble (Reg.ofBool (f.getLsbD 0)) n (f.getLsbD 1), r)
  | 0b001000 => .ok (.configure, bytes)
  | 0b001001 => andThen (takeLow 1 bytes) fun f r => .ok (.setDataDirection (f.getLsbD 0), r)
  | 0b001010 =>
    andThen (takeRole bytes) fun p r =>
    andThen (takeLow 1 r) fun f r =>
    .ok (.pinWrite p (f.getLsbD 0), r)
  | 0b001011 => andThen (takeRole bytes) fun p r => .ok (.pinRead p, r)
  | 0b010000 => andThen (takeLow 2 bytes) fun f r => .ok (.encEntryMode (f.getLsbD 0) (f.getLsbD 1), r)
  | 0b010001 =>
    andThen (takeLow 3 bytes) fun f r =>
    .ok (.encDisplayControl (f.getLsbD 0) (f.getLsbD 1) (f.getLsbD 2), r)
  | 0b010010 =>
    andThen (takeLow 3 bytes) fun f r =>
    .ok (.encFunctionSet (f.getLsbD 0) (f.getLsbD 1) (f.getLsbD 2), r)
  | 0b010011 => andThen (takeLow 2 bytes) fun f r => .ok (.encShift (f.getLsbD 0) (f.getLsbD 1), r)
  | 0b010100 => andThen (takeByte bytes) fun c r => .ok (.writeCommand c, r)
  | 0b011000 =>
    andThen (takeAddr bytes) fun a r =>
    andThen (takeLow 1 r) fun f r =>
    .ok (.setAddressCounter a (f.getLsbD 0), r)
  | 0b011001 =>
    andThen (takeNat bytes) fun n r =>
    andThen (takeAddr r) fun a r =>
    andThen (takeLow 1 r) fun f r =>
    .ok (.readBytes n a (f.getLsbD 0), r)
  | 0b011010 =>
    andThen (takeLow 1 bytes) fun f r =>
    andThen (takeList r) fun bs r =>
    andThen (takeNat r) fun n r =>
    if f.getLsbD 0 then .ok (.writeBytesText bs n, r) else .ok (.writeBytesRaw bs n, r)
  | 0b011011 => .ok (.readStatus, bytes)
  | 0b100000 => .ok (.init, bytes)
  | 0b100001 => .ok (.enable, bytes)
  | 0b100010 => andThen (takeList bytes) fun bs r => .ok (.displayWrite bs, r)
  | 0b100011 => andThen (takeList bytes) fun bs r => .ok (.displayAppend bs, r)
  | 0b100100 =>
    andThen (takeGlyph bytes) fun g r =>
    andThen (takeNat r) fun n r =>
    .ok (.addCustomGlyph g n, r)
  | 0b100101 =>
    andThen (takeNat bytes) fun x r =>
    andThen (takeNat r) fun y r =>
    .ok (.setCursor x y, r)
  | 0b100110 =>
    andThen (takeLow 3 bytes) fun f r =>
    .ok (.toggleFeatures (f.getLsbD 0) (f.getLsbD 1) (f.getLsbD 2), r)
  | 0b100111 => .ok (.reset, bytes)
  | 0b101000 => andThen (takeLow 1 bytes) fun f r => .ok (.setBacklight (f.getLsbD 0), r)
  | _ => .error (.unassignedSelectCode code)

/-! ## The call stream -/

/-- The first call of a stream of bytes, and the bytes after it. -/
def decode : List Byte → Parsed Instr
  | [] => .error .truncated
  | b :: rest =>
    match (b.extractLsb' 6 2).toNat with
    | 0 => decodeOp (b.setWidth 6).toNat rest
    | 1 =>
      if b.setWidth 6 = 0x00#6 then
        andThen (takeByte rest) fun c r =>
        match decodeCommand c with
        | some cmd => .ok (cmd.toInstr, r)
        | none => .error (.unlistedCommand c)
      else if b.setWidth 6 = 0x01#6 then
        andThen (takeByte rest) fun c r =>
        if c = cmdJumpLine2 then .ok (.jumpLine2, r) else .error (.reservedBits b)
      else .error (.reservedBits b)
    | 2 => .ok (decodeFrame (b.setWidth 6), rest)
    | _ =>
      andThen (takeBytes (b.setWidth 6).toNat rest) fun src r =>
      match decodeTextForm src with
      | some i => .ok (i, r)
      | none => .error .notATextForm

/-! ## The encoder -/

/-- The first byte of an OP call: layer 0 and the select code (R100). -/
def opByte (code : Nat) : Byte := BitVec.ofNat 8 code

/-- A CMD8 call (R81). -/
def encodeCommand (c : Command) : List Byte := [0x40, c.toByte]

/-- A BUS4 call: layer 2 and the frame `s w n` (R93). -/
def encodeFrame (s w : Bool) (n : Nibble) : List Byte := [0x80 ||| flagAt 5 s ||| flagAt 4 w ||| n.setWidth 8]

/-- A TXT call of one source byte (R96). -/
def encodeText (ch : Byte) : List Byte := [0xC1, ch]

def encodeList (bs : List Byte) : List Byte := le16 bs.length ++ bs

/-- The call of an instruction: the spec's word of it (R81, R93, R96, R100), in the call form of log 1. -/
def encode : Instr → List Byte
  | .clear => encodeCommand .clear
  | .home => encodeCommand .home
  | .entryMode r s => encodeCommand (.entryMode r s)
  | .displayControl d c b => encodeCommand (.displayControl d c b)
  | .shift w t x => encodeCommand (.shift w t x)
  | .functionSet l n f x => encodeCommand (.functionSet l n f x)
  | .setCgramAddr a => encodeCommand (.setCgramAddr a)
  | .setDdramAddr a => encodeCommand (.setDdramAddr a)
  | .jumpLine2 => [0x41, cmdJumpLine2]
  | .nibWrCmd n => encodeFrame false false n
  | .nibWrData n => encodeFrame true false n
  | .nibRdCmd n => encodeFrame false true n
  | .nibRdData n => encodeFrame true true n
  | .txtNewline => encodeText 0x0A
  | .txtGlyph d => [0xC2, 0x60, 0x30 ||| d.setWidth 8]
  | .txtDropTab => encodeText 0x09
  | .txtDropVt => encodeText 0x0B
  | .txtDropFf => encodeText 0x0C
  | .txtDropCr => encodeText 0x0D
  | .txtSpace => encodeText 0x20
  | .txtEscapeFailed => encodeText 0x60
  | .txtVerbatim c => encodeText c
  | .beginTransaction t r => [opByte 0b000000, flagAt 0 t ||| flagAt 1 r]
  | .continueTransaction r => [opByte 0b000001, flagAt 0 r]
  | .endTransaction => [opByte 0b000010]
  | .driveNibble n => [opByte 0b000011, n.setWidth 8]
  | .sampleNibble => [opByte 0b000100]
  | .busWriteBytes reg bs => [opByte 0b000101, flagAt 0 reg.isData] ++ encodeList bs
  | .busReadBytes reg n => [opByte 0b000110, flagAt 0 reg.isData] ++ le16 n
  | .busWriteNibble reg n t => [opByte 0b000111, flagAt 0 reg.isData ||| flagAt 1 t, n.setWidth 8]
  | .configure => [opByte 0b001000]
  | .setDataDirection i => [opByte 0b001001, flagAt 0 i]
  | .pinWrite r v => [opByte 0b001010, BitVec.ofNat 8 r.toNat, flagAt 0 v]
  | .pinRead r => [opByte 0b001011, BitVec.ofNat 8 r.toNat]
  | .encEntryMode r s => [opByte 0b010000, flagAt 0 r ||| flagAt 1 s]
  | .encDisplayControl d c b => [opByte 0b010001, flagAt 0 d ||| flagAt 1 c ||| flagAt 2 b]
  | .encFunctionSet l n f => [opByte 0b010010, flagAt 0 l ||| flagAt 1 n ||| flagAt 2 f]
  | .encShift w t => [opByte 0b010011, flagAt 0 w ||| flagAt 1 t]
  | .writeCommand c => [opByte 0b010100, c]
  | .setAddressCounter a t => [opByte 0b011000, a.setWidth 8, flagAt 0 t]
  | .readBytes n a t => [opByte 0b011001] ++ le16 n ++ [a.setWidth 8, flagAt 0 t]
  | .writeBytesRaw bs n => [opByte 0b011010, flagAt 0 false] ++ encodeList bs ++ le16 n
  | .writeBytesText bs n => [opByte 0b011010, flagAt 0 true] ++ encodeList bs ++ le16 n
  | .readStatus => [opByte 0b011011]
  | .init => [opByte 0b100000]
  | .enable => [opByte 0b100001]
  | .displayWrite bs => [opByte 0b100010] ++ encodeList bs
  | .displayAppend bs => [opByte 0b100011] ++ encodeList bs
  | .addCustomGlyph g n => [opByte 0b100100] ++ g.rows ++ le16 n
  | .setCursor x y => [opByte 0b100101] ++ le16 x ++ le16 y
  | .toggleFeatures d c b => [opByte 0b100110, flagAt 0 d ||| flagAt 1 c ||| flagAt 2 b]
  | .reset => [opByte 0b100111]
  | .setBacklight on => [opByte 0b101000, flagAt 0 on]

/-! ## A word of spec/opcode_table.json -/

/-- The select codes R100 assigns. -/
def assignedSelectCode (code : Nat) : Bool :=
  code ≤ 0b001011 || (0b010000 ≤ code && code ≤ 0b010100) || (0b011000 ≤ code && code ≤ 0b011011) ||
  (0b100000 ≤ code && code ≤ 0b101000)

/-- A table word laid out as a call. A bare number does not say which of the four layers it belongs to, and they share
numbers: the layers are tried in the order OP, TXT, BUS4, CMD8 (DESIGN CHOICE, log 2). A 16-bit row is the two source bytes
of TXT_GLYPH, the first in the number's high byte. -/
def tableBytes (nbits w : Nat) : List Byte :=
  if nbits = 16 then [0xC2, BitVec.ofNat 8 (w / 256), BitVec.ofNat 8 w]
  else if assignedSelectCode w then [opByte w]
  else if 8 ≤ nbits && textSpecial (BitVec.ofNat 8 w) then encodeText (BitVec.ofNat 8 w)
  else if w < 64 then [BitVec.ofNat 8 (0x80 + w)]
  else if w = 0xC0 then [0x41, cmdJumpLine2]
  else [0x40, BitVec.ofNat 8 w]

/-- The operand bytes a table word leaves out: zeros, as many as the longest call of zero operands has. -/
def zeroOperands : List Byte := [0, 0, 0, 0, 0, 0, 0, 0, 0, 0]

def decodeTableWord (nbits w : Nat) : Option Instr :=
  match decode (tableBytes nbits w ++ zeroOperands) with
  | .ok (i, _) => some i
  | .error _ => none

/-- The bytes of exactly the one call a table word begins, its operands zeros. -/
def tableCall (nbits w : Nat) : List Byte :=
  match decode (tableBytes nbits w ++ zeroOperands) with
  | .ok (_, rest) =>
    (tableBytes nbits w ++ zeroOperands).take ((tableBytes nbits w ++ zeroOperands).length - rest.length)
  | .error _ => tableBytes nbits w

end Sys2Proof
end

