-- ==== Sys2Proof/Machine/State.lean ====
section
/-! DEFINITION. The state (10_state R20 to R33), the events and transfers it emits (00_scope R9, R11), the peer contract's
state (20_memory R50 to R56), the ways a step can stop, and the state after reset (R33, 70_reset_and_hazards R281). -/

namespace Sys2Proof.Machine

/-- A pin latch: the level last written to the pin, or no value while nothing has written it since reset (R21, R33: "holds
*no value*"; U1). "No value" is the spec's own state of a latch (log 4). -/
inductive Latch where
  | noValue
  | held (v : Level)
  deriving DecidableEq, Repr

/-- The eight pin latches, one per role (R21). -/
structure Pins where
  rs : Latch
  rw : Latch
  e : Latch
  bl : Latch
  d0 : Latch
  d1 : Latch
  d2 : Latch
  d3 : Latch
  deriving DecidableEq, Repr

/-- The direction latch of the data pins as a group (R22); "no value until INIT" (R33). -/
inductive Direction where
  | noValue
  | input
  | output
  deriving DecidableEq, Repr

/-- The transaction phase (R24). -/
inductive Phase where
  | idle
  | active (reg : Reg) (isRead : Bool)
  deriving DecidableEq, Repr

/-- The lifecycle state (R25, 45_facade R215). -/
inductive Life where
  | uninitialized
  | pinsConfigured
  | poweredOn
  | ready
  deriving DecidableEq, Repr

/-- The causes of a precondition violation and what each records (60_exceptions R250 to R254). -/
inductive Cause where
  | reservedPin (r : PinRole)
  | textTooLong (len : Nat)
  | cursorOutOfRange (x y : Nat)
  | slotOutOfRange (slot : Nat)
  deriving DecidableEq, Repr

/-- The mode a `setMode` call gives a pin (60_exceptions R263). -/
inductive PinMode where
  | input
  | output
  deriving DecidableEq, Repr

/-- One call of a collaborator, or the abort (00_scope R9, R11). A wait carries its duration in ticks (log 21). -/
inductive Event where
  | setMode (r : PinRole) (m : PinMode)
  | drive (r : PinRole) (v : Level)
  | sample (r : PinRole) (v : Level)
  | configDrive (r : PinRole) (strength slew : Nat)
  | enableDomain (c : Nat)
  | wait (d : Nat)
  | abort (c : Cause)
  deriving DecidableEq, Repr

/-- What one transfer of the delivered stream carries (R11 L1): a byte, or a nibble for the lone-nibble transfers. -/
inductive Payload where
  | nibble (n : Nibble)
  | byte (b : Byte)
  deriving DecidableEq, Repr

/-- One transfer of the delivered stream: register, direction, value (R11 L1, 40_bus_engine R121). -/
structure Transfer where
  reg : Reg
  isRead : Bool
  value : Payload
  deriving DecidableEq, Repr

/-- What an operation hands back to its caller (R23, 30_encoding R100). -/
inductive Returned where
  | nothing
  | level (v : Level)
  | nibble (n : Nibble)
  | byte (b : Byte)
  | bytes (bs : List Byte)
  deriving DecidableEq, Repr

/-- A nibble the peer holds as the first half of a byte, with the register and direction of its frame (20_memory R56). -/
structure Half where
  s : Level
  w : Level
  hi : Nibble
  deriving DecidableEq, Repr

/-- The peer's bus-width mode and nibble phase (10_state R32(b), 20_memory R56, 70_reset_and_hazards R284; log 8). -/
inductive Sync where
  /-- Powered up, bus width not known, `k` wake nibbles taken. -/
  | waking (k : Nat)
  /-- Three wake nibbles and the high nibble of the function-set byte taken. -/
  | settling (hi : Nibble)
  /-- 4-bit mode, between two bytes. -/
  | paired
  /-- 4-bit mode, between the two nibbles of a byte. -/
  | half (h : Half)
  /-- The contract does not determine it. -/
  | unknown
  deriving DecidableEq, Repr

/-- The peer, as far as the contract of 20_memory R50 to R56 goes (log 7). A RAM is a list of the cells whose content the
contract determines, addresses strictly rising. -/
structure Peer where
  sync : Sync
  regs : PeerRegs
  ddram : List Host.Cell
  cgram : List Host.Cell
  deriving DecidableEq, Repr

structure State where
  /-- The configuration: the block's own read-only copy (R28, R29). -/
  cfg : Config
  /-- R21 -/
  pin : Pins
  /-- R22 -/
  dir : Direction
  /-- R24 -/
  phase : Phase
  /-- R25 -/
  life : Life
  /-- The fault latch: `none` is None, `some c` is Aborted(c) (R26). -/
  fault : Option Cause
  /-- The clock domains CONFIGURE has enabled, in the order of enabling (R27). -/
  domains : List Nat
  /-- The pin trace, oldest event first (R11 L2). -/
  trace : List Event
  /-- The delivered stream, oldest transfer first (R11 L1). -/
  delivered : List Transfer
  /-- The model's own: whether the nibble of a BUS_WRITE_NIBBLE stands on the pins and its frame is still to come (R118, R121;
  log 26). -/
  lone : Bool
  /-- What the last operation returned (R23). -/
  result : Returned
  /-- The model's own: the levels the environment will present at the next samples, oldest first; when there is none
  left a sample is a free value (R23, R57; log 6). -/
  wire : List Level
  /-- The model's own: the counter the free values are drawn at (log 5). -/
  draws : Nat
  /-- The peer contract (R50 to R56; log 7). -/
  peer : Peer
  /-- The model's own: the bytes of the calls the host will make (log 1). -/
  calls : List Byte
  deriving DecidableEq, Repr

/-- The machine stops for good. -/
inductive Fault where
  /-- Raised by `step` when the block has aborted and no call is pending: "the block is dead" (60_exceptions R258, R261).
  Safe: nothing follows. -/
  | aborted (c : Cause)
  deriving DecidableEq, Repr

/-- The spec gives the situation no meaning, "a model has no step there" (60_exceptions R261). Every one is safe. -/
inductive Refusal where
  /-- Raised by `exec` alone, in the arm of an instruction that has no meaning yet. Safe. -/
  | notModelled (mnemonic : String)
  /-- Raised by every operation after an abort (R258). Safe. -/
  | aborted (c : Cause)
  /-- Raised by an operation the lifecycle table does not allow in this state (R225). Safe. -/
  | wrongLifecycle (l : Life)
  /-- Raised by every operation under a configuration R7 does not admit. Safe. -/
  | illFormedConfiguration
  /-- Raised by an operation whose phase guard fails (R112 to R119, R141, D6, D7). Safe. -/
  | wrongPhase (p : Phase)
  /-- Raised by a nibble step under the wrong data direction (R111, R115, U23). Safe. -/
  | wrongDirection (d : Direction)
  /-- Raised by `step` when the host's bytes are no call (R103, D20; log 1). Safe. -/
  | undecodable (why : DecodeError)
  deriving DecidableEq, Repr

/-- No latch holds a value (R33). -/
def Pins.unwritten : Pins :=
  { rs := .noValue, rw := .noValue, e := .noValue, bl := .noValue,
    d0 := .noValue, d1 := .noValue, d2 := .noValue, d3 := .noValue }

/-- The peer at power-up: bus mode unknown, RAM contents and registers unspecified (R33, U4; logs 7, 8, 10). -/
def Peer.powerUp : Peer :=
  { sync := .waking 0, regs := Config.peerRegs 0, ddram := [], cgram := [] }

/-- The machine right after reset, that is construction with a configuration (R33, R280, R281). -/
def State.reset : State :=
  { cfg := Config.supplied
    pin := Pins.unwritten
    dir := .noValue
    phase := .idle
    life := .uninitialized
    fault := none
    domains := []
    trace := []
    delivered := []
    lone := false
    result := .nothing
    wire := []
    draws := 1
    peer := Peer.powerUp
    calls := [] }

end Sys2Proof.Machine
end

