-- ==== Sys2Proof/Machine/Configuration.lean ====
section
/-! DEFINITION. What the configuration determines: the fixed constants (00_scope R5), the polarities (D1, D19), the wait
durations (R9), the configured roles and the reserved-pin check (41_pin_bus R144, R145), and well-formedness (R7). -/

namespace Sys2Proof.Machine

/-! ## Constants the source fixes (R5) -/

/-- `MAX_TEXT_LEN`. -/
def maxTextLen : Nat := 32

/-- `MAX_TOTAL_CUSTOM_PATTERN`, also called `MAX_SLOTS` (C7). -/
def maxTotalCustomPattern : Nat := 8

/-- `COLS`. -/
def cols : Nat := 16

/-- `LINES`. -/
def lines : Nat := 2

/-- `LINE_STRIDE`. -/
def lineStride : Nat := 0x40

/-- `GLYPH_BYTES`. -/
def glyphBytes : Nat := 8

/-- `GLYPH_ROW_BITS`. -/
def glyphRowBits : Nat := 5

/-- `CH_NEWLINE`. -/
def chNewline : Byte := 0x0A

/-- `CH_SPACE`. -/
def chSpace : Byte := 0x20

/-- `CH_ESCAPE`, the backtick. UNVERIFIED, the spec's value for the character LCD names (G11; log 20). -/
def chEscape : Byte := 0x60

/-! ## Polarities: R6 fixes all four at 1, by the spec's decisions D1 and D19. UNVERIFIED (log 19) -/

/-- `RS_DATA_LEVEL`. -/
def rsDataLevel : Level := true

/-- `RW_READ_LEVEL`. -/
def rwReadLevel : Level := true

/-- `E_ASSERT_LEVEL`. -/
def eAssertLevel : Level := true

/-- `BL_ON_LEVEL`. -/
def blOnLevel : Level := true

/-- The level that says "yes" is `yes`; its opposite says "no". -/
def levelFor (yes : Level) (b : Bool) : Level := if b then yes else !yes

/-! ## Wait durations (R9) -/

/-- `W_AS`. R7(a) keeps the subtraction from going below 0. -/
def wAs (c : Config) : Nat := c.scale * c.tAs - c.tRise

/-- `W_SETUP(isRead)`. -/
def wSetup (c : Config) (isRead : Bool) : Nat := if isRead then c.scale * c.tDdr else c.scale * c.tDsw

/-- `W_HOLD`. -/
def wHold (c : Config) : Nat := c.scale * c.tH

/-- `W_CYCREM(isRead)`, an open parameter (R6, D5). -/
def wCycRem (c : Config) (isRead : Bool) : Nat := if isRead then c.cycRemRead else c.cycRemWrite

/-- `W_ENDSETUP`. -/
def wEndSetup (c : Config) : Nat := c.scale * c.tDsw

/-- `W_ENDHOLD`. -/
def wEndHold (c : Config) : Nat := c.scale * c.tH + c.tFall

/-- `W_POWERON`. -/
def wPowerOn (c : Config) : Nat := c.scale * c.tPowerOn

/-- `W_WAKE1`. -/
def wWake1 (c : Config) : Nat := c.scale * c.tWake1

/-- `W_WAKE2`. -/
def wWake2 (c : Config) : Nat := c.scale * c.tWake2

/-- Every wait duration of R9's table. -/
def allWaits (c : Config) : List Nat :=
  [wAs c, wSetup c true, wSetup c false, wHold c, wCycRem c true, wCycRem c false, wEndSetup c, wEndHold c,
   wPowerOn c, wWake1 c, wWake2 c]

/-! ## Roles and pins (R144, R145) -/

/-- `PINS[r]`. -/
def pinOf (c : Config) : PinRole → Option PinDescriptor
  | .rs => c.pins.rs
  | .rw => c.pins.rw
  | .e => c.pins.e
  | .bl => c.pins.bl
  | .d0 => c.pins.d0
  | .d1 => c.pins.d1
  | .d2 => c.pins.d2
  | .d3 => c.pins.d3

/-- The configured roles in walking order: BL only if the backlight is used (R144). -/
def configuredRoles (c : Config) : List PinRole :=
  [.rs, .rw, .e] ++ (if c.useBacklight then [.bl] else []) ++ [.d0, .d1, .d2, .d3]

/-- The pin/port combination of a role. -/
def comboOf (c : Config) (r : PinRole) : Option (Nat × Nat) := (pinOf c r).map fun d => (d.port, d.pinMask)

/-- `reserved(r)`: its combination is in the reserved set; the clock domain takes no part (R145). -/
def reservedPin (c : Config) (r : PinRole) : Bool :=
  match comboOf c r with
  | some combo => c.reserved.contains combo
  | none => false

/-- Whether a list has no repeats. -/
def noRepeats {α : Type} [DecidableEq α] : List α → Bool
  | [] => true
  | a :: rest => !rest.contains a && noRepeats rest

/-- Configuration well-formedness, R7(a) to (e), and `SCALE` at least 1 (R6). R7(e) is read over the configured roles
(log 25). -/
def configWf (c : Config) : Bool :=
  1 ≤ c.scale && c.tRise ≤ c.scale * c.tAs &&
  (wWake2 c < wWake1 c && 0 < wWake2 c) &&
  (allWaits c).all (fun d => d < c.timerModulus) &&
  (configuredRoles c).all (fun r => (pinOf c r).isSome) &&
  noRepeats ((configuredRoles c).map (comboOf c))

end Sys2Proof.Machine
end

