-- ==== Sys2Proof/Machine/Flags.lean ====
section
/-! DEFINITION. Command bytes built from boolean flags (42_command_encoder R155 to R159). These are the only flags there
are: the block has no condition code and no operation sets a status (10_state R31). Pure functions: they read no state. -/

namespace Sys2Proof.Machine

/-- The entry-mode byte (R156). -/
def encodeEntryMode (cursorMovesRight displayShiftsOnWrite : Bool) : Byte :=
  0x04 ||| flagAt 1 cursorMovesRight ||| flagAt 0 displayShiftsOnWrite

/-- The display-control byte (R157). -/
def encodeDisplayControl (displayOn cursorOn cursorBlinks : Bool) : Byte :=
  0x08 ||| flagAt 2 displayOn ||| flagAt 1 cursorOn ||| flagAt 0 cursorBlinks

/-- The function-set byte (R158). -/
def encodeFunctionSet (eightBitBus twoLineMode font5x10 : Bool) : Byte :=
  0x20 ||| flagAt 4 eightBitBus ||| flagAt 3 twoLineMode ||| flagAt 2 font5x10

/-- The cursor/display-shift byte (R159). -/
def encodeShift (shiftWholeDisplay shiftRight : Bool) : Byte :=
  0x10 ||| flagAt 3 shiftWholeDisplay ||| flagAt 2 shiftRight

end Sys2Proof.Machine
end

