-- ==== Sys2Proof/Machine/Operands.lean ====
section
/-! DEFINITION. How each operand reaches a command byte or the bus (30_encoding R94, R95): nibbles, the set-address byte,
the cursor and slot mappings, and the bytes of a caller's buffer. -/

namespace Sys2Proof.Machine

/-- `b >> 4`: the first nibble on the bus (R94, 20_memory R59). -/
def highNibble (b : Byte) : Nibble := (b >>> 4).setWidth 4

/-- `b & 0xF`: the second nibble. -/
def lowNibble (b : Byte) : Nibble := (b &&& 0x0F).setWidth 4

/-- `(n1 << 4) | n2`: the byte two sampled nibbles make, the first the high one (R94, R117). -/
def byteOf (n1 n2 : Nibble) : Byte := (n1.setWidth 8 <<< 4) ||| n2.setWidth 8

/-- The level data pin Dk carries is nibble bit k (R59, D2; log 19). -/
def nibbleBit (n : Nibble) (k : Nat) : Level := n.getLsbD k

/-- The nibble of four sampled levels, pin Dk at bit k (R115). -/
def nibbleOf (v0 v1 v2 v3 : Level) : Nibble :=
  BitVec.ofBool v3 ++ BitVec.ofBool v2 ++ BitVec.ofBool v1 ++ BitVec.ofBool v0

/-- The command byte that sets the address counter (43_ram_access R175, 30_encoding R89, R90). -/
def addressByte (addr : BitVec 7) (targetIsDataRam : Bool) : Byte :=
  if targetIsDataRam then addr.setWidth 8 ||| 0x80 else (addr.setWidth 8 ||| 0x40) &&& 0x7F

/-- `y*0x40 + x`: the address of a cursor position (R179), as the 7-bit operand of SET_ADDRESS_COUNTER. -/
def cursorAddr (x y : Nat) : BitVec 7 := BitVec.ofNat 7 (y * lineStride + x)

/-- `s*8`: the CGRAM base address of a glyph slot (R180), as the 7-bit operand. -/
def slotAddr (slot : Nat) : BitVec 7 := BitVec.ofNat 7 (slot * glyphBytes)

/-- The pixel row of a pattern byte: its low `GLYPH_ROW_BITS` bits (R5, 30_encoding R98). The order of the pixels in it is not
given (U14). -/
def glyphRow (b : Byte) : BitVec glyphRowBits := b.setWidth glyphRowBits

/-- `data[0..count-1]` (R177, R178). An index past the end of the buffer gives a byte the spec does not state: a free value
(DESIGN CHOICE, log 17). -/
def operandBytes (data : List Byte) (count : Nat) : List Byte :=
  data.take count ++ (List.range (count - data.length)).map fun k => Config.beyondBuffer data (data.length + k)

end Sys2Proof.Machine
end

