-- ==== Sys2Proof/Machine/Peer.lean ====
section
/-! DEFINITION. The peer contract (20_memory R50 to R56, 70_reset_and_hazards R284): what the controller on the other side
of the pins does with a nibble frame, exactly as far as the spec says it, and free values beyond (U4 to U12; logs 7 to 10).
No rule of the block reads any of it. -/

namespace Sys2Proof.Machine

/-! ## A RAM of the peer: the cells whose content is determined -/

/-- The content of a cell, or none where the contract does not determine it (log 10). -/
def memRead (m : List Host.Cell) (a : Nat) : Option Byte :=
  match m with
  | [] => none
  | (k, b) :: rest => if k = a then some b else memRead rest a

/-- Store a byte, keeping the addresses strictly rising. -/
def memWrite (m : List Host.Cell) (a : Nat) (b : Byte) : List Host.Cell :=
  match m with
  | [] => [(a, b)]
  | (k, v) :: rest =>
    if a < k then (a, b) :: (k, v) :: rest
    else if a = k then (a, b) :: rest
    else (k, v) :: memWrite rest a b

/-- Every address of the list is above `lo` and below `hi`, and they rise strictly. -/
def memWfFrom (lo : Nat) (hi : Nat) : List Host.Cell → Bool
  | [] => true
  | (k, _) :: rest => lo ≤ k && k < hi && memWfFrom (k + 1) hi rest

/-- The canonical form of a RAM of `size` cells. -/
def memWf (size : Nat) (m : List Host.Cell) : Bool := memWfFrom 0 size m

/-- DDRAM addresses are 7 bits (R58). -/
def ddramSize : Nat := 128

/-- CGRAM addresses are 6 bits (R58). -/
def cgramSize : Nat := 64

/-! ## The address counter (R51, R54) -/

/-- The counter `k` accesses on from `a`: +1 an access where the cursor moves right, -1 where it does not (R54). The direction
is the peer's entry mode, which ENABLE sets from `INIT_CURSOR_RIGHT`. DEDUCED (log 9). -/
def acMoved (right : Bool) (a : BitVec 7) (k : Nat) : BitVec 7 :=
  if right then a + BitVec.ofNat 7 k else a - BitVec.ofNat 7 k

/-- Whether no wrap can fall in the step from here: it stays inside a display line or, past column 15 of line 0, among the
addresses a text of 32 characters reaches (R303), or inside CGRAM (R53). Elsewhere the wrap is not stated (R54, N11, U8).
DEDUCED (log 9). -/
def acStepStated (right : Bool) (ram : Ram) (a : BitVec 7) : Bool :=
  match ram, right with
  | .ddram, true => a.toNat < 0x1F || (0x40 ≤ a.toNat && a.toNat < 0x4F)
  | .ddram, false => (0 < a.toNat && a.toNat < 0x20) || (0x40 < a.toNat && a.toNat < 0x50)
  | .cgram, true => a.toNat < 0x3F
  | .cgram, false => 0 < a.toNat && a.toNat < 0x40

/-- The counter after a data-register access (R54), `n` the draw a value the spec does not give is taken at. -/
def acAfterAccess (n : Nat) (r : PeerRegs) : BitVec 7 :=
  if acStepStated r.cursorRight r.ram r.ac then acMoved r.cursorRight r.ac 1 else (Config.peerRegs n).ac

/-- Whether the contract says that a byte written at this DDRAM address is stored there: the two display lines (R52) and
the addresses a long text goes on into (R303). Elsewhere what the peer does is not stated (U7; log 10). -/
def ddramStated (a : BitVec 7) : Bool := a.toNat < 0x20 || (0x40 ≤ a.toNat && a.toNat < 0x50)

/-- The cell a data-register access selects: the RAM the counter points into and the address in it (R50, R51, R58). -/
def selectedCell (r : PeerRegs) : Ram × Nat :=
  match r.ram with
  | .ddram => (.ddram, r.ac.toNat)
  | .cgram => (.cgram, r.ac.toNat % cgramSize)

/-! ## What a byte does -/

/-- Nothing about the peer is determined any more. -/
def peerLost (n : Nat) : Peer :=
  { sync := .unknown, regs := Config.peerRegs n, ddram := [], cgram := [] }

/-- A byte written to the data register: stored where the counter selects, and the counter moves (R50, R54). A CGRAM cell keeps
all 8 bits, bits 7:5 included: R53 says "written verbatim" and leaves open what the peer does with them (N15, U14). DESIGN
CHOICE (log 27). -/
def peerWriteData (n : Nat) (b : Byte) (p : Peer) : Peer :=
  let after := { p.regs with ac := acAfterAccess n p.regs }
  match selectedCell p.regs with
  | (.ddram, a) =>
    { p with sync := .paired, regs := after, ddram := if ddramStated p.regs.ac then memWrite p.ddram a b else [] }
  | (.cgram, a) => { p with sync := .paired, regs := after, cgram := memWrite p.cgram a b }

/-- A byte read from the data register: the counter moves (R54). What the block samples is free (R57). -/
def peerReadData (n : Nat) (p : Peer) : Peer :=
  { p with sync := .paired, regs := { p.regs with ac := acAfterAccess n p.regs } }

/-- A byte read from the command register: no side effect (R54, R61). -/
def peerReadStatus (p : Peer) : Peer := { p with sync := .paired }

/-- A byte written to the command register (R51, R55, R81 to R92). HOME brings the counter to DDRAM address 0 (R58; log 22); a
cursor SHIFT leaves it where the spec does not say. A set-DDRAM-address command loads the counter with its address as given,
also outside 0x00 to 0x0F and 0x40 to 0x4F, where what the peer does is not in the source (R52, U7): DESIGN CHOICE (log 29).
FUNCTION_SET to the 8-bit bus and the unlisted bytes leave nothing
determined (U5; log 9). -/
def peerCommand (n : Nat) (c : Byte) (p : Peer) : Peer :=
  match decodeCommand c with
  | some .clear =>
    { p with sync := .paired, ddram := [], regs := { p.regs with ac := 0, ram := .ddram } }
  | some .home =>
    { p with sync := .paired, regs := { p.regs with ac := 0, ram := .ddram } }
  | some (.entryMode r s) =>
    { p with sync := .paired, regs := { p.regs with cursorRight := r, shiftOnWrite := s } }
  | some (.displayControl d c b) =>
    { p with sync := .paired, regs := { p.regs with displayOn := d, cursorOn := c, blink := b } }
  | some (.shift true _ _) => { p with sync := .paired }
  | some (.shift false _ _) =>
    { p with sync := .paired, regs := { p.regs with ac := (Config.peerRegs n).ac } }
  | some (.functionSet false l f _) =>
    { p with sync := .paired, regs := { p.regs with twoLine := l, font5x10 := f } }
  | some (.functionSet true _ _ _) => peerLost n
  | some (.setCgramAddr a) =>
    { p with sync := .paired, regs := { p.regs with ac := a.setWidth 7, ram := .cgram } }
  | some (.setDdramAddr a) =>
    { p with sync := .paired, regs := { p.regs with ac := a, ram := .ddram } }
  | none => peerLost n

/-- A whole byte, its frames' register `s` and direction `w` (R50, with the levels of R93). -/
def peerByte (n : Nat) (s w : Level) (b : Byte) (p : Peer) : Peer :=
  if w = rwReadLevel then
    if s = rsDataLevel then peerReadData n p else peerReadStatus p
  else if s = rsDataLevel then peerWriteData n b p
  else peerCommand n b p

/-! ## What a nibble frame does (R56) -/

/-- The nibble on the data latches, pin Dk at bit k; none while a latch holds no value. -/
def latchNibble (p : Pins) : Option Nibble :=
  match p.d0, p.d1, p.d2, p.d3 with
  | .held v0, .held v1, .held v2, .held v3 => some (nibbleOf v0 v1 v2 v3)
  | _, _, _, _ => none

/-- A frame of known levels: `s`, `w` and, on a write, the nibble (R121). In 4-bit mode consecutive frames pair into bytes,
the first the high nibble (R56, R59). Before it, the ritual counts (R284): three wake nibbles, then the function-set byte
with bit 4 = 0 brings the peer to 4-bit mode and in step (log 8). The first wake nibble counts whatever level E powered up at:
R295 leaves open whether the ritual tolerates its loss. DESIGN CHOICE (log 28). -/
def peerFrame (n : Nat) (s w : Level) (nib : Nibble) (p : Peer) : Peer :=
  match p.sync with
  | .waking k =>
    if s = rsDataLevel || w = rwReadLevel then peerLost n
    else if k < 3 then { p with sync := .waking (k + 1) } else { p with sync := .settling nib }
  | .settling hi =>
    if s = rsDataLevel || w = rwReadLevel then peerLost n
    else
      match decodeCommand (byteOf hi nib) with
      | some (.functionSet false _ _ _) => peerCommand n (byteOf hi nib) p
      | _ => peerLost n
  | .paired => { p with sync := .half ⟨s, w, nib⟩ }
  | .half h => if h.s = s ∧ h.w = w then peerByte n s w (byteOf h.hi nib) p else peerLost n
  | .unknown => peerLost n

/-- The nibble on the data wires: the latches while `dir` is Output, for "while `dir = Input` the levels of `pin[D0..D3]` are not
on the wires" (R21, R22). Else, and while a latch holds no value, a free nibble (R263, U1, U23; log 7). -/
def wireNibble (n : Nat) (dir : Direction) (pins : Pins) : Nibble :=
  if dir = .output then (latchNibble pins).getD (Config.undrivenNibble n) else Config.undrivenNibble n

/-- The peer takes the frame on the pins (R121: at the falling edge of E). On a read the nibble is the peer's own. -/
def peerReceive (n : Nat) (dir : Direction) (pins : Pins) (p : Peer) : Peer :=
  match pins.rs, pins.rw with
  | .held s, .held w => peerFrame n s w (if w = rwReadLevel then 0 else wireNibble n dir pins) p
  | _, _ => peerLost n

end Sys2Proof.Machine
end

