-- ==== Sys2Proof/Machine/Ops.lean ====
section
/-! DEFINITION. The named operations every meaning is made of: the pin latches, the calls of the collaborators (00_scope
R9), taking an abort (60_exceptions R258), and the timing primitives, serializer and deserializer of the engine without
their guards (40_bus_engine R110 to R119). The guards stand in Guards.lean. -/

namespace Sys2Proof.Machine

/-! ## The latches (R21): one home for every pin -/

def Pins.get (p : Pins) : PinRole → Latch
  | .rs => p.rs
  | .rw => p.rw
  | .e => p.e
  | .bl => p.bl
  | .d0 => p.d0
  | .d1 => p.d1
  | .d2 => p.d2
  | .d3 => p.d3

def Pins.set (p : Pins) (r : PinRole) (v : Level) : Pins :=
  match r with
  | .rs => { p with rs := .held v }
  | .rw => { p with rw := .held v }
  | .e => { p with e := .held v }
  | .bl => { p with bl := .held v }
  | .d0 => { p with d0 := .held v }
  | .d1 => { p with d1 := .held v }
  | .d2 => { p with d2 := .held v }
  | .d3 => { p with d3 := .held v }

/-! ## Calls of the collaborators (R9) -/

/-- Append one event to the trace. -/
def emit (e : Event) (s : State) : State := { s with trace := s.trace ++ [e] }

/-- Whether writing `v` to `r` leaves the enable line low. -/
def dropsEnable (r : PinRole) (v : Level) : Bool := r = .e && v != eAssertLevel

/-- Whether writing `v` to `r` drops the enable line from its asserted level: the moment of a frame (R121). -/
def fallingEnable (r : PinRole) (v : Level) (p : Pins) : Bool :=
  dropsEnable r v && p.e = .held eAssertLevel

/-- The transfer that a frame taken now adds to the delivered stream: the lone nibble of a BUS_WRITE_NIBBLE, as it stands on the
latches (R118, R121). Every other frame adds none by itself: the byte operations record theirs (`deliver`), and R121 groups no
frame that a host makes by hand. DESIGN CHOICE (log 26). -/
def owedTransfers (s : State) : List Transfer :=
  match s.lone && s.pin.e = .held eAssertLevel, s.pin.rs, s.pin.rw, latchNibble s.pin with
  | true, .held reg, .held w, some n => if w = rwReadLevel then [] else [⟨Reg.ofBool (reg = rsDataLevel), false, .nibble n⟩]
  | _, _, _, _ => []

/-- `pin[r] <- v` (R9): the latch and the event `Drive(r, v)`; at a falling edge of E the peer takes the frame that stands
on the pins, and a lone nibble is delivered (R121). -/
def drive (r : PinRole) (v : Level) (s : State) : State :=
  { s with
    pin := s.pin.set r v
    trace := s.trace ++ [.drive r v]
    peer := if fallingEnable r v s.pin then peerReceive s.draws s.dir s.pin s.peer else s.peer
    draws := if fallingEnable r v s.pin then s.draws + 1 else s.draws
    delivered := if dropsEnable r v then s.delivered ++ owedTransfers s else s.delivered
    lone := s.lone && !dropsEnable r v }

/-- `Wait(d)` (R9, R262). -/
def wait (d : Nat) (s : State) : State := emit (.wait d) s

/-- `SetMode(r, m)` (R9, R263). -/
def setMode (r : PinRole) (m : PinMode) (s : State) : State := emit (.setMode r m) s

/-- The level the environment presents next: what it has put on the wire, else a free value (R23, R57; log 6). -/
def wireLevel (s : State) : Level :=
  match s.wire with
  | v :: _ => v
  | [] => Config.sampleLevel s.draws

/-- `Sample(r)` (R9): one level from the environment; the level is `wireLevel` of the state before. -/
def sample (r : PinRole) (s : State) : State :=
  { s with wire := s.wire.tail, draws := s.draws + 1, trace := s.trace ++ [.sample r (wireLevel s)] }

/-- `raise Precondition(cause)` (R258): emit `Abort(cause)` and set the fault latch; nothing is saved and every other state
element keeps its value. There is no return (R259): no operation clears `fault`, and the only way out is `State.reset`. -/
def abort (c : Cause) (s : State) : State := { emit (.abort c) s with fault := some c }

/-- What the operation hands back to its caller. -/
def returning (r : Returned) (s : State) : State := { s with result := r }

/-- Record the transfers of a whole byte operation in the delivered stream (R121). -/
def deliver (ts : List Transfer) (s : State) : State := { s with delivered := s.delivered ++ ts }

/-! ## The Pin Bus (41_pin_bus) -/

/-- `SET_DATA_DIRECTION` (R141): four `SetMode` events in ascending pin order, then `dir`. -/
def setDataDirection (isInput : Bool) (s : State) : State :=
  let m := if isInput then PinMode.input else PinMode.output
  let s := s |> setMode .d0 m |> setMode .d1 m |> setMode .d2 m |> setMode .d3 m
  { s with dir := if isInput then .input else .output }

/-! ## The timing primitives (40_bus_engine) -/

/-- `BEGIN` (R112). A new transaction holds no lone nibble. -/
def beginTransaction (reg : Reg) (isRead : Bool) (s : State) : State :=
  let s := s
    |> drive .rs (levelFor rsDataLevel reg.isData)
    |> drive .rw (levelFor rwReadLevel isRead)
    |> wait (wAs s.cfg)
    |> drive .e eAssertLevel
    |> wait (wSetup s.cfg isRead)
  { s with phase := .active reg isRead, lone := false }

/-- `CONT` (R113). -/
def continueTransaction (isRead : Bool) (s : State) : State :=
  s |> drive .e (!eAssertLevel)
    |> wait (wHold s.cfg)
    |> wait (wCycRem s.cfg isRead)
    |> drive .e eAssertLevel
    |> wait (wSetup s.cfg isRead)

/-- `END` (R114). -/
def endTransaction (s : State) : State :=
  let s := s
    |> wait (wEndSetup s.cfg)
    |> drive .e (!eAssertLevel)
    |> wait (wEndHold s.cfg)
  { s with phase := .idle }

/-! ## The serializer and the deserializer -/

/-- `DRIVE_NIBBLE` (R111). -/
def driveNibble (n : Nibble) (s : State) : State :=
  s |> drive .d0 (nibbleBit n 0) |> drive .d1 (nibbleBit n 1) |> drive .d2 (nibbleBit n 2) |> drive .d3 (nibbleBit n 3)

/-- `SAMPLE_NIBBLE` (R115): the nibble and the state after it. -/
def sampleNibble (s : State) : Nibble × State :=
  let s1 := sample .d0 s
  let s2 := sample .d1 s1
  let s3 := sample .d2 s2
  (nibbleOf (wireLevel s) (wireLevel s1) (wireLevel s2) (wireLevel s3), sample .d3 s3)

/-- The nibble cycles of a list of bytes inside an open write: high nibble first, CONT between nibbles and between bytes, none
after the last (R116). -/
def driveBytes : List Byte → State → State
  | [], s => s
  | [b], s => s |> driveNibble (highNibble b) |> continueTransaction false |> driveNibble (lowNibble b)
  | b :: c :: rest, s =>
    s |> driveNibble (highNibble b) |> continueTransaction false |> driveNibble (lowNibble b)
      |> continueTransaction false |> driveBytes (c :: rest)

/-- One byte inside an open read (R117). -/
def sampleByte (s : State) : Byte × State :=
  let (n1, s) := sampleNibble s
  let (n2, s) := sampleNibble (continueTransaction true s)
  (byteOf n1 n2, s)

/-- The nibble cycles of `count` bytes inside an open read (R117). -/
def sampleBytes : Nat → State → List Byte × State
  | 0, s => ([], s)
  | 1, s =>
    let (b, s) := sampleByte s
    ([b], s)
  | n + 2, s =>
    let (b, s) := sampleByte s
    let (bs, s) := sampleBytes (n + 1) (continueTransaction true s)
    (b :: bs, s)

/-! ## Transfers (R116 to R119) -/

/-- Open a write: BEGIN from `Idle`, after switching the direction; CONT to join an open transaction (R116, R119). -/
def openWrite (reg : Reg) (s : State) : State :=
  match s.phase with
  | .idle => beginTransaction reg false (setDataDirection false s)
  | .active _ _ => continueTransaction false s

/-- `BUS_WRITE_BYTES` (R116): nothing at all for no bytes. -/
def busWriteBytes (reg : Reg) (bytes : List Byte) (s : State) : State :=
  if bytes = [] then s
  else
    s |> openWrite reg |> driveBytes bytes |> endTransaction
      |> deliver (bytes.map fun b => ⟨reg, false, .byte b⟩)

/-- `BUS_READ_BYTES` (R117): nothing at all for no bytes. -/
def busReadBytes (reg : Reg) (count : Nat) (s : State) : List Byte × State :=
  if count = 0 then ([], s)
  else
    let (bs, s) := sampleBytes count (beginTransaction reg true (setDataDirection true s))
    (bs, s |> endTransaction |> deliver (bs.map fun b => ⟨reg, true, .byte b⟩))

/-- `BUS_WRITE_NIBBLE` (R118). Its transfer enters the delivered stream with its frame, at the falling edge of E (R121): with
`terminate` that is END's, without it the next one, whatever then stands on the data latches. DESIGN CHOICE (log 26). -/
def busWriteNibble (reg : Reg) (n : Nibble) (terminate : Bool) (s : State) : State :=
  let s := s
    |> setDataDirection false
    |> beginTransaction reg false
    |> driveNibble n
  if terminate then endTransaction { s with lone := true } else { s with lone := true }

/-- `WRITE_COMMAND` (42_command_encoder R163). -/
def writeCommand (c : Byte) (s : State) : State := busWriteBytes .command [c] s

/-- `SET_ADDRESS_COUNTER` (43_ram_access R175). -/
def setAddressCounter (addr : BitVec 7) (targetIsDataRam : Bool) (s : State) : State :=
  writeCommand (addressByte addr targetIsDataRam) s

end Sys2Proof.Machine
end

