-- ==== Sys2Proof/Machine/Guards.lean ====
section
/-! DEFINITION. The guards of an operation, each the refusal it ends in or none, in the order they are examined: the fault
latch (60_exceptions R258), the lifecycle table (45_facade R225) before anything else (R256, D15; log 15), the configuration (00_scope
R7), the phase and the direction (40_bus_engine R111 to R119). -/

namespace Sys2Proof.Machine

/-- After an abort every operation is refused (R258). -/
def aliveGuard (s : State) : Option Refusal :=
  match s.fault with
  | some c => some (.aborted c)
  | none => none

/-- The lifecycle table (R225): `ok` says which states allow the operation. -/
def lifeGuard (ok : Life → Bool) (s : State) : Option Refusal :=
  if ok s.life then none else some (.wrongLifecycle s.life)

/-- A configuration R7 does not admit gives the block no behaviour. -/
def configGuard (s : State) : Option Refusal :=
  if configWf s.cfg then none else some .illFormedConfiguration

/-- `phase = Idle`. -/
def idleGuard (s : State) : Option Refusal :=
  if s.phase = .idle then none else some (.wrongPhase s.phase)

/-- `phase = Active(reg, r)` for a register and direction `ok` allows. -/
def activeGuard (ok : Reg → Bool → Bool) (s : State) : Option Refusal :=
  match s.phase with
  | .idle => some (.wrongPhase .idle)
  | .active reg isRead => if ok reg isRead then none else some (.wrongPhase (.active reg isRead))

/-- `dir = d`. -/
def dirGuard (d : Direction) (s : State) : Option Refusal :=
  if s.dir = d then none else some (.wrongDirection s.dir)

/-- The guard of BUS_WRITE_BYTES, after its test for no bytes (R116, R119): from `Idle`, or joining an open write to the same
register, whose DRIVE_NIBBLEs need the output direction (R111). -/
def writeGuard (reg : Reg) (bytes : List Byte) (s : State) : Option Refusal :=
  if bytes = [] then none
  else
    match s.phase with
    | .idle => none
    | .active _ _ => (activeGuard (fun r isRead => r = reg && !isRead) s).or (dirGuard .output s)

/-- What every operation needs: no abort, its lifecycle state, a well-formed configuration. -/
def callGuard (ok : Life → Bool) (s : State) : Option Refusal :=
  (aliveGuard s).or ((lifeGuard ok s).or (configGuard s))

/-- An internal operation of files 40 to 44, called by a host that reaches below the facade: only in `Ready` (R225). -/
def internalGuard (s : State) : Option Refusal := callGuard (fun l => l = .ready) s

/-- An internal operation that needs `phase = Idle`. -/
def internalIdleGuard (s : State) : Option Refusal := (internalGuard s).or (idleGuard s)

/-- A facade operation: its lifecycle states, and `phase = Idle` on entry (R225). -/
def facadeGuard (ok : Life → Bool) (s : State) : Option Refusal := (callGuard ok s).or (idleGuard s)

/-- Run an operation whose guard has passed. -/
def guarded (guard : Option Refusal) (next : State) : Host.Outcome State Fault Refusal :=
  match guard with
  | some r => .refused r
  | none => .next next

end Sys2Proof.Machine
end

