-- ==== Sys2Proof/Machine/Encoder.lean ====
section
/-! DEFINITION. The meanings of the Command Encoder's operations (42_command_encoder R155 to R163): the four pure builders of
Flags.lean, which change nothing but what is handed back, and WRITE_COMMAND. -/

namespace Sys2Proof.Machine

/-- ENC_ENTRY_MODE (R156). -/
def execEncEntryMode (cursorMovesRight displayShiftsOnWrite : Bool) (s : State) : Host.Outcome State Fault Refusal :=
  guarded (internalGuard s) (returning (.byte (encodeEntryMode cursorMovesRight displayShiftsOnWrite)) s)

/-- ENC_DISPLAY_CONTROL (R157). -/
def execEncDisplayControl (displayOn cursorOn cursorBlinks : Bool) (s : State) : Host.Outcome State Fault Refusal :=
  guarded (internalGuard s) (returning (.byte (encodeDisplayControl displayOn cursorOn cursorBlinks)) s)

/-- ENC_FUNCTION_SET (R158). -/
def execEncFunctionSet (eightBitBus twoLineMode font5x10 : Bool) (s : State) : Host.Outcome State Fault Refusal :=
  guarded (internalGuard s) (returning (.byte (encodeFunctionSet eightBitBus twoLineMode font5x10)) s)

/-- ENC_SHIFT (R159). -/
def execEncShift (shiftWholeDisplay shiftRight : Bool) (s : State) : Host.Outcome State Fault Refusal :=
  guarded (internalGuard s) (returning (.byte (encodeShift shiftWholeDisplay shiftRight)) s)

/-- WRITE_COMMAND (R163): any byte, listed or not (30_encoding R92). -/
def execWriteCommand (c : Byte) (s : State) : Host.Outcome State Fault Refusal :=
  guarded (internalIdleGuard s) (s |> writeCommand c |> returning .nothing)

end Sys2Proof.Machine
end

