-- ==== Sys2Proof/Machine/Engine.lean ====
section
/-! DEFINITION. The meanings of the Bus Transaction Engine's operations (40_bus_engine R111 to R119), each its guard and the
shared operation of Ops.lean. None can abort. -/

namespace Sys2Proof.Machine

/-- BEGIN (R112): needs `phase = Idle`. -/
def execBeginTransaction (targetIsDataRegister isRead : Bool) (s : State) : Host.Outcome State Fault Refusal :=
  guarded (internalIdleGuard s)
    (s |> beginTransaction (Reg.ofBool targetIsDataRegister) isRead |> returning .nothing)

/-- CONT (R113): needs an open transaction of the same direction. -/
def execContinueTransaction (isRead : Bool) (s : State) : Host.Outcome State Fault Refusal :=
  guarded ((internalGuard s).or (activeGuard (fun _ r => r = isRead) s))
    (s |> continueTransaction isRead |> returning .nothing)

/-- END (R114): needs an open transaction. -/
def execEndTransaction (s : State) : Host.Outcome State Fault Refusal :=
  guarded ((internalGuard s).or (activeGuard (fun _ _ => true) s)) (s |> endTransaction |> returning .nothing)

/-- DRIVE_NIBBLE (R111): needs an open write and `dir = Output`. -/
def execDriveNibble (n : Nibble) (s : State) : Host.Outcome State Fault Refusal :=
  guarded ((internalGuard s).or ((activeGuard (fun _ r => !r) s).or (dirGuard .output s)))
    (s |> driveNibble n |> returning .nothing)

/-- SAMPLE_NIBBLE (R115): needs an open read and `dir = Input`; returns the nibble. -/
def execSampleNibble (s : State) : Host.Outcome State Fault Refusal :=
  guarded ((internalGuard s).or ((activeGuard (fun _ r => r) s).or (dirGuard .input s)))
    (returning (.nibble (sampleNibble s).1) (sampleNibble s).2)

/-- BUS_WRITE_BYTES (R116, R119). -/
def execBusWriteBytes (reg : Reg) (bytes : List Byte) (s : State) : Host.Outcome State Fault Refusal :=
  guarded ((internalGuard s).or (writeGuard reg bytes s)) (s |> busWriteBytes reg bytes |> returning .nothing)

/-- BUS_READ_BYTES (R117): needs `phase = Idle`; returns the bytes. -/
def execBusReadBytes (reg : Reg) (count : Nat) (s : State) : Host.Outcome State Fault Refusal :=
  guarded (internalIdleGuard s)
    (returning (.bytes (busReadBytes reg count s).1) (busReadBytes reg count s).2)

/-- BUS_WRITE_NIBBLE (R118): needs `phase = Idle`. -/
def execBusWriteNibble (reg : Reg) (n : Nibble) (terminate : Bool) (s : State) : Host.Outcome State Fault Refusal :=
  guarded (internalIdleGuard s) (s |> busWriteNibble reg n terminate |> returning .nothing)

end Sys2Proof.Machine
end

