-- ==== Sys2Proof/Machine/PinBus.lean ====
section
/-! DEFINITION. The Pin Bus (41_pin_bus R140 to R145): CONFIGURE, and the meanings of its four operations. -/

namespace Sys2Proof.Machine

/-- Enable a clock domain once (R140, R264): nothing if it is enabled already (R27). -/
def enableDomain (c : Nat) (s : State) : State :=
  if s.domains.contains c then s else { emit (.enableDomain c) s with domains := s.domains ++ [c] }

/-- One unreserved role: its clock domain, output mode, drive strength (R140). R7(d) gives every configured role a pin. -/
def setUpRole (r : PinRole) (s : State) : State :=
  match pinOf s.cfg r with
  | none => s
  | some d =>
    s |> enableDomain d.clockDomain |> setMode r .output
      |> emit (.configDrive r s.cfg.driveStrength s.cfg.slewControl)

/-- The loop of CONFIGURE: the first reserved role aborts, the roles before it set up already (R140, D13). -/
def configureRoles : List PinRole → State → State
  | [], s => { s with dir := .output }
  | r :: rest, s =>
    if reservedPin s.cfg r then abort (.reservedPin r) s else configureRoles rest (setUpRole r s)

/-- `CONFIGURE()` (R140). -/
def configure (s : State) : State := configureRoles (configuredRoles s.cfg) s

/-- CONFIGURE called by a host below the facade (R225: legal in `Ready`; R140 gives it no other caller than INIT, so it needs
`phase = Idle` as INIT has). DESIGN CHOICE (log 14). -/
def execConfigure (s : State) : Host.Outcome State Fault Refusal :=
  guarded (internalIdleGuard s)
    (match (configure s).fault with
    | some _ => configure s
    | none => returning .nothing (configure s))

/-- SET_DATA_DIRECTION (R141): needs `phase = Idle`. -/
def execSetDataDirection (isInput : Bool) (s : State) : Host.Outcome State Fault Refusal :=
  guarded (internalIdleGuard s) (s |> setDataDirection isInput |> returning .nothing)

/-- A host's own write of a pin, passed through to the GPIO collaborator (R142): the latch and the event. The backlight latch
exists only when the backlight is used (R21); without it the write, a legal operand like any other (R102), is the event alone.
DESIGN CHOICE (log 18). -/
def writePin (r : PinRole) (level : Level) (s : State) : State :=
  if (configuredRoles s.cfg).contains r then drive r level s else emit (.drive r level) s

/-- PIN_WRITE (R142): every role is a legal operand (R102). -/
def execPinWrite (r : PinRole) (level : Level) (s : State) : Host.Outcome State Fault Refusal :=
  guarded (internalGuard s) (s |> writePin r level |> returning .nothing)

/-- PIN_READ (R143): returns the environment's level, whatever the role (R102; log 18). -/
def execPinRead (r : PinRole) (s : State) : Host.Outcome State Fault Refusal :=
  guarded (internalGuard s) (s |> sample r |> returning (.level (wireLevel s)))

end Sys2Proof.Machine
end

