-- ==== Sys2Proof/Machine/Text.lean ====
section
/-! DEFINITION. The Text Interpreter (44_text_interpreter R195 to R204): the scan, from items to transactions, and the
meanings of the nine text forms, each one scan step and the emission of its item (log 13). -/

namespace Sys2Proof.Machine

/-- One emitted item (R196): the register it goes to and its byte. -/
abbrev Item := Reg × Byte

/-- "a decimal digit `d` where `d < MAX_TOTAL_CUSTOM_PATTERN`" (R198). -/
def isGlyphDigit (ch : Byte) : Bool :=
  0x30 ≤ ch.toNat && ch.toNat ≤ 0x39 && ch.toNat - 0x30 < maxTotalCustomPattern

/-- The whitespace that is dropped (R97, R199; log 20). -/
def isDropped (ch : Byte) : Bool := ch = 0x09 || ch = 0x0B || ch = 0x0C || ch = 0x0D

/-- The items of one source byte that starts no glyph escape (R196): newline R197, dropped whitespace R199, else the byte
itself R200 to R202. -/
def itemsOfByte (ch : Byte) : List Item :=
  if ch = chNewline then [(.command, cmdJumpLine2)] else if isDropped ch then [] else [(.data, ch)]

/-- `INTERPRET` (R196): the scan from left to right, a pure function of the buffer. -/
def interpret : List Byte → List Item
  | [] => []
  | [ch] => itemsOfByte ch
  | ch :: d :: rest =>
    if ch = chEscape ∧ isGlyphDigit d then (.data, d - 0x30) :: interpret rest
    else itemsOfByte ch ++ interpret (d :: rest)

/-- Maximal runs of consecutive items with the same register (R203). -/
def runsOf : List Item → List (Reg × List Byte)
  | [] => []
  | (reg, b) :: rest =>
    match runsOf rest with
    | [] => [(reg, [b])]
    | (reg', bs) :: more => if reg = reg' then (reg, b :: bs) :: more else (reg, [b]) :: (reg', bs) :: more

/-- One transaction per run, in order (R203). -/
def emitRuns : List (Reg × List Byte) → State → State
  | [], s => s
  | (reg, bs) :: more, s => emitRuns more (busWriteBytes reg bs s)

/-- `EMIT_ITEMS` (R203). -/
def emitItems (items : List Item) (s : State) : State := emitRuns (runsOf items) s

/-- `WRITE_BYTES` in text mode (43_ram_access R178). -/
def writeText (text : List Byte) (s : State) : State := emitItems (interpret text) s

/-- A text form called by itself: its items are emitted as a text of that form alone would be. -/
def execItems (items : List Item) (s : State) : Host.Outcome State Fault Refusal :=
  guarded (internalIdleGuard s) (s |> emitItems items |> returning .nothing)

/-- TXT_NEWLINE (R197): the command byte 0xC0. -/
def execTxtNewline (s : State) : Host.Outcome State Fault Refusal := execItems [(.command, cmdJumpLine2)] s

/-- TXT_GLYPH (R198): the data byte `d`. -/
def execTxtGlyph (d : BitVec 3) (s : State) : Host.Outcome State Fault Refusal := execItems [(.data, d.setWidth 8)] s

/-- TXT_DROP_TAB (R199): nothing is emitted. -/
def execTxtDropTab (s : State) : Host.Outcome State Fault Refusal := execItems [] s

/-- TXT_DROP_VT (R199). -/
def execTxtDropVt (s : State) : Host.Outcome State Fault Refusal := execItems [] s

/-- TXT_DROP_FF (R199). -/
def execTxtDropFf (s : State) : Host.Outcome State Fault Refusal := execItems [] s

/-- TXT_DROP_CR (R199). -/
def execTxtDropCr (s : State) : Host.Outcome State Fault Refusal := execItems [] s

/-- TXT_SPACE (R200): the data byte 0x20. -/
def execTxtSpace (s : State) : Host.Outcome State Fault Refusal := execItems [(.data, chSpace)] s

/-- TXT_ESCAPE_FAILED (R202): the marker itself, as a data byte. -/
def execTxtEscapeFailed (s : State) : Host.Outcome State Fault Refusal := execItems [(.data, chEscape)] s

/-- TXT_VERBATIM (R201): the byte itself, as a data byte. -/
def execTxtVerbatim (c : Byte) (s : State) : Host.Outcome State Fault Refusal := execItems [(.data, c)] s

end Sys2Proof.Machine
end

