-- ==== Sys2Proof/Machine/RamAccess.lean ====
section
/-! DEFINITION. The meanings of the RAM Access Layer's operations (43_ram_access R175 to R182). -/

namespace Sys2Proof.Machine

/-- SET_ADDRESS_COUNTER (R175). -/
def execSetAddressCounter (addr : BitVec 7) (targetIsDataRam : Bool) (s : State) : Host.Outcome State Fault Refusal :=
  guarded (internalIdleGuard s) (s |> setAddressCounter addr targetIsDataRam |> returning .nothing)

/-- `READ_BYTES` (R176): set the counter, then one read of the data register. -/
def readBytes (count : Nat) (startAddr : BitVec 7) (fromDataRam : Bool) (s : State) : List Byte × State :=
  busReadBytes .data count (setAddressCounter startAddr fromDataRam s)

/-- READ_BYTES (R176): returns the bytes. -/
def execReadBytes (count : Nat) (startAddr : BitVec 7) (fromDataRam : Bool) (s : State) :
    Host.Outcome State Fault Refusal :=
  guarded (internalIdleGuard s)
    (returning (.bytes (readBytes count startAddr fromDataRam s).1) (readBytes count startAddr fromDataRam s).2)

/-- WRITE_BYTES in raw mode (R177): the bytes verbatim to the data register. -/
def execWriteBytesRaw (data : List Byte) (count : Nat) (s : State) : Host.Outcome State Fault Refusal :=
  guarded (internalIdleGuard s) (s |> busWriteBytes .data (operandBytes data count) |> returning .nothing)

/-- WRITE_BYTES in text mode (R178). -/
def execWriteBytesText (data : List Byte) (count : Nat) (s : State) : Host.Outcome State Fault Refusal :=
  guarded (internalIdleGuard s) (s |> writeText (operandBytes data count) |> returning .nothing)

/-- READ_STATUS (R182): one byte read from the command register, returned uninterpreted. -/
def execReadStatus (s : State) : Host.Outcome State Fault Refusal :=
  guarded (internalIdleGuard s)
    (returning (.byte ((busReadBytes .command 1 s).1.headD 0)) (busReadBytes .command 1 s).2)

end Sys2Proof.Machine
end

