-- ==== Sys2Proof/Machine/Facade.lean ====
section
/-! DEFINITION. The meanings of the Driver Facade's nine operations (45_facade R215 to R225). The lifecycle guard comes
first, then the one precondition, then the first bus activity (D15). -/

namespace Sys2Proof.Machine

/-- A content operation's guard: `Ready` (R225) and `phase = Idle`. -/
def contentGuard (s : State) : Option Refusal := facadeGuard (fun l => l = .ready) s

/-- INIT (R216): CONFIGURE, and unless it aborted, the data pins to input and `PinsConfigured`. -/
def execInit (s : State) : Host.Outcome State Fault Refusal :=
  guarded (facadeGuard (fun l => l = .uninitialized) s)
    (match (configure s).fault with
    | some _ => configure s
    | none => { configure s |> setDataDirection true |> returning .nothing with life := .pinsConfigured })

/-- The bytes of the one-time configuration write (R217). -/
def initCommands (c : Config) : List Byte :=
  [encodeFunctionSet false c.initTwoLine c.initFont5x10,
   encodeDisplayControl c.initDisplayOn c.initCursorOn c.initBlink,
   cmdClear,
   encodeEntryMode c.initCursorRight c.initShiftOnWrite]

/-- The wake ritual (R217): three wake nibbles, the last non-terminating, then `PoweredOn` (C4, D12). -/
def wakeRitual (s : State) : State :=
  let s := s
    |> wait (wPowerOn s.cfg)
    |> busWriteNibble .command s.cfg.wakeNibble true
    |> wait (wWake1 s.cfg)
    |> busWriteNibble .command s.cfg.wakeNibble true
    |> wait (wWake2 s.cfg)
    |> busWriteNibble .command s.cfg.wakeNibble false
  { s with life := .poweredOn }

/-- ENABLE (R217): the ritual, then the configuration write, which joins the open transaction, and `Ready`. -/
def execEnable (s : State) : Host.Outcome State Fault Refusal :=
  guarded (facadeGuard (fun l => l = .pinsConfigured) s)
    { s |> wakeRitual |> busWriteBytes .command (initCommands s.cfg) |> returning .nothing with life := .ready }

/-- DISPLAY_WRITE (R218): at most 32 source bytes, else the abort before any bus activity; the clear, then the text. -/
def execDisplayWrite (text : List Byte) (s : State) : Host.Outcome State Fault Refusal :=
  guarded (contentGuard s)
    (if maxTextLen < text.length then abort (.textTooLong text.length) s
     else s |> writeCommand cmdClear |> writeText text |> returning .nothing)

/-- DISPLAY_APPEND (R219). -/
def execDisplayAppend (text : List Byte) (s : State) : Host.Outcome State Fault Refusal :=
  guarded (contentGuard s)
    (if maxTextLen < text.length then abort (.textTooLong text.length) s
     else s |> writeText text |> returning .nothing)

/-- ADD_CUSTOM_GLYPH (R220). -/
def execAddCustomGlyph (pattern : Glyph) (slot : Nat) (s : State) : Host.Outcome State Fault Refusal :=
  guarded (contentGuard s)
    (if maxTotalCustomPattern ≤ slot then abort (.slotOutOfRange slot) s
     else s |> setAddressCounter (slotAddr slot) false |> busWriteBytes .data pattern.rows |> returning .nothing)

/-- SET_CURSOR (R221). -/
def execSetCursor (x y : Nat) (s : State) : Host.Outcome State Fault Refusal :=
  guarded (contentGuard s)
    (if cols ≤ x ∨ lines ≤ y then abort (.cursorOutOfRange x y) s
     else s |> setAddressCounter (cursorAddr x y) true |> returning .nothing)

/-- TOGGLE_FEATURES (R222): nothing is toggled, the three booleans are the new settings. -/
def execToggleFeatures (displayOn cursorOn cursorBlinkOn : Bool) (s : State) : Host.Outcome State Fault Refusal :=
  guarded (contentGuard s)
    (s |> writeCommand (encodeDisplayControl displayOn cursorOn cursorBlinkOn) |> returning .nothing)

/-- RESET (R223): the clear command only; the block itself is not reset. -/
def execReset (s : State) : Host.Outcome State Fault Refusal :=
  guarded (contentGuard s) (s |> writeCommand cmdClear |> returning .nothing)

/-- SET_BACKLIGHT (R224): legal in every lifecycle state but `Uninitialized`; nothing happens when the backlight is not
configured. -/
def execSetBacklight (on : Bool) (s : State) : Host.Outcome State Fault Refusal :=
  guarded (facadeGuard (fun l => l != .uninitialized) s)
    (returning .nothing (if s.cfg.useBacklight then drive .bl (levelFor blOnLevel on) s else s))

end Sys2Proof.Machine
end

