-- ==== Sys2Proof/Machine/Wire.lean ====
section
/-! DEFINITION. The meanings of the wire formats: a command byte (CMD8, 30_encoding R83 to R91) is the transaction that
delivers it (42_command_encoder R163) and with it the peer's reaction (20_memory R51, R55; log 11); a nibble frame (BUS4,
R93) is a transaction of one nibble cycle (log 12). -/

namespace Sys2Proof.Machine

/-- Deliver a command byte (R163). -/
def execCommand (c : Command) (s : State) : Host.Outcome State Fault Refusal :=
  guarded (internalIdleGuard s) (s |> writeCommand c.toByte |> returning .nothing)

/-- CLEAR (R83, R160). -/
def execClear (s : State) : Host.Outcome State Fault Refusal := execCommand .clear s

/-- HOME (R84, R161). -/
def execHome (s : State) : Host.Outcome State Fault Refusal := execCommand .home s

/-- ENTRY_MODE (R85). -/
def execEntryMode (r sh : Bool) (s : State) : Host.Outcome State Fault Refusal := execCommand (.entryMode r sh) s

/-- DISPLAY_CONTROL (R86). -/
def execDisplayControl (d c b : Bool) (s : State) : Host.Outcome State Fault Refusal :=
  execCommand (.displayControl d c b) s

/-- SHIFT (R87). -/
def execShift (w t : Bool) (x : BitVec 2) (s : State) : Host.Outcome State Fault Refusal := execCommand (.shift w t x) s

/-- FUNCTION_SET (R88). -/
def execFunctionSet (l n f : Bool) (x : BitVec 2) (s : State) : Host.Outcome State Fault Refusal :=
  execCommand (.functionSet l n f x) s

/-- SET_CGRAM_ADDR (R89). -/
def execSetCgramAddr (a : BitVec 6) (s : State) : Host.Outcome State Fault Refusal := execCommand (.setCgramAddr a) s

/-- SET_DDRAM_ADDR (R90). -/
def execSetDdramAddr (a : BitVec 7) (s : State) : Host.Outcome State Fault Refusal := execCommand (.setDdramAddr a) s

/-- JUMP_LINE2 (R91, R162): the byte 0xC0, a second name of SET_DDRAM_ADDR with address 0x40. -/
def execJumpLine2 (s : State) : Host.Outcome State Fault Refusal :=
  guarded (internalIdleGuard s) (s |> writeCommand cmdJumpLine2 |> returning .nothing)

/-- A read transaction of one nibble cycle in which the peer presents `n` (R93: "driven by the peer and sampled by the block
on a read"); the nibble sampled and the state after it. -/
def busReadNibble (reg : Reg) (n : Nibble) (s : State) : Nibble × State :=
  let s := s |> setDataDirection true |> beginTransaction reg true
  let (m, s) := sampleNibble
    { s with wire := [nibbleBit n 0, nibbleBit n 1, nibbleBit n 2, nibbleBit n 3] ++ s.wire }
  (m, s |> endTransaction |> deliver [⟨reg, true, .nibble m⟩])

/-- Run a read frame and hand the nibble back. -/
def execReadFrame (reg : Reg) (n : Nibble) (s : State) : Host.Outcome State Fault Refusal :=
  guarded (internalIdleGuard s)
    (returning (.nibble (busReadNibble reg n s).1) (busReadNibble reg n s).2)

/-- NIB_WR_CMD (R93). -/
def execNibWrCmd (n : Nibble) (s : State) : Host.Outcome State Fault Refusal :=
  guarded (internalIdleGuard s) (s |> busWriteNibble .command n true |> returning .nothing)

/-- NIB_WR_DATA (R93). -/
def execNibWrData (n : Nibble) (s : State) : Host.Outcome State Fault Refusal :=
  guarded (internalIdleGuard s) (s |> busWriteNibble .data n true |> returning .nothing)

/-- NIB_RD_CMD (R93). -/
def execNibRdCmd (n : Nibble) (s : State) : Host.Outcome State Fault Refusal := execReadFrame .command n s

/-- NIB_RD_DATA (R93). -/
def execNibRdData (n : Nibble) (s : State) : Host.Outcome State Fault Refusal := execReadFrame .data n s

end Sys2Proof.Machine
end

