-- ==== Sys2Proof/Machine/Dispatch.lean ====
section
/-! DEFINITION. One arm per instruction, each one call of its meaning. -/

namespace Sys2Proof.Machine

def exec (i : Instr) (s : State) : Host.Outcome State Fault Refusal :=
  match i with
  -- CMD8: command bytes (R83 to R91)
  | .clear => Sys2Proof.Machine.execClear s
  | .home => Sys2Proof.Machine.execHome s
  | .entryMode r sh => Sys2Proof.Machine.execEntryMode r sh s
  | .displayControl d c b => Sys2Proof.Machine.execDisplayControl d c b s
  | .shift w t x => Sys2Proof.Machine.execShift w t x s
  | .functionSet l n f x => Sys2Proof.Machine.execFunctionSet l n f x s
  | .setCgramAddr a => Sys2Proof.Machine.execSetCgramAddr a s
  | .setDdramAddr a => Sys2Proof.Machine.execSetDdramAddr a s
  | .jumpLine2 => Sys2Proof.Machine.execJumpLine2 s
  -- BUS4: nibble frames (R93)
  | .nibWrCmd n => Sys2Proof.Machine.execNibWrCmd n s
  | .nibWrData n => Sys2Proof.Machine.execNibWrData n s
  | .nibRdCmd n => Sys2Proof.Machine.execNibRdCmd n s
  | .nibRdData n => Sys2Proof.Machine.execNibRdData n s
  -- TXT: text forms (R96)
  | .txtNewline => Sys2Proof.Machine.execTxtNewline s
  | .txtGlyph d => Sys2Proof.Machine.execTxtGlyph d s
  | .txtDropTab => Sys2Proof.Machine.execTxtDropTab s
  | .txtDropVt => Sys2Proof.Machine.execTxtDropVt s
  | .txtDropFf => Sys2Proof.Machine.execTxtDropFf s
  | .txtDropCr => Sys2Proof.Machine.execTxtDropCr s
  | .txtSpace => Sys2Proof.Machine.execTxtSpace s
  | .txtEscapeFailed => Sys2Proof.Machine.execTxtEscapeFailed s
  | .txtVerbatim c => Sys2Proof.Machine.execTxtVerbatim c s
  -- OP: the Bus Transaction Engine (R110 to R119)
  | .beginTransaction targetIsDataRegister isRead => Sys2Proof.Machine.execBeginTransaction targetIsDataRegister isRead s
  | .continueTransaction isRead => Sys2Proof.Machine.execContinueTransaction isRead s
  | .endTransaction => Sys2Proof.Machine.execEndTransaction s
  | .driveNibble n => Sys2Proof.Machine.execDriveNibble n s
  | .sampleNibble => Sys2Proof.Machine.execSampleNibble s
  | .busWriteBytes reg bytes => Sys2Proof.Machine.execBusWriteBytes reg bytes s
  | .busReadBytes reg count => Sys2Proof.Machine.execBusReadBytes reg count s
  | .busWriteNibble reg n terminate => Sys2Proof.Machine.execBusWriteNibble reg n terminate s
  -- OP: the Pin Bus (R140 to R143)
  | .configure => Sys2Proof.Machine.execConfigure s
  | .setDataDirection isInput => Sys2Proof.Machine.execSetDataDirection isInput s
  | .pinWrite r level => Sys2Proof.Machine.execPinWrite r level s
  | .pinRead r => Sys2Proof.Machine.execPinRead r s
  -- OP: the Command Encoder (R156 to R163)
  | .encEntryMode cursorMovesRight displayShiftsOnWrite => Sys2Proof.Machine.execEncEntryMode cursorMovesRight displayShiftsOnWrite s
  | .encDisplayControl displayOn cursorOn cursorBlinks => Sys2Proof.Machine.execEncDisplayControl displayOn cursorOn cursorBlinks s
  | .encFunctionSet eightBitBus twoLineMode font5x10 => Sys2Proof.Machine.execEncFunctionSet eightBitBus twoLineMode font5x10 s
  | .encShift shiftWholeDisplay shiftRight => Sys2Proof.Machine.execEncShift shiftWholeDisplay shiftRight s
  | .writeCommand c => Sys2Proof.Machine.execWriteCommand c s
  -- OP: the RAM Access Layer (R175 to R182)
  | .setAddressCounter addr targetIsDataRam => Sys2Proof.Machine.execSetAddressCounter addr targetIsDataRam s
  | .readBytes count startAddr fromDataRam => Sys2Proof.Machine.execReadBytes count startAddr fromDataRam s
  | .writeBytesRaw data count => Sys2Proof.Machine.execWriteBytesRaw data count s
  | .writeBytesText data count => Sys2Proof.Machine.execWriteBytesText data count s
  | .readStatus => Sys2Proof.Machine.execReadStatus s
  -- OP: the Driver Facade (R216 to R224)
  | .init => Sys2Proof.Machine.execInit s
  | .enable => Sys2Proof.Machine.execEnable s
  | .displayWrite text => Sys2Proof.Machine.execDisplayWrite text s
  | .displayAppend text => Sys2Proof.Machine.execDisplayAppend text s
  | .addCustomGlyph pattern slot => Sys2Proof.Machine.execAddCustomGlyph pattern slot s
  | .setCursor x y => Sys2Proof.Machine.execSetCursor x y s
  | .toggleFeatures displayOn cursorOn cursorBlinkOn => Sys2Proof.Machine.execToggleFeatures displayOn cursorOn cursorBlinkOn s
  | .reset => Sys2Proof.Machine.execReset s
  | .setBacklight on => Sys2Proof.Machine.execSetBacklight on s

end Sys2Proof.Machine
end

