-- ==== Sys2Proof/Machine/Step.lean ====
section
/-! DEFINITION. One step: the next call of the host, run to its end (20_memory R64, 00_scope R12.1; log 1). -/

namespace Sys2Proof.Machine

/-- With a call pending, take it off `calls` and run it to completion (R64); an aborted block refuses it (R258), as its
meaning says. With none pending the block does nothing, or, after an abort, is dead (R258, R261). -/
def step (s : State) : Host.Outcome State Fault Refusal :=
  match s.calls with
  | [] =>
    match s.fault with
    | none => .next s
    | some c => .fault (.aborted c)
  | _ :: _ =>
    match decode s.calls with
    | .ok (i, rest) => exec i { s with calls := rest }
    | .error e => .refused (.undecodable e)

/-- The call a table word begins, its operands zeros, placed where `step` takes its next call (log 1, log 2). -/
def State.withFetchWord (s : State) (nbits w : Nat) : State := { s with calls := tableCall nbits w ++ s.calls }

end Sys2Proof.Machine
end

