-- ==== Sys2Proof/Machine/Trace.lean ====
section
/-! DEFINITION. Reading a pin trace (40_bus_engine R121): the nibble stream, one frame at every falling edge of E. -/

namespace Sys2Proof.Machine

/-- A frame `(s, w, n)` as the latches it stands on: `n` is pin D3 down to D0, or on a read the four values of the most recent
samples (R121). -/
structure Frame where
  s : Latch
  w : Latch
  d3 : Latch
  d2 : Latch
  d1 : Latch
  d0 : Latch
  deriving DecidableEq, Repr

/-- The frame on the latches `p`, with `seen` the most recent samples of the data pins. -/
def frameOf (p seen : Pins) : Frame :=
  let n := if p.rw = .held rwReadLevel then seen else p
  { s := p.rs, w := p.rw, d3 := n.d3, d2 := n.d2, d1 := n.d1, d0 := n.d0 }

/-- The frames of a trace, walked from the latches `p` and the most recent samples `seen`. -/
def framesFrom (p seen : Pins) : List Event → List Frame
  | [] => []
  | .drive r v :: rest =>
    if fallingEnable r v p then frameOf p seen :: framesFrom (p.set r v) seen rest
    else framesFrom (p.set r v) seen rest
  | .sample r v :: rest => framesFrom p (seen.set r v) rest
  | .setMode _ _ :: rest | .configDrive _ _ _ :: rest | .enableDomain _ :: rest | .wait _ :: rest | .abort _ :: rest =>
    framesFrom p seen rest

/-- One more event in front of a trace whose adjacent waits are merged. -/
def joinWait (e : Event) (es : List Event) : List Event :=
  match e, es with
  | .wait a, .wait b :: rest => .wait (a + b) :: rest
  | e, es => e :: es

/-- A pin trace with every two adjacent waits merged: "two adjacent events `Wait(a) Wait(b)` are equivalent to one `Wait(a+b)`"
(00_scope R11). Two pin traces are equivalent at level L2 when this makes them equal. -/
def mergeWaits (es : List Event) : List Event := es.foldr joinWait []

/-- A frame of known levels. -/
def frame (s w : Level) (n : Nibble) : Frame :=
  { s := .held s, w := .held w, d3 := .held (nibbleBit n 3), d2 := .held (nibbleBit n 2),
    d1 := .held (nibbleBit n 1), d0 := .held (nibbleBit n 0) }

/-- The frames one transfer contributes: one for a nibble, two for a byte, high nibble first (R121). -/
def transferFrames (t : Transfer) : List Frame :=
  let s := levelFor rsDataLevel t.reg.isData
  let w := levelFor rwReadLevel t.isRead
  match t.value with
  | .nibble n => [frame s w n]
  | .byte b => [frame s w (highNibble b), frame s w (lowNibble b)]

end Sys2Proof.Machine
end

