-- ==== Sys2Proof/Safety.lean ====
section
/-! DEFINITION. The terms claims are stated in: when an operation may run, the events the spec lists for each operation, what an
operation keeps, the invariant of the machine, and what counts as a safe step. -/

namespace Sys2Proof.Machine

/-! ## When an operation may run -/

/-- A host that reaches below the facade may call an internal operation: no abort (R258), `Ready` (R225), a configuration R7
admits. -/
structure Able (s : State) : Prop where
  alive : s.fault = none
  ready : s.life = .ready
  config : configWf s.cfg = true

/-- `Able`, and no transaction is open. -/
structure AbleIdle (s : State) : Prop extends Able s where
  idle : s.phase = .idle

/-- The lifecycle table (R225), a row per instruction; the instructions of the wire formats and the text forms are internal
(files 40 to 44). `PoweredOn` has no column: no host observes it (R215). -/
def allowed : Instr → Life → Bool
  | .init, l => l = .uninitialized
  | .enable, l => l = .pinsConfigured
  | .setBacklight _, l => l != .uninitialized
  | .displayWrite _, l | .displayAppend _, l | .addCustomGlyph _ _, l | .setCursor _ _, l | .toggleFeatures _ _ _, l
  | .reset, l => l = .ready
  | .clear, l | .home, l | .entryMode _ _, l | .displayControl _ _ _, l | .shift _ _ _, l | .functionSet _ _ _ _, l
  | .setCgramAddr _, l | .setDdramAddr _, l | .jumpLine2, l
  | .nibWrCmd _, l | .nibWrData _, l | .nibRdCmd _, l | .nibRdData _, l
  | .txtNewline, l | .txtGlyph _, l | .txtDropTab, l | .txtDropVt, l | .txtDropFf, l | .txtDropCr, l | .txtSpace, l
  | .txtEscapeFailed, l | .txtVerbatim _, l
  | .beginTransaction _ _, l | .continueTransaction _, l | .endTransaction, l | .driveNibble _, l | .sampleNibble, l
  | .busWriteBytes _ _, l | .busReadBytes _ _, l | .busWriteNibble _ _ _, l
  | .configure, l | .setDataDirection _, l | .pinWrite _ _, l | .pinRead _, l
  | .encEntryMode _ _, l | .encDisplayControl _ _ _, l | .encFunctionSet _ _ _, l | .encShift _ _, l | .writeCommand _, l
  | .setAddressCounter _ _, l | .readBytes _ _ _, l | .writeBytesRaw _ _, l | .writeBytesText _ _, l
  | .readStatus, l => l = .ready

/-- The nine public operations (R100, R215). -/
def isFacade : Instr → Bool
  | .init | .enable | .displayWrite _ | .displayAppend _ | .addCustomGlyph _ _ | .setCursor _ _ | .toggleFeatures _ _ _
  | .reset | .setBacklight _ => true
  | .clear | .home | .entryMode _ _ | .displayControl _ _ _ | .shift _ _ _ | .functionSet _ _ _ _
  | .setCgramAddr _ | .setDdramAddr _ | .jumpLine2
  | .nibWrCmd _ | .nibWrData _ | .nibRdCmd _ | .nibRdData _
  | .txtNewline | .txtGlyph _ | .txtDropTab | .txtDropVt | .txtDropFf | .txtDropCr | .txtSpace | .txtEscapeFailed
  | .txtVerbatim _
  | .beginTransaction _ _ | .continueTransaction _ | .endTransaction | .driveNibble _ | .sampleNibble
  | .busWriteBytes _ _ | .busReadBytes _ _ | .busWriteNibble _ _ _
  | .configure | .setDataDirection _ | .pinWrite _ _ | .pinRead _
  | .encEntryMode _ _ | .encDisplayControl _ _ _ | .encFunctionSet _ _ _ | .encShift _ _ | .writeCommand _
  | .setAddressCounter _ _ | .readBytes _ _ _ | .writeBytesRaw _ _ | .writeBytesText _ _ | .readStatus => false

/-! ## The events the spec lists -/

/-- R141. -/
def directionEvents (m : PinMode) : List Event :=
  [.setMode .d0 m, .setMode .d1 m, .setMode .d2 m, .setMode .d3 m]

/-- R112. -/
def beginEvents (c : Config) (reg : Reg) (isRead : Bool) : List Event :=
  [.drive .rs reg.isData, .drive .rw isRead, .wait (wAs c), .drive .e true, .wait (wSetup c isRead)]

/-- R113. -/
def contEvents (c : Config) (isRead : Bool) : List Event :=
  [.drive .e false, .wait (wHold c), .wait (wCycRem c isRead), .drive .e true, .wait (wSetup c isRead)]

/-- R114. -/
def endEvents (c : Config) : List Event := [.wait (wEndSetup c), .drive .e false, .wait (wEndHold c)]

/-- R111. -/
def nibbleEvents (n : Nibble) : List Event :=
  [.drive .d0 (n.getLsbD 0), .drive .d1 (n.getLsbD 1), .drive .d2 (n.getLsbD 2), .drive .d3 (n.getLsbD 3)]

/-- R115, for the nibble the environment presents. -/
def sampleEvents (n : Nibble) : List Event :=
  [.sample .d0 (n.getLsbD 0), .sample .d1 (n.getLsbD 1), .sample .d2 (n.getLsbD 2), .sample .d3 (n.getLsbD 3)]

/-- The two nibble cycles of a byte written, the CONT between them (R116). -/
def byteWriteEvents (c : Config) (b : Byte) : List Event :=
  nibbleEvents (highNibble b) ++ contEvents c false ++ nibbleEvents (lowNibble b)

/-- The two nibble cycles of a byte read (R117). -/
def byteReadEvents (c : Config) (b : Byte) : List Event :=
  sampleEvents (highNibble b) ++ contEvents c true ++ sampleEvents (lowNibble b)

/-- The bytes of a write, a CONT between each two (R116). -/
def bytesWriteEvents (c : Config) (bytes : List Byte) : List Event :=
  List.intercalate (contEvents c false) (bytes.map (byteWriteEvents c))

/-- The bytes of a read, a CONT between each two (R117). -/
def bytesReadEvents (c : Config) (bytes : List Byte) : List Event :=
  List.intercalate (contEvents c true) (bytes.map (byteReadEvents c))

/-- BUS_WRITE_BYTES from `Idle` (R116). -/
def writeEvents (c : Config) (reg : Reg) (bytes : List Byte) : List Event :=
  if bytes = [] then []
  else directionEvents .output ++ beginEvents c reg false ++ bytesWriteEvents c bytes ++ endEvents c

/-- BUS_WRITE_BYTES joining an open transaction (R119). -/
def joinEvents (c : Config) (bytes : List Byte) : List Event :=
  contEvents c false ++ bytesWriteEvents c bytes ++ endEvents c

/-- BUS_READ_BYTES, for the bytes the environment presents (R117). -/
def readEvents (c : Config) (reg : Reg) (bytes : List Byte) : List Event :=
  if bytes = [] then []
  else directionEvents .input ++ beginEvents c reg true ++ bytesReadEvents c bytes ++ endEvents c

/-- BUS_WRITE_NIBBLE without its END (R118). -/
def nibbleWriteEvents (c : Config) (reg : Reg) (n : Nibble) : List Event :=
  directionEvents .output ++ beginEvents c reg false ++ nibbleEvents n

/-- One role of CONFIGURE (R140), with the clock domains enabled before it. -/
def roleEvents (c : Config) (domains : List Nat) (r : PinRole) (d : PinDescriptor) : List Event :=
  (if d.clockDomain ∈ domains then [] else [.enableDomain d.clockDomain]) ++
    [.setMode r .output, .configDrive r c.driveStrength c.slewControl]

/-- The set of clock domains after one more is enabled (R140, R27). -/
def withDomain (domains : List Nat) (d : Nat) : List Nat := if d ∈ domains then domains else domains ++ [d]

/-- The loop of CONFIGURE over roles with their descriptors (R140): its events, and the domains after it. -/
def rolesEvents (c : Config) : List Nat → List (PinRole × PinDescriptor) → List Event
  | _, [] => []
  | domains, (r, d) :: rest => roleEvents c domains r d ++ rolesEvents c (withDomain domains d.clockDomain) rest

def rolesDomains : List Nat → List (PinRole × PinDescriptor) → List Nat
  | domains, [] => domains
  | domains, (_, d) :: rest => rolesDomains (withDomain domains d.clockDomain) rest

/-- The roles of a list that have a descriptor, with it. -/
def describedRoles (c : Config) (roles : List PinRole) : List (PinRole × PinDescriptor) :=
  roles.filterMap fun r => (pinOf c r).map fun d => (r, d)

/-- The bytes of the one-time configuration write, bit by bit (R217, R85, R86, R88). -/
def configurationBytes (c : Config) : List Byte :=
  [0b0010#4 ++ BitVec.ofBool c.initTwoLine ++ BitVec.ofBool c.initFont5x10 ++ 0b00#2,
   0b00001#5 ++ BitVec.ofBool c.initDisplayOn ++ BitVec.ofBool c.initCursorOn ++ BitVec.ofBool c.initBlink,
   0x01,
   0b000001#6 ++ BitVec.ofBool c.initCursorRight ++ BitVec.ofBool c.initShiftOnWrite]

/-- ENABLE (R217, P3): the warm-up, three wakes with the two waits between them, and the configuration write that joins. -/
def enableEvents (c : Config) : List Event :=
  [.wait (wPowerOn c)] ++ nibbleWriteEvents c .command c.wakeNibble ++ endEvents c ++
  [.wait (wWake1 c)] ++ nibbleWriteEvents c .command c.wakeNibble ++ endEvents c ++
  [.wait (wWake2 c)] ++ nibbleWriteEvents c .command c.wakeNibble ++ joinEvents c (configurationBytes c)

/-! ## What an operation leaves as it was -/

/-- What no bus operation touches. -/
structure Kept (s t : State) : Prop where
  cfg : t.cfg = s.cfg
  life : t.life = s.life
  fault : t.fault = s.fault
  domains : t.domains = s.domains
  backlight : t.pin.bl = s.pin.bl
  calls : t.calls = s.calls

/-- The latches after a write whose last nibble is `n` (R116, R118). -/
def latchesAfterWrite (p : Pins) (reg : Reg) (e : Level) (n : Nibble) : Pins :=
  { p with
    rs := .held reg.isData, rw := .held false, e := .held e
    d0 := .held (n.getLsbD 0), d1 := .held (n.getLsbD 1), d2 := .held (n.getLsbD 2), d3 := .held (n.getLsbD 3) }

/-- Everything a write from `Idle` of these bytes does on the block's side (R116): its events, its transfers, the state it
leaves; nothing at all for no bytes. -/
structure Wrote (s t : State) (reg : Reg) (bytes : List Byte) : Prop where
  kept : Kept s t
  trace : t.trace = s.trace ++ writeEvents s.cfg reg bytes
  delivered : t.delivered = s.delivered ++ bytes.map fun b => ⟨reg, false, .byte b⟩
  phase : t.phase = .idle
  wire : t.wire = s.wire
  none : bytes = [] → t.pin = s.pin ∧ t.dir = s.dir ∧ t.peer = s.peer
  last : ∀ b, bytes.getLast? = some b →
    t.dir = .output ∧ t.pin = latchesAfterWrite s.pin reg false (lowNibble b)
  lone : t.lone = (s.lone && bytes.isEmpty)

/-- Everything a read from `Idle` that samples these bytes does on the block's side (R117). -/
structure Read (s t : State) (reg : Reg) (bytes : List Byte) : Prop where
  kept : Kept s t
  trace : t.trace = s.trace ++ readEvents s.cfg reg bytes
  delivered : t.delivered = s.delivered ++ bytes.map fun b => ⟨reg, true, .byte b⟩
  phase : t.phase = .idle
  wire : t.wire = s.wire.drop (8 * bytes.length)
  none : bytes = [] → t.pin = s.pin ∧ t.dir = s.dir ∧ t.peer = s.peer
  some : bytes ≠ [] →
    t.dir = .input ∧ t.pin = { s.pin with rs := .held reg.isData, rw := .held true, e := .held false }
  lone : t.lone = (s.lone && bytes.isEmpty)

/-- The levels a peer presents for a byte, in the order they are sampled (R115, R117). -/
def byteLevels (b : Byte) : List Level :=
  [b.getLsbD 4, b.getLsbD 5, b.getLsbD 6, b.getLsbD 7, b.getLsbD 0, b.getLsbD 1, b.getLsbD 2, b.getLsbD 3]

/-- The transfers of a list of items: each item one byte written (R203, L1). -/
def itemTransfers (items : List Item) : List Transfer := items.map fun i => ⟨i.1, false, .byte i.2⟩

/-- The events of a list of items: one transaction per maximal run (R203). -/
def itemEvents (c : Config) (items : List Item) : List Event :=
  (runsOf items).flatMap fun run => writeEvents c run.1 run.2

/-- Everything the emission of these items does on the block's side (R203). -/
structure Emitted (s t : State) (items : List Item) : Prop where
  kept : Kept s t
  trace : t.trace = s.trace ++ itemEvents s.cfg items
  delivered : t.delivered = s.delivered ++ itemTransfers items
  phase : t.phase = .idle
  wire : t.wire = s.wire
  none : items = [] → t.pin = s.pin ∧ t.dir = s.dir ∧ t.peer = s.peer
  last : ∀ i, items.getLast? = some i →
    t.dir = .output ∧ t.pin = latchesAfterWrite s.pin i.1 false (lowNibble i.2)
  lone : t.lone = (s.lone && items.isEmpty)

/-- The state an abort leaves (R258): one event, the fault latch, nothing else. -/
def aborted (c : Cause) (s : State) : State := { s with trace := s.trace ++ [.abort c], fault := some c }

/-- Whether a latch holds the high level. -/
def Latch.isHigh : Latch → Bool
  | .noValue => false
  | .held v => v

/-- The levels on the data wires of a frame, pin D0 first. -/
def frameLevels (f : Frame) : List Level := [f.d0, f.d1, f.d2, f.d3].map Latch.isHigh

/-! ## The invariant -/

/-- A latch that has been written. -/
def Latch.isHeld : Latch → Bool
  | .noValue => false
  | .held _ => true

/-- The seven bus latches. -/
def busLatches (p : Pins) : List Latch := [p.rs, p.rw, p.e, p.d0, p.d1, p.d2, p.d3]

/-- What holds of the machine between two calls. -/
structure StateInv (s : State) : Prop where
  /-- No host observes `PoweredOn` between operations (R215). -/
  lifecycle : s.life ≠ .poweredOn
  /-- Before `Ready` no transaction is open and no bus latch has a value (R33, R225). -/
  before : s.life ≠ .ready →
    s.phase = .idle ∧ (busLatches s.pin).all (fun l => l = .noValue) ∧ s.peer.sync = .waking 0
  /-- From `Ready` on every bus latch has a value, the direction too, and the peer is past the ritual (R285). -/
  after : s.life = .ready →
    (busLatches s.pin).all Latch.isHeld ∧ s.dir ≠ .noValue ∧
      (∀ k, s.peer.sync ≠ .waking k) ∧ ∀ n, s.peer.sync ≠ .settling n
  /-- `dir` has no value until INIT, and is `Input` from there to ENABLE (R33). -/
  uninitialized : s.life = .uninitialized → s.dir = .noValue
  configured : s.life = .pinsConfigured → s.dir = .input
  /-- A lone nibble still to be delivered stands in an open write, E high (R118). -/
  loneNibble : s.lone = true → s.pin.e = .held true ∧ s.dir = .output ∧ ∃ reg, s.phase = .active reg false
  /-- "`phase = Idle` at every abort" (R258). -/
  abortIdle : s.fault ≠ none → s.phase = .idle
  /-- The backlight latch exists only when the backlight is used (R21). -/
  backlight : s.cfg.useBacklight = false → s.pin.bl = .noValue
  /-- `domains` is a set (R27). -/
  domains : s.domains.Nodup
  /-- Each RAM of the peer keeps its canonical form. -/
  ddram : memWf ddramSize s.peer.ddram = true
  cgram : memWf cgramSize s.peer.cgram = true

/-- `pin[E]` is asserted exactly when a transaction is open (R24, R120(a)). -/
def EnableFollowsPhase (s : State) : Prop := s.pin.e = .held true ↔ s.phase ≠ .idle

/-- A safe step: the call has a meaning and raises no precondition violation. -/
def SafeStep (s : State) : Prop := ∃ t, step s = .next t ∧ t.fault = none

/-! ## What a trace says apart from the environment's answers (R123) -/

/-- An event without the level a sample returned. -/
def Event.shape : Event → Event
  | .sample r _ => .sample r false
  | .setMode r m => .setMode r m
  | .drive r v => .drive r v
  | .configDrive r a b => .configDrive r a b
  | .enableDomain c => .enableDomain c
  | .wait d => .wait d
  | .abort c => .abort c

/-- A transfer without the value a read delivered. -/
def Transfer.shape (t : Transfer) : Transfer :=
  if t.isRead then
    { t with value := match t.value with
        | .nibble _ => .nibble 0
        | .byte _ => .byte 0 }
  else t

/-- What is handed back without its values: its kind, and how many bytes. -/
def Returned.shape : Returned → Returned
  | .nothing => .nothing
  | .level _ => .level false
  | .nibble _ => .nibble 0
  | .byte _ => .byte 0
  | .bytes bs => .bytes (bs.map fun _ => 0)

/-- Two states of the block whose environments may differ, and with them only the levels that samples returned, the values that
reads delivered and those handed back: everything else but the wires, the draws and the peer is the same (R123, R57). -/
structure SameBlock (s t : State) : Prop where
  trace : t.trace.map Event.shape = s.trace.map Event.shape
  delivered : t.delivered.map Transfer.shape = s.delivered.map Transfer.shape
  pin : t.pin = s.pin
  dir : t.dir = s.dir
  phase : t.phase = s.phase
  life : t.life = s.life
  fault : t.fault = s.fault
  domains : t.domains = s.domains
  cfg : t.cfg = s.cfg
  calls : t.calls = s.calls
  lone : t.lone = s.lone
  result : t.result.shape = s.result.shape

end Sys2Proof.Machine
end

