-- ==== Sys2Proof/Certificates/Slice0/Obligations.lean ====
section
/-! DEFINITION. The statements for the provers. Each docstring names the rules of spec/ a statement formalises. Where a
statement says `p` or `n` exists for the fields `peer` and `draws`, it says nothing about the peer; what the peer does has
statements of its own. `result` is how the model keeps an operation's return (log 5). -/

open Sys2Proof Sys2Proof.Machine

/-! ## Encodings -/

/-- The decoder reads back every well-formed call the encoder writes, whatever follows it: no operand bit is dropped. The
words are the spec's (R81, R93, R96, R100), the call form is the model's (log 1). -/
def Obligations.DecodeInvertsEncode : Prop :=
  ∀ (i : Instr) (rest : List Byte), i.wf = true → decode (encode i ++ rest) = .ok (i, rest)

/-- Command bytes and their fields are two spellings of one thing, 0x00 and 0x03 are the only bytes without (R82, R92), and
what the four builders make is read back as its category and flags (R164(c)). -/
def Obligations.CommandByteRoundTrip : Prop :=
  (∀ cmd : Command, decodeCommand cmd.toByte = some cmd) ∧
  (∀ (c : Byte) (cmd : Command), decodeCommand c = some cmd → cmd.toByte = c) ∧
  (∀ c : Byte, decodeCommand c = none ↔ c = 0x00 ∨ c = 0x03) ∧
  ∀ a b c : Bool,
    decodeCommand (encodeEntryMode a b) = some (.entryMode a b) ∧
    decodeCommand (encodeDisplayControl a b c) = some (.displayControl a b c) ∧
    decodeCommand (encodeFunctionSet a b c) = some (.functionSet a b c 0) ∧
    decodeCommand (encodeShift a b) = some (.shift a b 0)

/-- The match and mask of every category (R82), with the fields of R85 to R90, and the alias of R91. The spec marks the
match and mask as its own derivation from R81. -/
def Obligations.CommandCategories : Prop :=
  ∀ c : Byte,
    (c &&& 0x80 = 0x80 → decodeCommand c = some (.setDdramAddr (c.setWidth 7))) ∧
    (c &&& 0xC0 = 0x40 → decodeCommand c = some (.setCgramAddr (c.setWidth 6))) ∧
    (c &&& 0xE0 = 0x20 →
      decodeCommand c = some (.functionSet (c.getLsbD 4) (c.getLsbD 3) (c.getLsbD 2) (c.setWidth 2))) ∧
    (c &&& 0xF0 = 0x10 → decodeCommand c = some (.shift (c.getLsbD 3) (c.getLsbD 2) (c.setWidth 2))) ∧
    (c &&& 0xF8 = 0x08 → decodeCommand c = some (.displayControl (c.getLsbD 2) (c.getLsbD 1) (c.getLsbD 0))) ∧
    (c &&& 0xFC = 0x04 → decodeCommand c = some (.entryMode (c.getLsbD 1) (c.getLsbD 0))) ∧
    (c &&& 0xFF = 0x02 → decodeCommand c = some .home) ∧
    (c &&& 0xFF = 0x01 → decodeCommand c = some .clear) ∧
    (c &&& 0xFF = 0xC0 → decodeCommand c = some (.setDdramAddr 0x40)) ∧
    (c = 0x00 ∨ c = 0x03 → decodeCommand c = none)

/-- Calls written out from the spec's words, one or more per family: the CMD8 byte of R81, the BUS4 frame of R93, the text
form of R96, the select code of R100. -/
def Obligations.SpecWordsDecode : Prop :=
  decode [0x40, 0b00000001] = .ok (.clear, []) ∧
  decode [0x40, 0b00000110] = .ok (.entryMode true false, []) ∧
  decode [0x40, 0b00001100] = .ok (.displayControl true false false, []) ∧
  decode [0x40, 0b00101000] = .ok (.functionSet false true false 0, []) ∧
  decode [0x40, 0b11000011] = .ok (.setDdramAddr 0x43, []) ∧
  decode [0b10100101] = .ok (.nibWrData 0x5, []) ∧
  decode [0b10010101] = .ok (.nibRdCmd 0x5, []) ∧
  decode [0xC2, 0x60, 0x32] = .ok (.txtGlyph 2, []) ∧
  decode [0xC1, 0x41] = .ok (.txtVerbatim 0x41, []) ∧
  decode [0b000000, 0b01] = .ok (.beginTransaction true false, []) ∧
  decode [0b011000, 0x43, 1] = .ok (.setAddressCounter 0x43 true, []) ∧
  decode [0b100101, 3, 0, 1, 0] = .ok (.setCursor 3 1, []) ∧
  decode [0x40, 0x03] = .error (.unlistedCommand 0x03) ∧
  decode [0b001100] = .error (.unassignedSelectCode 0b001100)

/-! ## Steps, reset, stops -/

/-- A step takes the next call off `calls` and is exactly the meaning of the instruction decoded from it. -/
def Obligations.StepRunsTheDecodedCall : Prop :=
  ∀ (s : State) (i : Instr) (rest : List Byte), decode s.calls = .ok (i, rest) →
    step s = exec i { s with calls := rest }

/-- The stops that are the model's own choice: nothing happens while the host calls nothing, the fault of a dead block, a
refusal by name for bytes that are no call (log 1, log 16). -/
def Obligations.StopsTheModelChooses : Prop :=
  (∀ s : State, s.calls = [] → s.fault = none → step s = .next s) ∧
  (∀ (s : State) (c : Cause), s.calls = [] → s.fault = some c → step s = .fault (.aborted c)) ∧
  (∀ (s : State) (e : DecodeError), s.calls ≠ [] → decode s.calls = .error e → step s = .refused (.undecodable e))

/-- The block after reset (R33, R281). That no cell of the peer's RAMs is known then is how the model keeps what R33 calls
unspecified (logs 7 and 10); "no value" is the spec's decision D16. -/
def Obligations.ResetLeavesTheBlock : Prop :=
  State.reset.life = .uninitialized ∧ State.reset.phase = .idle ∧ State.reset.fault = none ∧
  State.reset.domains = [] ∧ State.reset.dir = .noValue ∧
  (∀ r : PinRole, State.reset.pin.get r = .noValue) ∧
  State.reset.cfg = Config.supplied ∧
  ∀ a, memRead State.reset.peer.ddram a = none ∧ memRead State.reset.peer.cgram a = none

/-- After an abort no operation has a step, whatever it is; only reset clears the latch (R258, R259). -/
def Obligations.AbortedBlockRefusesEverything : Prop :=
  (∀ (i : Instr) (s : State) (c : Cause), s.fault = some c → exec i s = .refused (.aborted c)) ∧
  (∀ (i : Instr) (s t : State), exec i s = .next t → s.fault = none) ∧
  State.reset.fault = none

/-- The lifecycle table (R225): a call the table does not allow is refused, whatever its operands; every facade operation
needs `phase = Idle` and re-establishes it; and `life` moves only forwards, by INIT and ENABLE (R215). -/
def Obligations.LifecycleTableDecides : Prop :=
  (∀ (i : Instr) (s : State), s.fault = none → allowed i s.life = false →
    exec i s = .refused (.wrongLifecycle s.life)) ∧
  (∀ (i : Instr) (s t : State), exec i s = .next t → allowed i s.life = true ∧
    (isFacade i = true → s.phase = .idle ∧ t.phase = .idle) ∧
    (t.life = s.life ∨
      (i = .init ∧ s.life = .uninitialized ∧ t.life = .pinsConfigured) ∨
      (i = .enable ∧ s.life = .pinsConfigured ∧ t.life = .ready)))

/-- What R7 admits, condition by condition, and that any other configuration is refused. R7(e) is over the configured roles
(log 25). -/
def Obligations.ConfigurationWellFormedness : Prop :=
  (∀ c : Config, configWf c = true ↔
    1 ≤ c.scale ∧ c.tRise ≤ c.scale * c.tAs ∧
    c.scale * c.tWake2 < c.scale * c.tWake1 ∧ 0 < c.scale * c.tWake2 ∧
    (c.scale * c.tAs - c.tRise < c.timerModulus ∧ c.scale * c.tDdr < c.timerModulus ∧
      c.scale * c.tDsw < c.timerModulus ∧ c.scale * c.tH < c.timerModulus ∧
      c.cycRemRead < c.timerModulus ∧ c.cycRemWrite < c.timerModulus ∧
      c.scale * c.tH + c.tFall < c.timerModulus ∧ c.scale * c.tPowerOn < c.timerModulus ∧
      c.scale * c.tWake1 < c.timerModulus ∧ c.scale * c.tWake2 < c.timerModulus) ∧
    (∀ r ∈ configuredRoles c, (pinOf c r).isSome) ∧
    ((configuredRoles c).map (comboOf c)).Nodup) ∧
  (∀ (i : Instr) (s : State), s.fault = none → allowed i s.life = true → configWf s.cfg = false →
    exec i s = .refused .illFormedConfiguration)

/-! ## The Bus Transaction Engine -/

/-- BEGIN (R112): its five events, its three latches, the phase, no lone nibble pending (log 26), nothing else; refused with a
transaction open. Levels, order and guard are the spec's decisions D1, D3, D6 (logs 15, 19). -/
def Obligations.BeginOpensATransaction : Prop :=
  ∀ (t r : Bool) (s : State),
    (AbleIdle s → exec (.beginTransaction t r) s = .next { s with
      pin := { s.pin with rs := .held t, rw := .held r, e := .held true }
      phase := .active (if t then .data else .command) r
      lone := false
      trace := s.trace ++ [.drive .rs t, .drive .rw r, .wait (s.cfg.scale * s.cfg.tAs - s.cfg.tRise), .drive .e true,
        .wait (if r then s.cfg.scale * s.cfg.tDdr else s.cfg.scale * s.cfg.tDsw)]
      result := .nothing }) ∧
    (Able s → s.phase ≠ .idle → exec (.beginTransaction t r) s = .refused (.wrongPhase s.phase))

/-- CONT (R113): five events, E dropped and raised, and a lone nibble whose frame was still to come is delivered (log 26);
refused in `Idle` and for the other direction, by the spec's decision D6. -/
def Obligations.ContSeparatesNibbleCycles : Prop :=
  ∀ (r : Bool) (s : State), Able s →
    (∀ reg, s.phase = .active reg r → ∃ p n, exec (.continueTransaction r) s = .next { s with
      pin := { s.pin with e := .held true }
      trace := s.trace ++ [.drive .e false, .wait (s.cfg.scale * s.cfg.tH),
        .wait (if r then s.cfg.cycRemRead else s.cfg.cycRemWrite), .drive .e true,
        .wait (if r then s.cfg.scale * s.cfg.tDdr else s.cfg.scale * s.cfg.tDsw)]
      delivered := s.delivered ++ owedTransfers s, lone := false
      result := .nothing, peer := p, draws := n }) ∧
    ((∀ reg, s.phase ≠ .active reg r) → exec (.continueTransaction r) s = .refused (.wrongPhase s.phase))

/-- END (R114): three events, E dropped, `Idle`, and a lone nibble whose frame was still to come is delivered (log 26); the
other latches and `dir` stay; refused in `Idle`, by the spec's decision D6. -/
def Obligations.EndClosesTheTransaction : Prop :=
  ∀ s : State, Able s →
    (s.phase ≠ .idle → ∃ p n, exec .endTransaction s = .next { s with
      pin := { s.pin with e := .held false }
      phase := .idle
      trace := s.trace ++ [.wait (s.cfg.scale * s.cfg.tDsw), .drive .e false,
        .wait (s.cfg.scale * s.cfg.tH + s.cfg.tFall)]
      delivered := s.delivered ++ owedTransfers s, lone := false
      result := .nothing, peer := p, draws := n }) ∧
    (s.phase = .idle → exec .endTransaction s = .refused (.wrongPhase .idle))

/-- DRIVE_NIBBLE (R111): bit k on pin Dk, four events in ascending order, whether a level changes or not; refused without an
open write or with the pins not outputs (the spec's decisions D3, D6; log 19). -/
def Obligations.DriveNibbleSetsTheDataPins : Prop :=
  ∀ (v : Nibble) (s : State), Able s →
    (∀ reg, s.phase = .active reg false → s.dir = .output → exec (.driveNibble v) s = .next { s with
      pin := { s.pin with
        d0 := .held (v.getLsbD 0), d1 := .held (v.getLsbD 1), d2 := .held (v.getLsbD 2), d3 := .held (v.getLsbD 3) }
      trace := s.trace ++ [.drive .d0 (v.getLsbD 0), .drive .d1 (v.getLsbD 1), .drive .d2 (v.getLsbD 2),
        .drive .d3 (v.getLsbD 3)]
      result := .nothing }) ∧
    ((∀ reg, s.phase ≠ .active reg false) → exec (.driveNibble v) s = .refused (.wrongPhase s.phase)) ∧
    (∀ reg, s.phase = .active reg false → s.dir ≠ .output →
      exec (.driveNibble v) s = .refused (.wrongDirection s.dir))

/-- SAMPLE_NIBBLE (R115): the environment's four levels in ascending pin order, bit k from pin Dk, nothing written; if the
environment has put a nibble on the wires, it is that nibble; refused without an open read or with the pins not inputs (the
spec's decisions D3, D6; log 6). -/
def Obligations.SampleNibbleReadsTheWires : Prop :=
  ∀ s : State, Able s →
    (∀ reg, s.phase = .active reg true → s.dir = .input → ∃ v : Nibble,
      exec .sampleNibble s = .next { s with
        result := .nibble v
        trace := s.trace ++ [.sample .d0 (v.getLsbD 0), .sample .d1 (v.getLsbD 1), .sample .d2 (v.getLsbD 2),
          .sample .d3 (v.getLsbD 3)]
        wire := s.wire.drop 4, draws := s.draws + 4 } ∧
      ∀ (u : Nibble) (rest : List Level),
        s.wire = [u.getLsbD 0, u.getLsbD 1, u.getLsbD 2, u.getLsbD 3] ++ rest → v = u) ∧
    ((∀ reg, s.phase ≠ .active reg true) → exec .sampleNibble s = .refused (.wrongPhase s.phase)) ∧
    (∀ reg, s.phase = .active reg true → s.dir ≠ .input → exec .sampleNibble s = .refused (.wrongDirection s.dir))

/-- BUS_WRITE_BYTES (R116, R119). From `Idle`: the whole event list, `18*count + 7` events, the latches, direction and phase
it leaves, the transfers. Joining an open write to the same register: no direction switch, no BEGIN, `18*count + 3` events;
refused for another register, for an open read, and with the pins not outputs. For no bytes nothing happens in any phase. A
lone nibble that the open write holds is delivered before the bytes (R118, log 26). Joining, and no event for no bytes, are
the spec's decisions D7 to D9. -/
def Obligations.BusWriteSendsTheBytes : Prop :=
  ∀ (reg : Reg) (bytes : List Byte) (s : State), Able s →
    (bytes = [] → exec (.busWriteBytes reg bytes) s = .next { s with result := .nothing }) ∧
    (s.phase = .idle → ∃ t, exec (.busWriteBytes reg bytes) s = .next t ∧ Wrote s t reg bytes ∧ t.result = .nothing ∧
      (bytes ≠ [] → t.trace.length = s.trace.length + (18 * bytes.length + 7))) ∧
    (∀ b, bytes.getLast? = some b → s.phase = .active reg false → s.dir = .output →
      ∃ p n, exec (.busWriteBytes reg bytes) s = .next { s with
        pin := { s.pin with
          e := .held false
          d0 := .held ((lowNibble b).getLsbD 0), d1 := .held ((lowNibble b).getLsbD 1)
          d2 := .held ((lowNibble b).getLsbD 2), d3 := .held ((lowNibble b).getLsbD 3) }
        phase := .idle
        trace := s.trace ++ joinEvents s.cfg bytes
        delivered := s.delivered ++ owedTransfers s ++ bytes.map fun b => ⟨reg, false, .byte b⟩
        lone := false
        result := .nothing, peer := p, draws := n } ∧
      (joinEvents s.cfg bytes).length = 18 * bytes.length + 3) ∧
    (∀ reg' d, bytes ≠ [] → s.phase = .active reg' d → reg' ≠ reg ∨ d = true →
      exec (.busWriteBytes reg bytes) s = .refused (.wrongPhase s.phase)) ∧
    (bytes ≠ [] → s.phase = .active reg false → s.dir ≠ .output →
      exec (.busWriteBytes reg bytes) s = .refused (.wrongDirection s.dir))

/-- BUS_READ_BYTES (R117): `count` bytes, the whole event list, the latches, direction and phase it leaves; what the
environment presents is what is returned; refused with a transaction open (the spec's decisions D7 to D9; log 6). -/
def Obligations.BusReadReturnsTheSampledBytes : Prop :=
  ∀ (reg : Reg) (count : Nat) (s : State),
    (AbleIdle s → ∃ t bs, exec (.busReadBytes reg count) s = .next t ∧ Read s t reg bs ∧ t.result = .bytes bs ∧
      bs.length = count ∧ (count ≠ 0 → t.trace.length = s.trace.length + (18 * count + 7)) ∧
      ∀ (want : List Byte) (rest : List Level), want.length = count →
        s.wire = want.flatMap byteLevels ++ rest → bs = want) ∧
    (Able s → s.phase ≠ .idle → exec (.busReadBytes reg count) s = .refused (.wrongPhase s.phase))

/-- BUS_WRITE_NIBBLE (R118): with END 16 events, `Idle` and the nibble delivered, without it 13 events and the transaction
left open with the nibble on the pins, owed to the delivered stream until E falls (R121; when it enters the stream is the
model's reading, log 26); refused with a transaction open. The spec marks the operation's shape as its own derivation. -/
def Obligations.BusWriteNibbleDeliversALoneNibble : Prop :=
  ∀ (reg : Reg) (v : Nibble) (terminate : Bool) (s : State),
    (AbleIdle s → ∃ p n, exec (.busWriteNibble reg v terminate) s = .next { s with
      pin := latchesAfterWrite s.pin reg (!terminate) v
      dir := .output
      phase := if terminate then .idle else .active reg false
      trace := s.trace ++ nibbleWriteEvents s.cfg reg v ++ (if terminate then endEvents s.cfg else [])
      delivered := if terminate then s.delivered ++ [⟨reg, false, .nibble v⟩] else s.delivered
      lone := !terminate
      result := .nothing, peer := p, draws := n } ∧
      (nibbleWriteEvents s.cfg reg v).length = 13 ∧ (endEvents s.cfg).length = 3) ∧
    (AbleIdle s → terminate = false → ∀ t, exec (.busWriteNibble reg v terminate) s = .next t →
      owedTransfers t = [⟨reg, false, .nibble v⟩]) ∧
    (Able s → s.phase ≠ .idle → exec (.busWriteNibble reg v terminate) s = .refused (.wrongPhase s.phase))

/-- The round trip (R122): the nibbles a write puts on the pins, read off its trace by R121 and presented to a read, are
assembled to the bytes written. -/
def Obligations.WriteThenReadRoundTrip : Prop :=
  ∀ (reg reg' : Reg) (bytes : List Byte) (s u : State), AbleIdle s → AbleIdle u →
    ∃ t, exec (.busWriteBytes reg bytes) s = .next t ∧
      (u.wire = (framesFrom s.pin s.pin (t.trace.drop s.trace.length)).flatMap frameLevels →
        ∃ v, exec (.busReadBytes reg' bytes.length) u = .next v ∧ v.result = .bytes bytes)

/-! ## The wire formats -/

/-- A command byte as an instruction is the transaction that delivers it: the bytes of R83 to R91, and nothing else of the
block changes than R163 says. The reading of a CMD8 row as that transaction is the model's (log 11). -/
def Obligations.CommandRowsDeliverTheirByte : Prop :=
  ∀ s : State, AbleIdle s →
    (∃ t, exec .clear s = .next t ∧ Wrote s t .command [0b00000001]) ∧
    (∃ t, exec .home s = .next t ∧ Wrote s t .command [0b00000010]) ∧
    (∀ r sh, ∃ t, exec (.entryMode r sh) s = .next t ∧
      Wrote s t .command [0b000001#6 ++ BitVec.ofBool r ++ BitVec.ofBool sh]) ∧
    (∀ d c b, ∃ t, exec (.displayControl d c b) s = .next t ∧
      Wrote s t .command [0b00001#5 ++ BitVec.ofBool d ++ BitVec.ofBool c ++ BitVec.ofBool b]) ∧
    (∀ w m x, ∃ t, exec (.shift w m x) s = .next t ∧
      Wrote s t .command [0b0001#4 ++ BitVec.ofBool w ++ BitVec.ofBool m ++ x]) ∧
    (∀ l n f x, ∃ t, exec (.functionSet l n f x) s = .next t ∧
      Wrote s t .command [0b001#3 ++ BitVec.ofBool l ++ BitVec.ofBool n ++ BitVec.ofBool f ++ x]) ∧
    (∀ a : BitVec 6, ∃ t, exec (.setCgramAddr a) s = .next t ∧ Wrote s t .command [0b01#2 ++ a]) ∧
    (∀ a : BitVec 7, ∃ t, exec (.setDdramAddr a) s = .next t ∧ Wrote s t .command [0b1#1 ++ a]) ∧
    (∃ t, exec .jumpLine2 s = .next t ∧ Wrote s t .command [0b11000000])

/-- A write frame as an instruction is one nibble cycle of its own: RS and RW as R93 gives them, the nibble on D3 to D0
when E falls. The bracket around the frame is the model's (log 12). -/
def Obligations.WriteFramesReachThePins : Prop :=
  ∀ (v : Nibble) (s : State), AbleIdle s →
    (∃ p n, exec (.nibWrCmd v) s = .next { s with
      pin := latchesAfterWrite s.pin .command false v, dir := .output
      trace := s.trace ++ nibbleWriteEvents s.cfg .command v ++ endEvents s.cfg
      delivered := s.delivered ++ [⟨.command, false, .nibble v⟩], lone := false
      result := .nothing, peer := p, draws := n }) ∧
    (∃ p n, exec (.nibWrData v) s = .next { s with
      pin := latchesAfterWrite s.pin .data false v, dir := .output
      trace := s.trace ++ nibbleWriteEvents s.cfg .data v ++ endEvents s.cfg
      delivered := s.delivered ++ [⟨.data, false, .nibble v⟩], lone := false
      result := .nothing, peer := p, draws := n }) ∧
    framesFrom s.pin s.pin (nibbleWriteEvents s.cfg .command v ++ endEvents s.cfg) = [frame false false v] ∧
    framesFrom s.pin s.pin (nibbleWriteEvents s.cfg .data v ++ endEvents s.cfg) = [frame true false v]

/-- A read frame as an instruction: the nibble is the peer's, the block samples it and returns it (R93); the levels the
environment had put on the wires before stay there. The bracket is the model's (log 12). -/
def Obligations.ReadFramesReturnTheNibble : Prop :=
  ∀ (v : Nibble) (s : State), AbleIdle s →
    (∃ p n, exec (.nibRdCmd v) s = .next { s with
      pin := { s.pin with rs := .held false, rw := .held true, e := .held false }, dir := .input
      trace := s.trace ++ directionEvents .input ++ beginEvents s.cfg .command true ++ sampleEvents v ++ endEvents s.cfg
      delivered := s.delivered ++ [⟨.command, true, .nibble v⟩], lone := false
      result := .nibble v, peer := p, draws := n }) ∧
    (∃ p n, exec (.nibRdData v) s = .next { s with
      pin := { s.pin with rs := .held true, rw := .held true, e := .held false }, dir := .input
      trace := s.trace ++ directionEvents .input ++ beginEvents s.cfg .data true ++ sampleEvents v ++ endEvents s.cfg
      delivered := s.delivered ++ [⟨.data, true, .nibble v⟩], lone := false
      result := .nibble v, peer := p, draws := n })

/-- Nibble pairing (R56, R59): two write frames to the command register, the high nibble first, are one command byte to a peer
in 4-bit mode that is between two bytes; after the first it holds half a byte. -/
def Obligations.TwoFramesMakeOneCommandByte : Prop :=
  ∀ (c : Byte) (s : State), AbleIdle s → s.peer.sync = .paired →
    ∃ t u n, exec (.nibWrCmd (highNibble c)) s = .next t ∧
      t.peer = { s.peer with sync := .half ⟨false, false, highNibble c⟩ } ∧
      exec (.nibWrCmd (lowNibble c)) t = .next u ∧ u.peer = peerCommand n c s.peer

/-! ## The Pin Bus -/

/-- SET_DATA_DIRECTION (R141): four `SetMode` events, `dir`, nothing else; refused with a transaction open (the
spec's decisions D3, D7). -/
def Obligations.DataDirectionSwitchesAsAGroup : Prop :=
  ∀ (isInput : Bool) (s : State),
    (AbleIdle s → exec (.setDataDirection isInput) s = .next { s with
      dir := if isInput then .input else .output
      trace := s.trace ++ (if isInput then
          [.setMode .d0 .input, .setMode .d1 .input, .setMode .d2 .input, .setMode .d3 .input]
        else [.setMode .d0 .output, .setMode .d1 .output, .setMode .d2 .output, .setMode .d3 .output])
      result := .nothing }) ∧
    (Able s → s.phase ≠ .idle → exec (.setDataDirection isInput) s = .refused (.wrongPhase s.phase))

/-- PIN_WRITE and PIN_READ (R142, R143) are pass-throughs in any phase, for every role (R102): one latch and one event, or one
event and the environment's level, the next on the wires if there is one (logs 5 and 6). The only role that can have no latch is
the backlight's, on a block without a backlight (R21); its write is the event alone (log 18, the model's choice). A write that
drops E delivers a lone nibble that still stands on the pins (log 26); what it does to the peer is said by
PeerMovesOnlyWhenEnableFalls. -/
def Obligations.PinPrimitivesPassThrough : Prop :=
  ∀ (r : PinRole) (v : Level) (s : State), Able s →
    (r ∈ configuredRoles s.cfg → ∃ p n, exec (.pinWrite r v) s = .next { s with
      pin := s.pin.set r v, trace := s.trace ++ [.drive r v]
      delivered := if r = .e ∧ v = false then s.delivered ++ owedTransfers s else s.delivered
      lone := if r = .e ∧ v = false then false else s.lone
      result := .nothing, peer := p, draws := n }) ∧
    (r ∉ configuredRoles s.cfg → r = .bl ∧ s.cfg.useBacklight = false ∧
      exec (.pinWrite r v) s = .next { s with trace := s.trace ++ [.drive r v], result := .nothing }) ∧
    (∃ u, exec (.pinRead r) s = .next { s with
      trace := s.trace ++ [.sample r u], result := .level u, wire := s.wire.tail, draws := s.draws + 1 } ∧
      ∀ rest w, s.wire = w :: rest → u = w) ∧
    (s.pin.set r v).get r = .held v ∧ ∀ r', r' ≠ r → (s.pin.set r v).get r' = s.pin.get r'

/-- CONFIGURE called below the facade with no reserved pin (R140, R145): each clock domain once, output mode and drive
strength per role in walking order, `dir` output, no pin level. That a host may call it is the model's choice (log 14). -/
def Obligations.ConfigureSetsUpEveryRole : Prop :=
  ∀ s : State, AbleIdle s → (∀ r ∈ configuredRoles s.cfg, reservedPin s.cfg r = false) →
    exec .configure s = .next { s with
      dir := .output
      domains := rolesDomains s.domains (describedRoles s.cfg (configuredRoles s.cfg))
      trace := s.trace ++ rolesEvents s.cfg s.domains (describedRoles s.cfg (configuredRoles s.cfg))
      result := .nothing }

/-! ## The Command Encoder -/

/-- The four builders (R156 to R159) return their byte and change nothing. -/
def Obligations.EncodersReturnTheirByte : Prop :=
  ∀ (a b c : Bool) (s : State), Able s →
    exec (.encEntryMode a b) s = .next { s with
      result := .byte (0b000001#6 ++ BitVec.ofBool a ++ BitVec.ofBool b) } ∧
    exec (.encDisplayControl a b c) s = .next { s with
      result := .byte (0b00001#5 ++ BitVec.ofBool a ++ BitVec.ofBool b ++ BitVec.ofBool c) } ∧
    exec (.encFunctionSet a b c) s = .next { s with
      result := .byte (0b001#3 ++ BitVec.ofBool a ++ BitVec.ofBool b ++ BitVec.ofBool c ++ 0b00#2) } ∧
    exec (.encShift a b) s = .next { s with
      result := .byte (0b0001#4 ++ BitVec.ofBool a ++ BitVec.ofBool b ++ 0b00#2) }

/-- WRITE_COMMAND (R163): any byte, as a transaction of its own of 25 events (R116, by the spec's decisions D3 and D7), which
a peer in step executes once (logs 7 to 9); refused with a transaction open (decision D6). -/
def Obligations.WriteCommandSendsAnyByte : Prop :=
  ∀ (c : Byte) (s : State),
    (AbleIdle s → ∃ t, exec (.writeCommand c) s = .next t ∧ Wrote s t .command [c] ∧ t.result = .nothing ∧
      t.trace.length = s.trace.length + 25 ∧
      (s.peer.sync = .paired → ∃ n, t.peer = peerCommand n c s.peer)) ∧
    (Able s → s.phase ≠ .idle → exec (.writeCommand c) s = .refused (.wrongPhase s.phase))

/-! ## The RAM Access Layer -/

/-- SET_ADDRESS_COUNTER (R175), from `Idle`: one command byte, bit 7 set for DDRAM, bit 6 set and bit 7 clear for CGRAM, whose
operand's own bit 6 is absorbed; in a peer that is in step, the counter and its RAM, nothing else (R51); refused with a
transaction open. The events are R116's, by the spec's decisions D3 and D7; the peer is the model's (logs 7 and 8), and so is
that its counter takes a DDRAM address outside the two display lines as given (R52, U7; log 29). -/
def Obligations.SetAddressCounterSendsTheAddress : Prop :=
  ∀ (a : BitVec 7) (s : State),
    (AbleIdle s → ∃ t, exec (.setAddressCounter a true) s = .next t ∧ Wrote s t .command [0b1#1 ++ a] ∧
      t.result = .nothing ∧
      (s.peer.sync = .paired → t.peer = { s.peer with regs := { s.peer.regs with ac := a, ram := .ddram } })) ∧
    (AbleIdle s → ∃ t, exec (.setAddressCounter a false) s = .next t ∧
      Wrote s t .command [0b01#2 ++ (a.setWidth 6)] ∧ t.result = .nothing ∧
      (s.peer.sync = .paired →
        t.peer = { s.peer with regs := { s.peer.regs with ac := (a.setWidth 6).setWidth 7, ram := .cgram } })) ∧
    (∀ f, Able s → s.phase ≠ .idle → exec (.setAddressCounter a f) s = .refused (.wrongPhase s.phase))

/-- READ_BYTES (R176): the address command, then one read of `count` bytes of the data register; for no bytes the address is
still set. A peer in step ends with its counter in the chosen RAM, `count` places on from the start, up or down as its entry
mode says, short of a wrap, and with nothing stored (R54, R181; the peer is the model's, logs 7 and 9, and so is the start at a DDRAM
address outside the two display lines, log 29). Refused with a transaction open. -/
def Obligations.ReadBytesSetsTheCounterFirst : Prop :=
  ∀ (count : Nat) (a : BitVec 7) (fromDataRam : Bool) (s : State),
    (AbleIdle s → ∃ u t bs, exec (.readBytes count a fromDataRam) s = .next t ∧
      Wrote s u .command [if fromDataRam then 0b1#1 ++ a else 0b01#2 ++ (a.setWidth 6)] ∧
      Read u t .data bs ∧ t.result = .bytes bs ∧ bs.length = count ∧
      (s.peer.sync = .paired → t.peer.sync = .paired ∧ t.peer.ddram = s.peer.ddram ∧ t.peer.cgram = s.peer.cgram ∧
        t.peer.regs.ram = (if fromDataRam then .ddram else .cgram) ∧
        ∀ (start : BitVec 7) (right : Bool), start = (if fromDataRam then a else (a.setWidth 6).setWidth 7) →
          right = s.peer.regs.cursorRight →
          (∀ k, k < count → acStepStated right (if fromDataRam then .ddram else .cgram) (acMoved right start k) = true) →
          t.peer.regs.ac = if right then start + BitVec.ofNat 7 count else start - BitVec.ofNat 7 count) ∧
      ∀ (want : List Byte) (rest : List Level), want.length = count →
        s.wire = want.flatMap byteLevels ++ rest → bs = want) ∧
    (Able s → s.phase ≠ .idle → exec (.readBytes count a fromDataRam) s = .refused (.wrongPhase s.phase))

/-- READ_STATUS (R182): one byte of the command register, returned as it is; refused with a transaction open. The operation is
the spec's decision D26. -/
def Obligations.ReadStatusReadsTheCommandRegister : Prop :=
  ∀ s : State,
    (AbleIdle s → ∃ t b, exec .readStatus s = .next t ∧ Read s t .command [b] ∧ t.result = .byte b ∧
      t.trace.length = s.trace.length + 25 ∧
      ∀ (want : Byte) (rest : List Level), s.wire = byteLevels want ++ rest → b = want) ∧
    (Able s → s.phase ≠ .idle → exec .readStatus s = .refused (.wrongPhase s.phase))

/-- WRITE_BYTES (R177, R178): in raw mode the first `count` bytes verbatim to the data register, none interpreted; in text
mode the items of the first `count` bytes, one transaction per run of one register. Past the end of the buffer the bytes are
free (log 17). Refused with a transaction open. -/
def Obligations.WriteBytesTakesCountBytes : Prop :=
  ∀ (data : List Byte) (count : Nat) (s : State),
    (AbleIdle s → ∃ bs, bs.length = count ∧ bs.take data.length = data.take count ∧
      (∃ t, exec (.writeBytesRaw data count) s = .next t ∧ Wrote s t .data bs ∧ t.result = .nothing) ∧
      (∃ t, exec (.writeBytesText data count) s = .next t ∧ Emitted s t (interpret bs) ∧ t.result = .nothing)) ∧
    (Able s → s.phase ≠ .idle →
      exec (.writeBytesRaw data count) s = .refused (.wrongPhase s.phase) ∧
      exec (.writeBytesText data count) s = .refused (.wrongPhase s.phase))

/-! ## The Text Interpreter -/

/-- The scan (R196) rule by rule: newline R197, escape R198, dropped whitespace R199, space R200, verbatim R201, failed escape
R202, whatever text follows. Bytes that are no printable character go verbatim by the spec's decision D11 (log 20). -/
def Obligations.InterpreterFormByForm : Prop :=
  interpret [] = [] ∧
  ∀ rest : List Byte,
    interpret (0x0A :: rest) = (.command, 0xC0) :: interpret rest ∧
    (∀ d : BitVec 3, interpret (0x60 :: (0b00110#5 ++ d) :: rest) = (.data, d.setWidth 8) :: interpret rest) ∧
    (∀ ch ∈ [0x09#8, 0x0B#8, 0x0C#8, 0x0D#8], interpret (ch :: rest) = interpret rest) ∧
    interpret (0x20 :: rest) = (.data, 0x20) :: interpret rest ∧
    interpret [0x60] = [(.data, 0x60)] ∧
    (∀ ch : Byte, ch.extractLsb' 3 5 ≠ 0b00110 →
      interpret (0x60 :: ch :: rest) = (.data, 0x60) :: interpret (ch :: rest)) ∧
    (∀ ch : Byte, textSpecial ch = false → interpret (ch :: rest) = (.data, ch) :: interpret rest)

/-- R204 (b) to (e): no more items than source bytes, every command item 0xC0, every data item a source byte or a slot number
and none a newline or dropped whitespace, whatever stands around it. -/
def Obligations.InterpreterBounds : Prop :=
  ∀ text : List Byte,
    (interpret text).length ≤ text.length ∧
    (∀ b, (Reg.command, b) ∈ interpret text → b = 0xC0) ∧
    (∀ b, (Reg.data, b) ∈ interpret text → b ∈ text ∨ b.toNat < 8) ∧
    (∀ b, (Reg.data, b) ∈ interpret text → b ≠ 0x09 ∧ b ≠ 0x0A ∧ b ≠ 0x0B ∧ b ≠ 0x0C ∧ b ≠ 0x0D) ∧
    ((∀ ch ∈ text, ch = 0x09 ∨ ch = 0x0B ∨ ch = 0x0C ∨ ch = 0x0D) → interpret text = [])

/-- R203, by the spec's decision D10: the runs put together are the items in order, none is empty, and two neighbours have
different registers. -/
def Obligations.RunsAreMaximal : Prop :=
  ∀ items : List Item,
    (runsOf items).flatMap (fun run => run.2.map fun b => (run.1, b)) = items ∧
    (∀ run ∈ runsOf items, run.2 ≠ []) ∧
    ∀ (k : Nat) (a b : Reg × List Byte), (runsOf items)[k]? = some a → (runsOf items)[k + 1]? = some b → a.1 ≠ b.1

/-- Each text form as an instruction emits its item (R197 to R202): one transaction, or no event for dropped whitespace. The
newline brings the counter of a peer in step to the start of the second line (R162). The reading of a TXT row as an
instruction is the model's (log 13). -/
def Obligations.TextFormsEmitTheirItem : Prop :=
  ∀ s : State, AbleIdle s →
    (∃ t, exec .txtNewline s = .next t ∧ Wrote s t .command [0xC0] ∧ t.result = .nothing ∧
      (s.peer.sync = .paired → t.peer = { s.peer with regs := { s.peer.regs with ac := 0x40, ram := .ddram } })) ∧
    (∀ d : BitVec 3, ∃ t, exec (.txtGlyph d) s = .next t ∧ Wrote s t .data [d.setWidth 8] ∧ t.result = .nothing) ∧
    exec .txtDropTab s = .next { s with result := .nothing } ∧
    exec .txtDropVt s = .next { s with result := .nothing } ∧
    exec .txtDropFf s = .next { s with result := .nothing } ∧
    exec .txtDropCr s = .next { s with result := .nothing } ∧
    (∃ t, exec .txtSpace s = .next t ∧ Wrote s t .data [0x20] ∧ t.result = .nothing) ∧
    (∃ t, exec .txtEscapeFailed s = .next t ∧ Wrote s t .data [0x60] ∧ t.result = .nothing) ∧
    (∀ c : Byte, ∃ t, exec (.txtVerbatim c) s = .next t ∧ Wrote s t .data [c] ∧ t.result = .nothing)

/-! ## The Driver Facade -/

/-- INIT with no reserved pin (R216, R140, R145): CONFIGURE's events, the data pins to input, `PinsConfigured`; no pin level
is written. -/
def Obligations.InitConfiguresThePins : Prop :=
  ∀ s : State, s.fault = none → s.life = .uninitialized → configWf s.cfg = true → s.phase = .idle →
    (∀ r ∈ configuredRoles s.cfg, reservedPin s.cfg r = false) →
    exec .init s = .next { s with
      life := .pinsConfigured
      dir := .input
      domains := rolesDomains s.domains (describedRoles s.cfg (configuredRoles s.cfg))
      trace := s.trace ++ rolesEvents s.cfg s.domains (describedRoles s.cfg (configuredRoles s.cfg)) ++
        [.setMode .d0 .input, .setMode .d1 .input, .setMode .d2 .input, .setMode .d3 .input]
      result := .nothing }

/-- INIT, and CONFIGURE below the facade, with a reserved pin (R251, R140): the roles before the first reserved one are set
up, then the abort; `life`, `dir` and every latch as before (the spec's decision D13; CONFIGURE by log 14). -/
def Obligations.ReservedPinAborts : Prop :=
  ∀ (s : State) (before after : List PinRole) (r : PinRole),
    s.fault = none → configWf s.cfg = true → s.phase = .idle →
    configuredRoles s.cfg = before ++ r :: after →
    (∀ q ∈ before, reservedPin s.cfg q = false) → reservedPin s.cfg r = true →
    (s.life = .uninitialized → exec .init s = .next { s with
      domains := rolesDomains s.domains (describedRoles s.cfg before)
      trace := s.trace ++ rolesEvents s.cfg s.domains (describedRoles s.cfg before) ++ [.abort (.reservedPin r)]
      fault := some (.reservedPin r) }) ∧
    (s.life = .ready → exec .configure s = .next { s with
      domains := rolesDomains s.domains (describedRoles s.cfg before)
      trace := s.trace ++ rolesEvents s.cfg s.domains (describedRoles s.cfg before) ++ [.abort (.reservedPin r)]
      fault := some (.reservedPin r) })

/-- ENABLE (R217): the 123 events, the 11 frames, three 4-bit wake transfers and the four configuration bytes, and the state
of the block R285 lists. The third wake joins the configuration write by R119 (the spec's decision D8), the direction is set
again by D7; the latches of R285 and the frames of R121 are the spec's derivations. -/
def Obligations.EnablePerformsTheWakeRitual : Prop :=
  ∀ s : State, s.fault = none → s.life = .pinsConfigured → configWf s.cfg = true → s.phase = .idle →
    (∃ p n, exec .enable s = .next { s with
      life := .ready
      dir := .output
      pin := { s.pin with
        rs := .held false, rw := .held false, e := .held false
        d0 := .held s.cfg.initShiftOnWrite, d1 := .held s.cfg.initCursorRight, d2 := .held true, d3 := .held false }
      trace := s.trace ++ enableEvents s.cfg
      delivered := s.delivered ++ List.replicate 3 ⟨.command, false, .nibble s.cfg.wakeNibble⟩ ++
        (configurationBytes s.cfg).map fun b => ⟨.command, false, .byte b⟩
      lone := false
      result := .nothing, peer := p, draws := n }) ∧
    (enableEvents s.cfg).length = 123 ∧ 0 < wWake2 s.cfg ∧ wWake2 s.cfg < wWake1 s.cfg ∧
    framesFrom s.pin s.pin (enableEvents s.cfg) = List.replicate 3 (frame false false s.cfg.wakeNibble) ++
      (configurationBytes s.cfg).flatMap fun b => [frame false false (highNibble b), frame false false (lowNibble b)]

/-- DISPLAY_WRITE (R218): up to 32 source bytes, the clear as a transaction of its own, then the text from there; from 33 on
the abort of R252 before any bus activity, the clear included. -/
def Obligations.DisplayWriteClearsThenWrites : Prop :=
  ∀ (text : List Byte) (s : State), AbleIdle s →
    (text.length ≤ 32 → ∃ u t, exec (.displayWrite text) s = .next t ∧ Wrote s u .command [0x01] ∧
      Emitted u t (interpret text) ∧ t.result = .nothing) ∧
    (32 < text.length → exec (.displayWrite text) s = .next { s with
      trace := s.trace ++ [.abort (.textTooLong text.length)], fault := some (.textTooLong text.length) })

/-- DISPLAY_APPEND (R219): the text, with no set-address command and no clear; the same length precondition. -/
def Obligations.DisplayAppendWritesWithoutClearing : Prop :=
  ∀ (text : List Byte) (s : State), AbleIdle s →
    (text.length ≤ 32 → ∃ t, exec (.displayAppend text) s = .next t ∧ Emitted s t (interpret text) ∧ t.result = .nothing) ∧
    (32 < text.length → exec (.displayAppend text) s = .next { s with
      trace := s.trace ++ [.abort (.textTooLong text.length)], fault := some (.textTooLong text.length) })

/-- ADD_CUSTOM_GLYPH (R220, R180): for slot 0 to 7 the set-CGRAM command of `slot*8`, then the 8 pattern bytes in one
transaction, which leaves the counter of a peer in step in CGRAM (logs 7 and 8); from slot 8 on the abort of R254 and nothing
sent (R258, the spec's decision D14, log 16). The events are R116's, by the decisions D3 and D7. -/
def Obligations.AddCustomGlyphWritesItsSlot : Prop :=
  ∀ (g : Glyph) (slot : Nat) (s : State), AbleIdle s →
    (slot < 8 → ∃ u t, exec (.addCustomGlyph g slot) s = .next t ∧
      Wrote s u .command [BitVec.ofNat 8 (0x40 + slot * 8)] ∧
      Wrote u t .data [g.r0, g.r1, g.r2, g.r3, g.r4, g.r5, g.r6, g.r7] ∧ t.result = .nothing ∧
      t.trace.length = s.trace.length + 176 ∧
      (s.peer.sync = .paired → t.peer.sync = .paired ∧ t.peer.regs.ram = .cgram)) ∧
    (8 ≤ slot → exec (.addCustomGlyph g slot) s = .next { s with
      trace := s.trace ++ [.abort (.slotOutOfRange slot)], fault := some (.slotOutOfRange slot) })

/-- SET_CURSOR (R221, R179): for x in 0..15 and y in 0..1 the set-DDRAM command of `y*64 + x`, to which a peer in step moves
its counter (R51, R52; logs 7 and 8); else the abort of R253, once, and nothing sent (R258, the spec's decision D14, log 16).
The events are R116's, by the decisions D3 and D7. -/
def Obligations.SetCursorSendsTheCell : Prop :=
  ∀ (x y : Nat) (s : State), AbleIdle s →
    (x ≤ 15 → y ≤ 1 → ∃ t, exec (.setCursor x y) s = .next t ∧
      Wrote s t .command [BitVec.ofNat 8 (0x80 + (y * 64 + x))] ∧ t.result = .nothing ∧
      t.trace.length = s.trace.length + 25 ∧
      (s.peer.sync = .paired → t.peer =
        { s.peer with regs := { s.peer.regs with ac := BitVec.ofNat 7 (y * 64 + x), ram := .ddram } })) ∧
    (15 < x ∨ 1 < y → exec (.setCursor x y) s = .next { s with
      trace := s.trace ++ [.abort (.cursorOutOfRange x y)], fault := some (.cursorOutOfRange x y) })

/-- TOGGLE_FEATURES (R222) sends one display-control command of the three settings, RESET (R223) the clear command; the
block's own state is not reset. In a peer in step the one sets the three settings and nothing else, the other brings the
counter to DDRAM address 0 and leaves no DDRAM cell known (R55; logs 7 and 10). -/
def Obligations.ToggleAndResetSendOneCommand : Prop :=
  ∀ (d c b : Bool) (s : State), AbleIdle s →
    (∃ t, exec (.toggleFeatures d c b) s = .next t ∧
      Wrote s t .command [0b00001#5 ++ BitVec.ofBool d ++ BitVec.ofBool c ++ BitVec.ofBool b] ∧ t.result = .nothing ∧
      (s.peer.sync = .paired → t.peer = { s.peer with regs := { s.peer.regs with displayOn := d, cursorOn := c, blink := b } })) ∧
    (∃ t, exec .reset s = .next t ∧ Wrote s t .command [0x01] ∧ t.result = .nothing ∧
      (s.peer.sync = .paired →
        t.peer = { s.peer with ddram := [], regs := { s.peer.regs with ac := 0, ram := .ddram } }))

/-- SET_BACKLIGHT (R224): one pin write, or nothing without a configured backlight, from INIT on; no bus activity (the
spec's decision D19; log 19). -/
def Obligations.SetBacklightWritesOnePin : Prop :=
  ∀ (on : Bool) (s : State), s.fault = none → s.life ≠ .uninitialized → configWf s.cfg = true → s.phase = .idle →
    exec (.setBacklight on) s = .next (if s.cfg.useBacklight = true then
        { s with pin := { s.pin with bl := .held on }, trace := s.trace ++ [.drive .bl on], result := .nothing }
      else { s with result := .nothing })

/-! ## The peer contract. What stands in for the peer is the model's (logs 7 to 10) -/

/-- CONT and END, and a host's own pin write of E, hand the frame on the latches to the peer when E falls from its asserted
level, and only then; every other operation that is not a transfer leaves the peer as it was (R121, R56). A write frame
carries the data latches only while `dir` is Output: else they are not on the wires, and what the peer takes does not depend
on them (R21, R22; the free nibble it then takes is the model's, log 7). -/
def Obligations.PeerMovesOnlyWhenEnableFalls : Prop :=
  ∀ s t : State,
    (∀ r, exec (.continueTransaction r) s = .next t →
      t.peer = if s.pin.e = .held true then peerReceive s.draws s.dir s.pin s.peer else s.peer) ∧
    (exec .endTransaction s = .next t →
      t.peer = if s.pin.e = .held true then peerReceive s.draws s.dir s.pin s.peer else s.peer) ∧
    (∀ r v, exec (.pinWrite r v) s = .next t →
      t.peer = if r = .e ∧ v = false ∧ s.pin.e = .held true then peerReceive s.draws s.dir s.pin s.peer else s.peer) ∧
    (∀ i, i ∈ [Instr.init, .configure, .sampleNibble] ∨ (∃ a b, i = .beginTransaction a b) ∨ (∃ v, i = .driveNibble v) ∨
        (∃ b, i = .setDataDirection b) ∨ (∃ r, i = .pinRead r) ∨ (∃ b, i = .setBacklight b) →
      exec i s = .next t → t.peer = s.peer) ∧
    (∀ p : Pins, s.dir ≠ .output → p.rs = s.pin.rs → p.rw = s.pin.rw →
      peerReceive s.draws s.dir p s.peer = peerReceive s.draws s.dir s.pin s.peer)

/-- A command byte written to a peer in 4-bit mode is executed once, by the contract of R51, R55 and R58: the counter and the
RAM it points into, and every cell as before but for CLEAR, which leaves no DDRAM cell known (log 10). HOME's address is R58's
(log 22); that the counter takes a DDRAM address outside the two display lines as given is the model's choice (log 29). -/
def Obligations.PeerExecutesACommand : Prop :=
  ∀ s : State, AbleIdle s → s.peer.sync = .paired →
    (∃ t, exec .clear s = .next t ∧ t.peer.sync = .paired ∧ t.peer.regs = { s.peer.regs with ac := 0, ram := .ddram } ∧
      t.peer.ddram = [] ∧ t.peer.cgram = s.peer.cgram) ∧
    (∀ a, ∃ t, exec (.setDdramAddr a) s = .next t ∧
      t.peer = { s.peer with regs := { s.peer.regs with ac := a, ram := .ddram } }) ∧
    (∀ a : BitVec 6, ∃ t, exec (.setCgramAddr a) s = .next t ∧
      t.peer = { s.peer with regs := { s.peer.regs with ac := a.setWidth 7, ram := .cgram } }) ∧
    (∃ t, exec .jumpLine2 s = .next t ∧
      t.peer = { s.peer with regs := { s.peer.regs with ac := 0x40, ram := .ddram } }) ∧
    (∀ r sh, ∃ t, exec (.entryMode r sh) s = .next t ∧
      t.peer = { s.peer with regs := { s.peer.regs with cursorRight := r, shiftOnWrite := sh } }) ∧
    (∀ d c b, ∃ t, exec (.displayControl d c b) s = .next t ∧
      t.peer = { s.peer with regs := { s.peer.regs with displayOn := d, cursorOn := c, blink := b } }) ∧
    (∀ n f x, ∃ t, exec (.functionSet false n f x) s = .next t ∧
      t.peer = { s.peer with regs := { s.peer.regs with twoLine := n, font5x10 := f } }) ∧
    (∃ t, exec .home s = .next t ∧ t.peer = { s.peer with regs := { s.peer.regs with ac := 0, ram := .ddram } }) ∧
    (∀ m x, ∃ t ac, exec (.shift false m x) s = .next t ∧ t.peer = { s.peer with regs := { s.peer.regs with ac := ac } }) ∧
    (∀ m x, ∃ t, exec (.shift true m x) s = .next t ∧ t.peer = s.peer)

/-- A data byte written to a peer in 4-bit mode, by any one call that sends that byte and nothing else, is stored in the cell
the counter selects, when the contract says that the address is a cell, and every other byte of both RAMs reads as before; the
counter moves on by one, up where the cursor moves right and down where it does not, short of a wrap (R50, R54; log 9). A CGRAM
cell is said to keep all 8 bits (log 27). -/
def Obligations.PeerStoresADataByte : Prop :=
  ∀ (b : Byte) (i : Instr) (s : State), AbleIdle s → s.peer.sync = .paired →
    i = .txtVerbatim b ∨ i = .busWriteBytes .data [b] ∨ (i = .txtSpace ∧ b = 0x20) ∨ (i = .txtEscapeFailed ∧ b = 0x60) ∨
      (∃ d : BitVec 3, i = .txtGlyph d ∧ b = d.setWidth 8) ∨
      (∃ data count, i = .writeBytesRaw data count ∧ operandBytes data count = [b]) ∨
      (∃ data count, i = .writeBytesText data count ∧ interpret (operandBytes data count) = [(.data, b)]) ∨
      (∃ text : List Byte, i = .displayAppend text ∧ text.length ≤ 32 ∧ interpret text = [(.data, b)]) →
    ∃ t, exec i s = .next t ∧ t.peer.sync = .paired ∧
      (∀ a, selectedCell s.peer.regs = (.ddram, a) →
        t.peer.cgram = s.peer.cgram ∧
        (ddramStated s.peer.regs.ac = true →
          memRead t.peer.ddram a = some b ∧ ∀ a', a' ≠ a → memRead t.peer.ddram a' = memRead s.peer.ddram a')) ∧
      (∀ a, selectedCell s.peer.regs = (.cgram, a) →
        t.peer.ddram = s.peer.ddram ∧ memRead t.peer.cgram a = some b ∧
        ∀ a', a' ≠ a → memRead t.peer.cgram a' = memRead s.peer.cgram a') ∧
      (acStepStated s.peer.regs.cursorRight s.peer.regs.ram s.peer.regs.ac = true →
        t.peer.regs = { s.peer.regs with
          ac := if s.peer.regs.cursorRight then s.peer.regs.ac + 1 else s.peer.regs.ac - 1 })

/-- Reading stores nothing: after a read of any length every byte of both RAMs reads as before; a read of the command register
leaves the counter too, a read of the data register moves it on by one a byte, up or down as the entry mode says, short of a
wrap (R50, R54, R61, R181; log 9). -/
def Obligations.ReadsLeaveTheRams : Prop :=
  ∀ (count : Nat) (s : State), AbleIdle s → s.peer.sync = .paired →
    (∃ t, exec (.busReadBytes .command count) s = .next t ∧ t.peer = s.peer) ∧
    (∃ t, exec .readStatus s = .next t ∧ t.peer = s.peer) ∧
    (∃ t, exec (.busReadBytes .data count) s = .next t ∧ t.peer.sync = .paired ∧
      t.peer.ddram = s.peer.ddram ∧ t.peer.cgram = s.peer.cgram ∧
      ∀ right : Bool, right = s.peer.regs.cursorRight →
        (∀ k, k < count → acStepStated right s.peer.regs.ram (acMoved right s.peer.regs.ac k) = true) →
        t.peer.regs = { s.peer.regs with
          ac := if right then s.peer.regs.ac + BitVec.ofNat 7 count else s.peer.regs.ac - BitVec.ofNat 7 count })

/-- After INIT and ENABLE the peer is in 4-bit mode and in step, with the settings the `INIT_*` flags give and its counter at
DDRAM address 0 (R284, R285). That the first wake nibble counts whatever level E powered up at is the model's choice (log 28).
-/
def Obligations.EnableSynchronisesThePeer : Prop :=
  ∀ s : State, s.fault = none → s.life = .pinsConfigured → configWf s.cfg = true → s.phase = .idle →
    s.peer.sync = .waking 0 →
    ∃ t, exec .enable s = .next t ∧ t.peer =
      { sync := .paired
        regs :=
          { ac := 0, ram := .ddram, cursorRight := s.cfg.initCursorRight, shiftOnWrite := s.cfg.initShiftOnWrite
            displayOn := s.cfg.initDisplayOn, cursorOn := s.cfg.initCursorOn, blink := s.cfg.initBlink
            twoLine := s.cfg.initTwoLine, font5x10 := s.cfg.initFont5x10 }
        ddram := []
        cgram := s.peer.cgram }

/-- End to end: under increment mode a glyph's rows land in CGRAM at `slot*8 + r`, every other cell of both RAMs as before
(R53, R63, R180, R220); under decrement mode, short of a wrap, they land downwards from `slot*8` (R54; log 9). What is said of
the pixel rows, the low 5 bits of each cell (R98), does not rest on what the peer does with the other three (log 27). For slot
7 under increment mode, and slot 0 under decrement mode, the counter's wrap is not stated. -/
def Obligations.GlyphRowsLandInCgram : Prop :=
  ∀ (g : Glyph) (slot : Nat) (s : State), AbleIdle s → s.peer.sync = .paired → slot < 8 →
    ∃ t, exec (.addCustomGlyph g slot) s = .next t ∧ t.peer.sync = .paired ∧ t.peer.regs.ram = .cgram ∧
      t.peer.ddram = s.peer.ddram ∧
      (s.peer.regs.cursorRight = true →
        (∀ r, r < 8 → memRead t.peer.cgram (slot * 8 + r) = g.rows[r]? ∧
          (memRead t.peer.cgram (slot * 8 + r)).map glyphRow = g.rows[r]?.map fun b => b.extractLsb' 0 5) ∧
        (∀ a, a < slot * 8 ∨ slot * 8 + 8 ≤ a → memRead t.peer.cgram a = memRead s.peer.cgram a) ∧
        (slot < 7 → t.peer.regs.ac = BitVec.ofNat 7 (slot * 8 + 8))) ∧
      (s.peer.regs.cursorRight = false → 0 < slot →
        (∀ r, r < 8 → memRead t.peer.cgram (slot * 8 - r) = g.rows[r]? ∧
          (memRead t.peer.cgram (slot * 8 - r)).map glyphRow = g.rows[r]?.map fun b => b.extractLsb' 0 5) ∧
        (∀ a, a + 8 ≤ slot * 8 ∨ slot * 8 < a → memRead t.peer.cgram a = memRead s.peer.cgram a) ∧
        t.peer.regs.ac = BitVec.ofNat 7 (slot * 8 - 8))

/-- End to end, under increment mode: DISPLAY_WRITE of a text without a newline puts its k-th displayed byte in DDRAM cell k
and leaves no other cell determined, with the counter behind the last but for a full 32; a text with one newline puts what
follows in the cells from 0x40 on, up to the 16 the spec gives the line (R52, R55, R63, R218, R303). CGRAM stays. Under
decrement mode the second character already falls at a wrap, which is not stated (R54). -/
def Obligations.TextLandsInDdram : Prop :=
  ∀ (text : List Byte) (s : State), AbleIdle s → s.peer.sync = .paired → s.peer.regs.cursorRight = true →
    text.length ≤ 32 →
    (∀ bytes : List Byte, interpret text = bytes.map (fun b => (.data, b)) →
      ∃ t, exec (.displayWrite text) s = .next t ∧ t.peer.sync = .paired ∧
        (∀ k, memRead t.peer.ddram k = bytes[k]?) ∧ t.peer.cgram = s.peer.cgram ∧
        t.peer.regs = { s.peer.regs with ac := t.peer.regs.ac, ram := .ddram } ∧
        (bytes.length < 32 → t.peer.regs.ac = BitVec.ofNat 7 bytes.length)) ∧
    (∀ first second : List Byte, second.length ≤ 16 →
      interpret text = first.map (fun b => (.data, b)) ++ (.command, 0xC0) :: second.map (fun b => (.data, b)) →
      ∃ t, exec (.displayWrite text) s = .next t ∧ t.peer.sync = .paired ∧
        (∀ k, k < 0x40 → memRead t.peer.ddram k = first[k]?) ∧ (∀ k, memRead t.peer.ddram (0x40 + k) = second[k]?) ∧
        t.peer.cgram = s.peer.cgram ∧
        (second.length < 16 → t.peer.regs.ac = BitVec.ofNat 7 (0x40 + second.length)))

/-! ## The whole machine -/

/-- Every step keeps the invariant. -/
def Obligations.StepKeepsTheInvariant : Prop :=
  ∀ s t : State, StateInv s → step s = .next t → StateInv t

/-- The invariant holds at reset. -/
def Obligations.ResetMeetsTheInvariant : Prop := StateInv State.reset

/-- `pin[E]` is asserted exactly while a transaction is open, and every operation but a host's own pin write of E keeps it so
(R24, R120(a)); RS and RW change only where a transaction begins: no operation called inside an open one moves them, but a
host's own pin write (R110, R120(b)). -/
def Obligations.EngineInvariants : Prop :=
  EnableFollowsPhase State.reset ∧
  (∀ (i : Instr) (s t : State), (∀ v, i ≠ .pinWrite .e v) → EnableFollowsPhase s → exec i s = .next t →
    EnableFollowsPhase t) ∧
  (∀ (i : Instr) (s t : State), s.phase ≠ .idle → (∀ r v, i ≠ .pinWrite r v) → exec i s = .next t →
    t.pin.rs = s.pin.rs ∧ t.pin.rw = s.pin.rw)

/-- The only causes of an abort (R250): its four, each from the operations and under the condition the table gives. CONFIGURE
counts beside INIT, which contains it (log 14). -/
def Obligations.OnlyTheFourCausesAbort : Prop :=
  ∀ (i : Instr) (s t : State) (c : Cause), exec i s = .next t → t.fault = some c →
    (∃ r, c = .reservedPin r ∧ (i = .init ∨ i = .configure) ∧ r ∈ configuredRoles s.cfg ∧ reservedPin s.cfg r = true) ∨
    (∃ text, c = .textTooLong text.length ∧ (i = .displayWrite text ∨ i = .displayAppend text) ∧ 32 < text.length) ∨
    (∃ x y, c = .cursorOutOfRange x y ∧ i = .setCursor x y ∧ (15 < x ∨ 1 < y)) ∨
    (∃ g slot, c = .slotOutOfRange slot ∧ i = .addCustomGlyph g slot ∧ 8 ≤ slot)

/-- A step never changes the configuration (R28, R29) and takes nothing back: it only appends to the pin trace and to the
delivered stream (R64). -/
def Obligations.ConfigurationStaysAndTracesGrow : Prop :=
  ∀ s t : State, step s = .next t →
    t.cfg = s.cfg ∧ (∃ es, t.trace = s.trace ++ es) ∧ ∃ ts, t.delivered = s.delivered ++ ts

/-- The delivered stream is read off the pin trace (R121): the frames of the new transfers are frames of the new part of the
trace, in order, for every operation, with RS and RW as the open transaction has them. They are all its frames in `Idle`,
unless a host drops E by hand, and where END or a joining write completes a lone nibble; the frames left over are those a host
makes by hand, which R121 does not group (log 26). -/
def Obligations.FramesAreTheDeliveredStream : Prop :=
  ∀ (i : Instr) (s t : State) (seen : Pins), exec i s = .next t →
    (∀ reg r, s.phase = .active reg r → s.pin.rs = .held reg.isData ∧ s.pin.rw = .held r) →
    ∃ es ts, t.trace = s.trace ++ es ∧ t.delivered = s.delivered ++ ts ∧
      (ts.flatMap transferFrames).Sublist (framesFrom s.pin seen es) ∧
      (s.phase = .idle → (∀ v, i ≠ .pinWrite .e v) → framesFrom s.pin seen es = ts.flatMap transferFrames) ∧
      (owedTransfers s ≠ [] → i = .endTransaction ∨ (∃ reg bytes, i = .busWriteBytes reg bytes) →
        framesFrom s.pin seen es = ts.flatMap transferFrames)

/-- Two adjacent waits are one wait of their sum (R11): `mergeWaits` takes equivalent traces to one trace, in which no two
waits are adjacent, leaves a trace without adjacent waits as it is, so that no wait is lost, and leaves the nibble stream as
it was. The spec marks the equivalence as its own derivation. -/
def Obligations.AdjacentWaitsMerge : Prop :=
  (∀ (before after : List Event) (a b : Nat),
    mergeWaits (before ++ [.wait a, .wait b] ++ after) = mergeWaits (before ++ [.wait (a + b)] ++ after)) ∧
  (∀ (es : List Event) (k a b : Nat), (mergeWaits es)[k]? = some (.wait a) → (mergeWaits es)[k + 1]? ≠ some (.wait b)) ∧
  (∀ es : List Event, (∀ k a b : Nat, es[k]? = some (.wait a) → es[k + 1]? ≠ some (.wait b)) → mergeWaits es = es) ∧
  (∀ (p seen : Pins) (es : List Event), framesFrom p seen (mergeWaits es) = framesFrom p seen es)

/-- The block never acts on what the environment answers (R123, R57). Two states that agree on the block (`SameBlock`: every
latch and field of it, its events but for the levels samples returned, its delivered stream but for the values of read
transfers) refuse alike, and otherwise have next states that agree so again, for every call and every step, whatever the
wires, the draws and the peer are. What is handed back agrees too, but for the values of the five operations that return what
they sample, and of these its kind and its number of bytes. An aborted operation hands nothing back (log 16), so its result is
what stood there before. -/
def Obligations.BehaviourIgnoresTheEnvironment : Prop :=
  (∀ s t : State, SameBlock s t →
    (∀ i r, exec i s = .refused r → exec i t = .refused r) ∧
    (∀ i s', exec i s = .next s' → ∃ t', exec i t = .next t' ∧ SameBlock s' t' ∧
      (i ≠ .sampleNibble → (∀ r, i ≠ .pinRead r) → (∀ reg n, i ≠ .busReadBytes reg n) → (∀ n a f, i ≠ .readBytes n a f) →
        i ≠ .readStatus → t.result = s.result → t'.result = s'.result)) ∧
    (∀ r, step s = .refused r → step t = .refused r) ∧
    (∀ f, step s = .fault f → step t = .fault f) ∧
    ∀ s', step s = .next s' → ∃ t', step t = .next t' ∧ SameBlock s' t') ∧
  ∀ (s : State) (w : List Level) (n : Nat) (p : Peer), SameBlock s { s with wire := w, draws := n, peer := p }
end

