-- ==== Sys2Proof/Laws/Decode.lean ====
section
/-! SUPPORT. One lemma per operand parser: it reads back what the encoder writes, whatever follows. -/

namespace Sys2Proof

@[simp] theorem andThen_ok {α β : Type} (a : α) (r : List Byte) (k : α → List Byte → Parsed β) :
    andThen (.ok (a, r)) k = k a r := rfl

@[simp] theorem takeByte_cons (b : Byte) (r : List Byte) : takeByte (b :: r) = .ok (b, r) := rfl

theorem takeLow_cons {k : Nat} {b : Byte} (h : b.toNat < 2 ^ k) (r : List Byte) : takeLow k (b :: r) = .ok (b, r) := by
  simp [takeLow, h]

theorem takeNibble_cons (n : Nibble) (r : List Byte) : takeNibble (n.setWidth 8 :: r) = .ok (n, r) := by
  have h : (n.setWidth 8 : Byte).toNat < 2 ^ 4 := by simp; omega
  simp [takeNibble, takeLow_cons h]

theorem takeAddr_cons (a : BitVec 7) (r : List Byte) : takeAddr (a.setWidth 8 :: r) = .ok (a, r) := by
  have h : (a.setWidth 8 : Byte).toNat < 2 ^ 7 := by simp; omega
  simp [takeAddr, takeLow_cons h]

theorem takeNat_le16 {n : Nat} (h : n < 65536) (r : List Byte) : takeNat (le16 n ++ r) = .ok (n, r) := by
  have h1 : n / 256 % 256 = n / 256 := Nat.mod_eq_of_lt (by omega)
  simp [takeNat, le16, h1]
  omega

theorem takeList_encodeList {bs : List Byte} (h : bs.length < 65536) (r : List Byte) :
    takeList (encodeList bs ++ r) = .ok (bs, r) := by
  simp [takeList, encodeList, takeNat_le16 h, takeBytes]

theorem takeRole_cons (p : PinRole) (r : List Byte) : takeRole (BitVec.ofNat 8 p.toNat :: r) = .ok (p, r) := by
  cases p <;> rfl

theorem takeGlyph_rows (g : Glyph) (r : List Byte) : takeGlyph (g.rows ++ r) = .ok (g, r) := rfl

@[simp] theorem Reg.ofBool_isData (r : Reg) : Reg.ofBool r.isData = r := by cases r <;> rfl

/-- A byte of one, two or three flags, each at its bit. -/
theorem takeLow_flag1 (a : Bool) (r : List Byte) : takeLow 1 (flagAt 0 a :: r) = .ok (flagAt 0 a, r) := by
  cases a <;> rfl

theorem takeLow_flag2 (a b : Bool) (r : List Byte) :
    takeLow 2 ((flagAt 0 a ||| flagAt 1 b) :: r) = .ok (flagAt 0 a ||| flagAt 1 b, r) := by
  cases a <;> cases b <;> rfl

theorem takeLow_flag3 (a b c : Bool) (r : List Byte) :
    takeLow 3 ((flagAt 0 a ||| flagAt 1 b ||| flagAt 2 c) :: r) = .ok (flagAt 0 a ||| flagAt 1 b ||| flagAt 2 c, r) := by
  cases a <;> cases b <;> cases c <;> rfl

/-! The bits of a flag byte, in the form `simp` reaches. -/

@[simp] theorem flagAt_0_bit0 (a : Bool) : (flagAt 0 a)[0] = a := by cases a <;> rfl
@[simp] theorem flagAt_0_bit1 (a : Bool) : (flagAt 0 a)[1] = false := by cases a <;> rfl
@[simp] theorem flagAt_0_bit2 (a : Bool) : (flagAt 0 a)[2] = false := by cases a <;> rfl
@[simp] theorem flagAt_1_bit0 (a : Bool) : (flagAt 1 a)[0] = false := by cases a <;> rfl
@[simp] theorem flagAt_1_bit1 (a : Bool) : (flagAt 1 a)[1] = a := by cases a <;> rfl
@[simp] theorem flagAt_1_bit2 (a : Bool) : (flagAt 1 a)[2] = false := by cases a <;> rfl
@[simp] theorem flagAt_2_bit0 (a : Bool) : (flagAt 2 a)[0] = false := by cases a <;> rfl
@[simp] theorem flagAt_2_bit1 (a : Bool) : (flagAt 2 a)[1] = false := by cases a <;> rfl
@[simp] theorem flagAt_2_bit2 (a : Bool) : (flagAt 2 a)[2] = a := by cases a <;> rfl

/-- A command byte is read back as its category and fields (R82 to R90). -/
theorem decodeCommand_toByte (cmd : Command) : decodeCommand cmd.toByte = some cmd := by
  cases cmd with
  | clear => decide
  | home => decide
  | entryMode r s => revert r s; decide
  | displayControl a b c => revert a b c; decide
  | shift a b x => revert a b x; decide
  | functionSet a b c x => revert a b c x; decide
  | setCgramAddr a =>
    have h : ∀ a : Fin (2 ^ 6), decodeCommand (Command.setCgramAddr (BitVec.ofFin a)).toByte =
        some (.setCgramAddr (BitVec.ofFin a)) := by
      set_option maxRecDepth 100000 in decide
    exact h a.toFin
  | setDdramAddr a =>
    have h : ∀ a : Fin (2 ^ 7), decodeCommand (Command.setDdramAddr (BitVec.ofFin a)).toByte =
        some (.setDdramAddr (BitVec.ofFin a)) := by
      set_option maxRecDepth 100000 in decide
    exact h a.toFin

/-- The decoder of a CMD8 call reads the byte after the layer byte (R81, R82). -/
theorem decode_command (c : Byte) (cmd : Command) (r : List Byte) (h : decodeCommand c = some cmd) :
    decode (0x40 :: c :: r) = .ok (cmd.toInstr, r) := by
  have e : decode (0x40 :: c :: r) =
      (match decodeCommand c with
      | some cmd => .ok (cmd.toInstr, r)
      | none => .error (.unlistedCommand c)) := rfl
  rw [e, h]

/-- The decoder of a TXT call of one source byte (R96). -/
theorem decode_text (ch : Byte) (i : Instr) (r : List Byte) (h : decodeTextForm [ch] = some i) :
    decode (0xC1 :: ch :: r) = .ok (i, r) := by
  have e : decode (0xC1 :: ch :: r) =
      andThen (takeBytes 1 (ch :: r)) fun src r =>
        match decodeTextForm src with
        | some i => .ok (i, r)
        | none => .error .notATextForm := rfl
  rw [e]
  simp [takeBytes, h]

/-- The decoder of an OP call is `decodeOp` on its select code (R100). -/
theorem decode_op (code : Nat) (h : code < 64) (r : List Byte) : decode (opByte code :: r) = decodeOp code r := by
  have hc : ∀ k : Fin 64, ((opByte k).extractLsb' 6 2).toNat = 0 ∧ ((opByte k).setWidth 6).toNat = k := by decide
  have h0 := hc ⟨code, h⟩
  simp only at h0
  simp only [decode, h0]

end Sys2Proof
end

