-- ==== Sys2Proof/Laws/Guards.lean ====
section
/-! SUPPORT. The guards: when each passes, what it refuses with, and `exec` as a guard and an effect. -/

namespace Sys2Proof.Machine

/-! ## When a guard passes -/

@[simp] theorem guarded_none (t : State) : guarded none t = .next t := rfl

@[simp] theorem guarded_some (r : Refusal) (t : State) : guarded (some r) t = .refused r := rfl

theorem guarded_next {g : Option Refusal} {a t : State} : guarded g a = .next t ↔ g = none ∧ a = t := by
  cases g <;> simp [guarded]

theorem guarded_refused {g : Option Refusal} {a : State} {r : Refusal} : guarded g a = .refused r ↔ g = some r := by
  cases g <;> simp [guarded]

theorem aliveGuard_none {s : State} : aliveGuard s = none ↔ s.fault = none := by
  cases h : s.fault <;> simp [aliveGuard, h]

theorem lifeGuard_none {ok : Life → Bool} {s : State} : lifeGuard ok s = none ↔ ok s.life = true := by
  simp [lifeGuard]

theorem configGuard_none {s : State} : configGuard s = none ↔ configWf s.cfg = true := by
  simp [configGuard]

theorem idleGuard_none {s : State} : idleGuard s = none ↔ s.phase = .idle := by
  simp [idleGuard]

theorem dirGuard_none {d : Direction} {s : State} : dirGuard d s = none ↔ s.dir = d := by
  simp [dirGuard]

theorem activeGuard_none {ok : Reg → Bool → Bool} {s : State} :
    activeGuard ok s = none ↔ ∃ reg d, s.phase = .active reg d ∧ ok reg d = true := by
  cases h : s.phase with
  | idle => simp [activeGuard, h]
  | active reg d =>
    simp only [activeGuard, h, Phase.active.injEq]
    constructor
    · intro hg
      exact ⟨reg, d, ⟨rfl, rfl⟩, by by_cases ho : ok reg d = true <;> simp_all⟩
    · rintro ⟨_, _, ⟨rfl, rfl⟩, ho⟩
      simp [ho]

theorem activeGuard_ok {ok : Reg → Bool → Bool} {s : State} {reg : Reg} {d : Bool} (hp : s.phase = .active reg d)
    (ho : ok reg d = true) : activeGuard ok s = none := by
  simp [activeGuard, hp, ho]

theorem activeGuard_some {ok : Reg → Bool → Bool} {s : State}
    (h : ∀ reg d, s.phase = .active reg d → ok reg d = false) : activeGuard ok s = some (.wrongPhase s.phase) := by
  cases hp : s.phase with
  | idle => simp [activeGuard, hp]
  | active reg d => simp [activeGuard, hp, h reg d hp]

theorem callGuard_none {ok : Life → Bool} {s : State} :
    callGuard ok s = none ↔ s.fault = none ∧ ok s.life = true ∧ configWf s.cfg = true := by
  simp [callGuard, Option.or_eq_none_iff, aliveGuard_none, lifeGuard_none, configGuard_none]

theorem internalGuard_none {s : State} : internalGuard s = none ↔ Able s := by
  simp only [internalGuard, callGuard_none, decide_eq_true_eq]
  exact ⟨fun ⟨a, b, c⟩ => ⟨a, b, c⟩, fun ⟨a, b, c⟩ => ⟨a, b, c⟩⟩

theorem internalIdleGuard_none {s : State} : internalIdleGuard s = none ↔ AbleIdle s := by
  simp only [internalIdleGuard, Option.or_eq_none_iff, internalGuard_none, idleGuard_none]
  exact ⟨fun ⟨a, b⟩ => ⟨a, b⟩, fun ⟨a, b⟩ => ⟨a, b⟩⟩

theorem contentGuard_none {s : State} : contentGuard s = none ↔ AbleIdle s := internalIdleGuard_none

theorem facadeGuard_none {ok : Life → Bool} {s : State} :
    facadeGuard ok s = none ↔ s.fault = none ∧ ok s.life = true ∧ configWf s.cfg = true ∧ s.phase = .idle := by
  simp [facadeGuard, Option.or_eq_none_iff, callGuard_none, idleGuard_none, and_assoc]

theorem Able.guard {s : State} (h : Able s) : internalGuard s = none := internalGuard_none.mpr h

theorem AbleIdle.guard {s : State} (h : AbleIdle s) : internalIdleGuard s = none := internalIdleGuard_none.mpr h

theorem AbleIdle.content {s : State} (h : AbleIdle s) : contentGuard s = none := contentGuard_none.mpr h

theorem writeGuard_idle {reg : Reg} {bytes : List Byte} {s : State} (h : s.phase = .idle) :
    writeGuard reg bytes s = none := by
  simp [writeGuard, h]

theorem writeGuard_none {reg : Reg} {bytes : List Byte} {s : State} :
    writeGuard reg bytes s = none ↔
      bytes = [] ∨ s.phase = .idle ∨ s.phase = .active reg false ∧ s.dir = .output := by
  by_cases hb : bytes = []
  · simp [writeGuard, hb]
  · cases hp : s.phase with
    | idle => simp [writeGuard, hb, hp]
    | active r d =>
      simp only [writeGuard, hb, hp, if_false, Option.or_eq_none_iff, activeGuard_none, dirGuard_none]
      simp

/-! ## What an open or closed phase refuses -/

theorem internalIdleGuard_busy {s : State} (h : Able s) (hp : s.phase ≠ .idle) :
    internalIdleGuard s = some (.wrongPhase s.phase) := by
  simp [internalIdleGuard, h.guard, idleGuard, hp]

theorem internalGuard_aborted {s : State} {c : Cause} (h : s.fault = some c) : internalGuard s = some (.aborted c) := by
  simp [internalGuard, callGuard, aliveGuard, h]

/-! ## `exec` is a guard and an effect -/

/-- The guard of each instruction. -/
def guardOf (i : Instr) (s : State) : Option Refusal :=
  match i with
  | .clear | .home | .entryMode _ _ | .displayControl _ _ _ | .shift _ _ _ | .functionSet _ _ _ _
  | .setCgramAddr _ | .setDdramAddr _ | .jumpLine2
  | .nibWrCmd _ | .nibWrData _ | .nibRdCmd _ | .nibRdData _
  | .txtNewline | .txtGlyph _ | .txtDropTab | .txtDropVt | .txtDropFf | .txtDropCr | .txtSpace | .txtEscapeFailed
  | .txtVerbatim _
  | .beginTransaction _ _ | .busReadBytes _ _ | .busWriteNibble _ _ _ | .configure | .setDataDirection _
  | .writeCommand _ | .setAddressCounter _ _ | .readBytes _ _ _ | .writeBytesRaw _ _ | .writeBytesText _ _
  | .readStatus => internalIdleGuard s
  | .continueTransaction isRead => (internalGuard s).or (activeGuard (fun _ r => r = isRead) s)
  | .endTransaction => (internalGuard s).or (activeGuard (fun _ _ => true) s)
  | .driveNibble _ => (internalGuard s).or ((activeGuard (fun _ r => !r) s).or (dirGuard .output s))
  | .sampleNibble => (internalGuard s).or ((activeGuard (fun _ r => r) s).or (dirGuard .input s))
  | .busWriteBytes reg bytes => (internalGuard s).or (writeGuard reg bytes s)
  | .pinWrite _ _ | .pinRead _
  | .encEntryMode _ _ | .encDisplayControl _ _ _ | .encFunctionSet _ _ _ | .encShift _ _ => internalGuard s
  | .init => facadeGuard (fun l => l = .uninitialized) s
  | .enable => facadeGuard (fun l => l = .pinsConfigured) s
  | .displayWrite _ | .displayAppend _ | .addCustomGlyph _ _ | .setCursor _ _ | .toggleFeatures _ _ _
  | .reset => contentGuard s
  | .setBacklight _ => facadeGuard (fun l => l != .uninitialized) s

/-- What each instruction does once its guard has passed. -/
def effectOf (i : Instr) (s : State) : State :=
  match i with
  | .clear => s |> writeCommand Command.clear.toByte |> returning .nothing
  | .home => s |> writeCommand Command.home.toByte |> returning .nothing
  | .entryMode r sh => s |> writeCommand (Command.entryMode r sh).toByte |> returning .nothing
  | .displayControl d c b => s |> writeCommand (Command.displayControl d c b).toByte |> returning .nothing
  | .shift w t x => s |> writeCommand (Command.shift w t x).toByte |> returning .nothing
  | .functionSet l n f x => s |> writeCommand (Command.functionSet l n f x).toByte |> returning .nothing
  | .setCgramAddr a => s |> writeCommand (Command.setCgramAddr a).toByte |> returning .nothing
  | .setDdramAddr a => s |> writeCommand (Command.setDdramAddr a).toByte |> returning .nothing
  | .jumpLine2 => s |> writeCommand cmdJumpLine2 |> returning .nothing
  | .nibWrCmd n => s |> busWriteNibble .command n true |> returning .nothing
  | .nibWrData n => s |> busWriteNibble .data n true |> returning .nothing
  | .nibRdCmd n => returning (.nibble (busReadNibble .command n s).1) (busReadNibble .command n s).2
  | .nibRdData n => returning (.nibble (busReadNibble .data n s).1) (busReadNibble .data n s).2
  | .txtNewline => s |> emitItems [(.command, cmdJumpLine2)] |> returning .nothing
  | .txtGlyph d => s |> emitItems [(.data, d.setWidth 8)] |> returning .nothing
  | .txtDropTab | .txtDropVt | .txtDropFf | .txtDropCr => s |> emitItems [] |> returning .nothing
  | .txtSpace => s |> emitItems [(.data, chSpace)] |> returning .nothing
  | .txtEscapeFailed => s |> emitItems [(.data, chEscape)] |> returning .nothing
  | .txtVerbatim c => s |> emitItems [(.data, c)] |> returning .nothing
  | .beginTransaction t r => s |> beginTransaction (Reg.ofBool t) r |> returning .nothing
  | .continueTransaction r => s |> continueTransaction r |> returning .nothing
  | .endTransaction => s |> endTransaction |> returning .nothing
  | .driveNibble n => s |> driveNibble n |> returning .nothing
  | .sampleNibble => returning (.nibble (sampleNibble s).1) (sampleNibble s).2
  | .busWriteBytes reg bytes => s |> busWriteBytes reg bytes |> returning .nothing
  | .busReadBytes reg count => returning (.bytes (busReadBytes reg count s).1) (busReadBytes reg count s).2
  | .busWriteNibble reg n t => s |> busWriteNibble reg n t |> returning .nothing
  | .configure =>
    match (configure s).fault with
    | some _ => configure s
    | none => returning .nothing (configure s)
  | .setDataDirection i => s |> setDataDirection i |> returning .nothing
  | .pinWrite r v => s |> writePin r v |> returning .nothing
  | .pinRead r => s |> sample r |> returning (.level (wireLevel s))
  | .encEntryMode a b => returning (.byte (encodeEntryMode a b)) s
  | .encDisplayControl a b c => returning (.byte (encodeDisplayControl a b c)) s
  | .encFunctionSet a b c => returning (.byte (encodeFunctionSet a b c)) s
  | .encShift a b => returning (.byte (encodeShift a b)) s
  | .writeCommand c => s |> writeCommand c |> returning .nothing
  | .setAddressCounter a t => s |> setAddressCounter a t |> returning .nothing
  | .readBytes n a t => returning (.bytes (readBytes n a t s).1) (readBytes n a t s).2
  | .writeBytesRaw data n => s |> busWriteBytes .data (operandBytes data n) |> returning .nothing
  | .writeBytesText data n => s |> writeText (operandBytes data n) |> returning .nothing
  | .readStatus => returning (.byte ((busReadBytes .command 1 s).1.headD 0)) (busReadBytes .command 1 s).2
  | .init =>
    match (configure s).fault with
    | some _ => configure s
    | none => { configure s |> setDataDirection true |> returning .nothing with life := .pinsConfigured }
  | .enable => { s |> wakeRitual |> busWriteBytes .command (initCommands s.cfg) |> returning .nothing with life := .ready }
  | .displayWrite text =>
    if maxTextLen < text.length then abort (.textTooLong text.length) s
    else s |> writeCommand cmdClear |> writeText text |> returning .nothing
  | .displayAppend text =>
    if maxTextLen < text.length then abort (.textTooLong text.length) s
    else s |> writeText text |> returning .nothing
  | .addCustomGlyph g slot =>
    if maxTotalCustomPattern ≤ slot then abort (.slotOutOfRange slot) s
    else s |> setAddressCounter (slotAddr slot) false |> busWriteBytes .data g.rows |> returning .nothing
  | .setCursor x y =>
    if cols ≤ x ∨ lines ≤ y then abort (.cursorOutOfRange x y) s
    else s |> setAddressCounter (cursorAddr x y) true |> returning .nothing
  | .toggleFeatures d c b => s |> writeCommand (encodeDisplayControl d c b) |> returning .nothing
  | .reset => s |> writeCommand cmdClear |> returning .nothing
  | .setBacklight on =>
    returning .nothing (if s.cfg.useBacklight then drive .bl (levelFor blOnLevel on) s else s)

theorem exec_eq (i : Instr) (s : State) : exec i s = guarded (guardOf i s) (effectOf i s) := by
  cases i <;> rfl

/-- A next state is the effect, under a guard that passed. -/
theorem exec_next {i : Instr} {s t : State} : exec i s = .next t ↔ guardOf i s = none ∧ effectOf i s = t := by
  rw [exec_eq, guarded_next]

theorem exec_of_guard {i : Instr} {s : State} (h : guardOf i s = none) : exec i s = .next (effectOf i s) := by
  rw [exec_eq, h, guarded_none]

/-- Every operation is examined for an abort, then for its lifecycle state, then for its configuration, then for what its own
rule asks: `rest` (R256, D15). -/
theorem guardOf_eq (i : Instr) (s : State) :
    ∃ rest, guardOf i s = (callGuard (allowed i) s).or rest ∧ (isFacade i = true → rest = idleGuard s) := by
  cases i <;>
  first
  | exact ⟨_, rfl, by simp [isFacade]⟩
  | exact ⟨idleGuard s, rfl, fun _ => rfl⟩
  | exact ⟨none, by simp [guardOf, internalGuard]; rfl, by simp [isFacade]⟩

theorem guardOf_none {i : Instr} {s : State} (h : guardOf i s = none) :
    s.fault = none ∧ allowed i s.life = true ∧ configWf s.cfg = true ∧ (isFacade i = true → s.phase = .idle) := by
  obtain ⟨rest, e, hf⟩ := guardOf_eq i s
  rw [e, Option.or_eq_none_iff, callGuard_none] at h
  refine ⟨h.1.1, h.1.2.1, h.1.2.2, fun hi => ?_⟩
  have := h.2
  rw [hf hi, idleGuard_none] at this
  exact this

theorem exec_aborted {i : Instr} {s : State} {c : Cause} (h : s.fault = some c) :
    exec i s = .refused (.aborted c) := by
  obtain ⟨rest, e, -⟩ := guardOf_eq i s
  rw [exec_eq, e]
  simp [callGuard, aliveGuard, h]

theorem exec_wrongLife {i : Instr} {s : State} (h : s.fault = none) (hl : allowed i s.life = false) :
    exec i s = .refused (.wrongLifecycle s.life) := by
  obtain ⟨rest, e, -⟩ := guardOf_eq i s
  rw [exec_eq, e]
  simp [callGuard, aliveGuard, lifeGuard, h, hl]

theorem exec_illFormed {i : Instr} {s : State} (h : s.fault = none) (hl : allowed i s.life = true)
    (hc : configWf s.cfg = false) : exec i s = .refused .illFormedConfiguration := by
  obtain ⟨rest, e, -⟩ := guardOf_eq i s
  rw [exec_eq, e]
  simp [callGuard, aliveGuard, lifeGuard, configGuard, h, hl, hc]

end Sys2Proof.Machine
end

