-- ==== Sys2Proof/Laws/State.lean ====
section
/-! SUPPORT. One lemma per field per named operation (Machine/Ops.lean), so that no proof unfolds a record update. -/

namespace Sys2Proof.Machine

@[simp] theorem levelFor_rsDataLevel (b : Bool) : levelFor rsDataLevel b = b := by cases b <;> rfl
@[simp] theorem levelFor_rwReadLevel (b : Bool) : levelFor rwReadLevel b = b := by cases b <;> rfl
@[simp] theorem levelFor_blOnLevel (b : Bool) : levelFor blOnLevel b = b := by cases b <;> rfl
@[simp] theorem eAssertLevel_eq : eAssertLevel = true := rfl

@[simp] theorem dropsEnable_true (r : PinRole) : dropsEnable r true = false := by
  simp [dropsEnable]
@[simp] theorem dropsEnable_e_false : dropsEnable .e false = true := rfl
@[simp] theorem fallingEnable_true (r : PinRole) (p : Pins) : fallingEnable r true p = false := by
  simp [fallingEnable]
@[simp] theorem fallingEnable_e_false (p : Pins) : fallingEnable .e false p = decide (p.e = .held true) := rfl

@[simp] theorem dropsEnable_rs (v : Level) : dropsEnable .rs v = false := rfl
@[simp] theorem dropsEnable_rw (v : Level) : dropsEnable .rw v = false := rfl
@[simp] theorem dropsEnable_bl (v : Level) : dropsEnable .bl v = false := rfl
@[simp] theorem dropsEnable_d0 (v : Level) : dropsEnable .d0 v = false := rfl
@[simp] theorem dropsEnable_d1 (v : Level) : dropsEnable .d1 v = false := rfl
@[simp] theorem dropsEnable_d2 (v : Level) : dropsEnable .d2 v = false := rfl
@[simp] theorem dropsEnable_d3 (v : Level) : dropsEnable .d3 v = false := rfl
@[simp] theorem fallingEnable_rs (v : Level) (p : Pins) : fallingEnable .rs v p = false := rfl
@[simp] theorem fallingEnable_rw (v : Level) (p : Pins) : fallingEnable .rw v p = false := rfl
@[simp] theorem fallingEnable_bl (v : Level) (p : Pins) : fallingEnable .bl v p = false := rfl
@[simp] theorem fallingEnable_d0 (v : Level) (p : Pins) : fallingEnable .d0 v p = false := rfl
@[simp] theorem fallingEnable_d1 (v : Level) (p : Pins) : fallingEnable .d1 v p = false := rfl
@[simp] theorem fallingEnable_d2 (v : Level) (p : Pins) : fallingEnable .d2 v p = false := rfl
@[simp] theorem fallingEnable_d3 (v : Level) (p : Pins) : fallingEnable .d3 v p = false := rfl
@[simp] theorem Pins.set_rs (p : Pins) (v : Level) : p.set .rs v = { p with rs := .held v } := rfl
@[simp] theorem Pins.set_rw (p : Pins) (v : Level) : p.set .rw v = { p with rw := .held v } := rfl
@[simp] theorem Pins.set_e (p : Pins) (v : Level) : p.set .e v = { p with e := .held v } := rfl
@[simp] theorem Pins.set_bl (p : Pins) (v : Level) : p.set .bl v = { p with bl := .held v } := rfl
@[simp] theorem Pins.set_d0 (p : Pins) (v : Level) : p.set .d0 v = { p with d0 := .held v } := rfl
@[simp] theorem Pins.set_d1 (p : Pins) (v : Level) : p.set .d1 v = { p with d1 := .held v } := rfl
@[simp] theorem Pins.set_d2 (p : Pins) (v : Level) : p.set .d2 v = { p with d2 := .held v } := rfl
@[simp] theorem Pins.set_d3 (p : Pins) (v : Level) : p.set .d3 v = { p with d3 := .held v } := rfl

/-- Nothing is owed to the delivered stream unless a lone nibble stands on the pins. -/
theorem owedTransfers_of_not_lone {s : State} (h : s.lone = false) : owedTransfers s = [] := by
  simp [owedTransfers, h]

@[simp] theorem emit_cfg (e : Event) (s : State) : (emit e s).cfg = s.cfg := rfl
@[simp] theorem emit_pin (e : Event) (s : State) : (emit e s).pin = s.pin := rfl
@[simp] theorem emit_dir (e : Event) (s : State) : (emit e s).dir = s.dir := rfl
@[simp] theorem emit_phase (e : Event) (s : State) : (emit e s).phase = s.phase := rfl
@[simp] theorem emit_life (e : Event) (s : State) : (emit e s).life = s.life := rfl
@[simp] theorem emit_fault (e : Event) (s : State) : (emit e s).fault = s.fault := rfl
@[simp] theorem emit_domains (e : Event) (s : State) : (emit e s).domains = s.domains := rfl
@[simp] theorem emit_trace (e : Event) (s : State) : (emit e s).trace = s.trace ++ [e] := rfl
@[simp] theorem emit_delivered (e : Event) (s : State) : (emit e s).delivered = s.delivered := rfl
@[simp] theorem emit_lone (e : Event) (s : State) : (emit e s).lone = s.lone := rfl
@[simp] theorem emit_result (e : Event) (s : State) : (emit e s).result = s.result := rfl
@[simp] theorem emit_wire (e : Event) (s : State) : (emit e s).wire = s.wire := rfl
@[simp] theorem emit_draws (e : Event) (s : State) : (emit e s).draws = s.draws := rfl
@[simp] theorem emit_peer (e : Event) (s : State) : (emit e s).peer = s.peer := rfl
@[simp] theorem emit_calls (e : Event) (s : State) : (emit e s).calls = s.calls := rfl

@[simp] theorem drive_cfg (r : PinRole) (v : Level) (s : State) : (drive r v s).cfg = s.cfg := rfl
@[simp] theorem drive_pin (r : PinRole) (v : Level) (s : State) : (drive r v s).pin = s.pin.set r v := rfl
@[simp] theorem drive_dir (r : PinRole) (v : Level) (s : State) : (drive r v s).dir = s.dir := rfl
@[simp] theorem drive_phase (r : PinRole) (v : Level) (s : State) : (drive r v s).phase = s.phase := rfl
@[simp] theorem drive_life (r : PinRole) (v : Level) (s : State) : (drive r v s).life = s.life := rfl
@[simp] theorem drive_fault (r : PinRole) (v : Level) (s : State) : (drive r v s).fault = s.fault := rfl
@[simp] theorem drive_domains (r : PinRole) (v : Level) (s : State) : (drive r v s).domains = s.domains := rfl
@[simp] theorem drive_trace (r : PinRole) (v : Level) (s : State) : (drive r v s).trace = s.trace ++ [.drive r v] := rfl
@[simp] theorem drive_delivered (r : PinRole) (v : Level) (s : State) : (drive r v s).delivered = if dropsEnable r v then s.delivered ++ owedTransfers s else s.delivered := rfl
@[simp] theorem drive_lone (r : PinRole) (v : Level) (s : State) : (drive r v s).lone = (s.lone && !dropsEnable r v) := rfl
@[simp] theorem drive_result (r : PinRole) (v : Level) (s : State) : (drive r v s).result = s.result := rfl
@[simp] theorem drive_wire (r : PinRole) (v : Level) (s : State) : (drive r v s).wire = s.wire := rfl
@[simp] theorem drive_draws (r : PinRole) (v : Level) (s : State) : (drive r v s).draws = if fallingEnable r v s.pin then s.draws + 1 else s.draws := rfl
@[simp] theorem drive_peer (r : PinRole) (v : Level) (s : State) : (drive r v s).peer = if fallingEnable r v s.pin then peerReceive s.draws s.dir s.pin s.peer else s.peer := rfl
@[simp] theorem drive_calls (r : PinRole) (v : Level) (s : State) : (drive r v s).calls = s.calls := rfl

@[simp] theorem wait_cfg (d : Nat) (s : State) : (wait d s).cfg = s.cfg := rfl
@[simp] theorem wait_pin (d : Nat) (s : State) : (wait d s).pin = s.pin := rfl
@[simp] theorem wait_dir (d : Nat) (s : State) : (wait d s).dir = s.dir := rfl
@[simp] theorem wait_phase (d : Nat) (s : State) : (wait d s).phase = s.phase := rfl
@[simp] theorem wait_life (d : Nat) (s : State) : (wait d s).life = s.life := rfl
@[simp] theorem wait_fault (d : Nat) (s : State) : (wait d s).fault = s.fault := rfl
@[simp] theorem wait_domains (d : Nat) (s : State) : (wait d s).domains = s.domains := rfl
@[simp] theorem wait_trace (d : Nat) (s : State) : (wait d s).trace = s.trace ++ [.wait d] := rfl
@[simp] theorem wait_delivered (d : Nat) (s : State) : (wait d s).delivered = s.delivered := rfl
@[simp] theorem wait_lone (d : Nat) (s : State) : (wait d s).lone = s.lone := rfl
@[simp] theorem wait_result (d : Nat) (s : State) : (wait d s).result = s.result := rfl
@[simp] theorem wait_wire (d : Nat) (s : State) : (wait d s).wire = s.wire := rfl
@[simp] theorem wait_draws (d : Nat) (s : State) : (wait d s).draws = s.draws := rfl
@[simp] theorem wait_peer (d : Nat) (s : State) : (wait d s).peer = s.peer := rfl
@[simp] theorem wait_calls (d : Nat) (s : State) : (wait d s).calls = s.calls := rfl

@[simp] theorem setMode_cfg (r : PinRole) (m : PinMode) (s : State) : (setMode r m s).cfg = s.cfg := rfl
@[simp] theorem setMode_pin (r : PinRole) (m : PinMode) (s : State) : (setMode r m s).pin = s.pin := rfl
@[simp] theorem setMode_dir (r : PinRole) (m : PinMode) (s : State) : (setMode r m s).dir = s.dir := rfl
@[simp] theorem setMode_phase (r : PinRole) (m : PinMode) (s : State) : (setMode r m s).phase = s.phase := rfl
@[simp] theorem setMode_life (r : PinRole) (m : PinMode) (s : State) : (setMode r m s).life = s.life := rfl
@[simp] theorem setMode_fault (r : PinRole) (m : PinMode) (s : State) : (setMode r m s).fault = s.fault := rfl
@[simp] theorem setMode_domains (r : PinRole) (m : PinMode) (s : State) : (setMode r m s).domains = s.domains := rfl
@[simp] theorem setMode_trace (r : PinRole) (m : PinMode) (s : State) : (setMode r m s).trace = s.trace ++ [.setMode r m] := rfl
@[simp] theorem setMode_delivered (r : PinRole) (m : PinMode) (s : State) : (setMode r m s).delivered = s.delivered := rfl
@[simp] theorem setMode_lone (r : PinRole) (m : PinMode) (s : State) : (setMode r m s).lone = s.lone := rfl
@[simp] theorem setMode_result (r : PinRole) (m : PinMode) (s : State) : (setMode r m s).result = s.result := rfl
@[simp] theorem setMode_wire (r : PinRole) (m : PinMode) (s : State) : (setMode r m s).wire = s.wire := rfl
@[simp] theorem setMode_draws (r : PinRole) (m : PinMode) (s : State) : (setMode r m s).draws = s.draws := rfl
@[simp] theorem setMode_peer (r : PinRole) (m : PinMode) (s : State) : (setMode r m s).peer = s.peer := rfl
@[simp] theorem setMode_calls (r : PinRole) (m : PinMode) (s : State) : (setMode r m s).calls = s.calls := rfl

@[simp] theorem sample_cfg (r : PinRole) (s : State) : (sample r s).cfg = s.cfg := rfl
@[simp] theorem sample_pin (r : PinRole) (s : State) : (sample r s).pin = s.pin := rfl
@[simp] theorem sample_dir (r : PinRole) (s : State) : (sample r s).dir = s.dir := rfl
@[simp] theorem sample_phase (r : PinRole) (s : State) : (sample r s).phase = s.phase := rfl
@[simp] theorem sample_life (r : PinRole) (s : State) : (sample r s).life = s.life := rfl
@[simp] theorem sample_fault (r : PinRole) (s : State) : (sample r s).fault = s.fault := rfl
@[simp] theorem sample_domains (r : PinRole) (s : State) : (sample r s).domains = s.domains := rfl
@[simp] theorem sample_trace (r : PinRole) (s : State) : (sample r s).trace = s.trace ++ [.sample r (wireLevel s)] := rfl
@[simp] theorem sample_delivered (r : PinRole) (s : State) : (sample r s).delivered = s.delivered := rfl
@[simp] theorem sample_lone (r : PinRole) (s : State) : (sample r s).lone = s.lone := rfl
@[simp] theorem sample_result (r : PinRole) (s : State) : (sample r s).result = s.result := rfl
@[simp] theorem sample_wire (r : PinRole) (s : State) : (sample r s).wire = s.wire.tail := rfl
@[simp] theorem sample_draws (r : PinRole) (s : State) : (sample r s).draws = s.draws + 1 := rfl
@[simp] theorem sample_peer (r : PinRole) (s : State) : (sample r s).peer = s.peer := rfl
@[simp] theorem sample_calls (r : PinRole) (s : State) : (sample r s).calls = s.calls := rfl

@[simp] theorem abort_cfg (c : Cause) (s : State) : (abort c s).cfg = s.cfg := rfl
@[simp] theorem abort_pin (c : Cause) (s : State) : (abort c s).pin = s.pin := rfl
@[simp] theorem abort_dir (c : Cause) (s : State) : (abort c s).dir = s.dir := rfl
@[simp] theorem abort_phase (c : Cause) (s : State) : (abort c s).phase = s.phase := rfl
@[simp] theorem abort_life (c : Cause) (s : State) : (abort c s).life = s.life := rfl
@[simp] theorem abort_fault (c : Cause) (s : State) : (abort c s).fault = some c := rfl
@[simp] theorem abort_domains (c : Cause) (s : State) : (abort c s).domains = s.domains := rfl
@[simp] theorem abort_trace (c : Cause) (s : State) : (abort c s).trace = s.trace ++ [.abort c] := rfl
@[simp] theorem abort_delivered (c : Cause) (s : State) : (abort c s).delivered = s.delivered := rfl
@[simp] theorem abort_lone (c : Cause) (s : State) : (abort c s).lone = s.lone := rfl
@[simp] theorem abort_result (c : Cause) (s : State) : (abort c s).result = s.result := rfl
@[simp] theorem abort_wire (c : Cause) (s : State) : (abort c s).wire = s.wire := rfl
@[simp] theorem abort_draws (c : Cause) (s : State) : (abort c s).draws = s.draws := rfl
@[simp] theorem abort_peer (c : Cause) (s : State) : (abort c s).peer = s.peer := rfl
@[simp] theorem abort_calls (c : Cause) (s : State) : (abort c s).calls = s.calls := rfl

@[simp] theorem returning_cfg (r : Returned) (s : State) : (returning r s).cfg = s.cfg := rfl
@[simp] theorem returning_pin (r : Returned) (s : State) : (returning r s).pin = s.pin := rfl
@[simp] theorem returning_dir (r : Returned) (s : State) : (returning r s).dir = s.dir := rfl
@[simp] theorem returning_phase (r : Returned) (s : State) : (returning r s).phase = s.phase := rfl
@[simp] theorem returning_life (r : Returned) (s : State) : (returning r s).life = s.life := rfl
@[simp] theorem returning_fault (r : Returned) (s : State) : (returning r s).fault = s.fault := rfl
@[simp] theorem returning_domains (r : Returned) (s : State) : (returning r s).domains = s.domains := rfl
@[simp] theorem returning_trace (r : Returned) (s : State) : (returning r s).trace = s.trace := rfl
@[simp] theorem returning_delivered (r : Returned) (s : State) : (returning r s).delivered = s.delivered := rfl
@[simp] theorem returning_lone (r : Returned) (s : State) : (returning r s).lone = s.lone := rfl
@[simp] theorem returning_result (r : Returned) (s : State) : (returning r s).result = r := rfl
@[simp] theorem returning_wire (r : Returned) (s : State) : (returning r s).wire = s.wire := rfl
@[simp] theorem returning_draws (r : Returned) (s : State) : (returning r s).draws = s.draws := rfl
@[simp] theorem returning_peer (r : Returned) (s : State) : (returning r s).peer = s.peer := rfl
@[simp] theorem returning_calls (r : Returned) (s : State) : (returning r s).calls = s.calls := rfl

@[simp] theorem deliver_cfg (ts : List Transfer) (s : State) : (deliver ts s).cfg = s.cfg := rfl
@[simp] theorem deliver_pin (ts : List Transfer) (s : State) : (deliver ts s).pin = s.pin := rfl
@[simp] theorem deliver_dir (ts : List Transfer) (s : State) : (deliver ts s).dir = s.dir := rfl
@[simp] theorem deliver_phase (ts : List Transfer) (s : State) : (deliver ts s).phase = s.phase := rfl
@[simp] theorem deliver_life (ts : List Transfer) (s : State) : (deliver ts s).life = s.life := rfl
@[simp] theorem deliver_fault (ts : List Transfer) (s : State) : (deliver ts s).fault = s.fault := rfl
@[simp] theorem deliver_domains (ts : List Transfer) (s : State) : (deliver ts s).domains = s.domains := rfl
@[simp] theorem deliver_trace (ts : List Transfer) (s : State) : (deliver ts s).trace = s.trace := rfl
@[simp] theorem deliver_delivered (ts : List Transfer) (s : State) : (deliver ts s).delivered = s.delivered ++ ts := rfl
@[simp] theorem deliver_lone (ts : List Transfer) (s : State) : (deliver ts s).lone = s.lone := rfl
@[simp] theorem deliver_result (ts : List Transfer) (s : State) : (deliver ts s).result = s.result := rfl
@[simp] theorem deliver_wire (ts : List Transfer) (s : State) : (deliver ts s).wire = s.wire := rfl
@[simp] theorem deliver_draws (ts : List Transfer) (s : State) : (deliver ts s).draws = s.draws := rfl
@[simp] theorem deliver_peer (ts : List Transfer) (s : State) : (deliver ts s).peer = s.peer := rfl
@[simp] theorem deliver_calls (ts : List Transfer) (s : State) : (deliver ts s).calls = s.calls := rfl

end Sys2Proof.Machine
end

