-- ==== Sys2Proof/Laws/Ops.lean ====
section
/-! SUPPORT. One lemma per shared operation of Machine/Ops.lean that says everything it does, in the event lists of
Safety.lean. -/

namespace Sys2Proof.Machine

@[simp] theorem nibbleBit_eq (n : Nibble) (k : Nat) : nibbleBit n k = n.getLsbD k := rfl

theorem setDataDirection_eq (i : Bool) (s : State) :
    setDataDirection i s =
      { s with
        trace := s.trace ++ directionEvents (if i then .input else .output)
        dir := if i then .input else .output } := by
  simp [setDataDirection, setMode, emit, directionEvents]

theorem beginTransaction_eq (reg : Reg) (r : Bool) (s : State) :
    beginTransaction reg r s =
      { s with
        pin := { s.pin with rs := .held reg.isData, rw := .held r, e := .held true }
        trace := s.trace ++ beginEvents s.cfg reg r
        lone := false
        phase := .active reg r } := by
  simp [beginTransaction, drive, wait, emit, beginEvents]

theorem continueTransaction_eq (r : Bool) (s : State) :
    continueTransaction r s =
      { s with
        pin := { s.pin with e := .held true }
        trace := s.trace ++ contEvents s.cfg r
        delivered := s.delivered ++ owedTransfers s
        lone := false
        peer := if s.pin.e = .held true then peerReceive s.draws s.dir s.pin s.peer else s.peer
        draws := if s.pin.e = .held true then s.draws + 1 else s.draws } := by
  simp [continueTransaction, drive, wait, emit, contEvents]

theorem endTransaction_eq (s : State) :
    endTransaction s =
      { s with
        pin := { s.pin with e := .held false }
        trace := s.trace ++ endEvents s.cfg
        delivered := s.delivered ++ owedTransfers s
        lone := false
        peer := if s.pin.e = .held true then peerReceive s.draws s.dir s.pin s.peer else s.peer
        draws := if s.pin.e = .held true then s.draws + 1 else s.draws
        phase := .idle } := by
  simp [endTransaction, drive, wait, emit, endEvents]
  rfl

theorem driveNibble_eq (n : Nibble) (s : State) :
    driveNibble n s =
      { s with
        pin := { s.pin with
          d0 := .held (n.getLsbD 0), d1 := .held (n.getLsbD 1), d2 := .held (n.getLsbD 2), d3 := .held (n.getLsbD 3) }
        trace := s.trace ++ nibbleEvents n } := by
  simp [driveNibble, drive, nibbleEvents]

/-! One lemma per field. -/

@[simp] theorem setDataDirection_cfg (i : Bool) (s : State) : (setDataDirection i s).cfg = s.cfg := by rw [setDataDirection_eq]
@[simp] theorem setDataDirection_pin (i : Bool) (s : State) : (setDataDirection i s).pin = s.pin := by rw [setDataDirection_eq]
@[simp] theorem setDataDirection_dir (i : Bool) (s : State) : (setDataDirection i s).dir = if i then .input else .output := by rw [setDataDirection_eq]
@[simp] theorem setDataDirection_phase (i : Bool) (s : State) : (setDataDirection i s).phase = s.phase := by rw [setDataDirection_eq]
@[simp] theorem setDataDirection_life (i : Bool) (s : State) : (setDataDirection i s).life = s.life := by rw [setDataDirection_eq]
@[simp] theorem setDataDirection_fault (i : Bool) (s : State) : (setDataDirection i s).fault = s.fault := by rw [setDataDirection_eq]
@[simp] theorem setDataDirection_domains (i : Bool) (s : State) : (setDataDirection i s).domains = s.domains := by rw [setDataDirection_eq]
@[simp] theorem setDataDirection_delivered (i : Bool) (s : State) : (setDataDirection i s).delivered = s.delivered := by rw [setDataDirection_eq]
@[simp] theorem setDataDirection_lone (i : Bool) (s : State) : (setDataDirection i s).lone = s.lone := by rw [setDataDirection_eq]
@[simp] theorem setDataDirection_result (i : Bool) (s : State) : (setDataDirection i s).result = s.result := by rw [setDataDirection_eq]
@[simp] theorem setDataDirection_wire (i : Bool) (s : State) : (setDataDirection i s).wire = s.wire := by rw [setDataDirection_eq]
@[simp] theorem setDataDirection_calls (i : Bool) (s : State) : (setDataDirection i s).calls = s.calls := by rw [setDataDirection_eq]

@[simp] theorem beginTransaction_cfg (reg : Reg) (r : Bool) (s : State) : (beginTransaction reg r s).cfg = s.cfg := by rw [beginTransaction_eq]
@[simp] theorem beginTransaction_pin (reg : Reg) (r : Bool) (s : State) : (beginTransaction reg r s).pin = { s.pin with rs := .held reg.isData, rw := .held r, e := .held true } := by rw [beginTransaction_eq]
@[simp] theorem beginTransaction_dir (reg : Reg) (r : Bool) (s : State) : (beginTransaction reg r s).dir = s.dir := by rw [beginTransaction_eq]
@[simp] theorem beginTransaction_phase (reg : Reg) (r : Bool) (s : State) : (beginTransaction reg r s).phase = .active reg r := by rw [beginTransaction_eq]
@[simp] theorem beginTransaction_life (reg : Reg) (r : Bool) (s : State) : (beginTransaction reg r s).life = s.life := by rw [beginTransaction_eq]
@[simp] theorem beginTransaction_fault (reg : Reg) (r : Bool) (s : State) : (beginTransaction reg r s).fault = s.fault := by rw [beginTransaction_eq]
@[simp] theorem beginTransaction_domains (reg : Reg) (r : Bool) (s : State) : (beginTransaction reg r s).domains = s.domains := by rw [beginTransaction_eq]
@[simp] theorem beginTransaction_delivered (reg : Reg) (r : Bool) (s : State) : (beginTransaction reg r s).delivered = s.delivered := by rw [beginTransaction_eq]
@[simp] theorem beginTransaction_lone (reg : Reg) (r : Bool) (s : State) : (beginTransaction reg r s).lone = false := by rw [beginTransaction_eq]
@[simp] theorem beginTransaction_result (reg : Reg) (r : Bool) (s : State) : (beginTransaction reg r s).result = s.result := by rw [beginTransaction_eq]
@[simp] theorem beginTransaction_wire (reg : Reg) (r : Bool) (s : State) : (beginTransaction reg r s).wire = s.wire := by rw [beginTransaction_eq]
@[simp] theorem beginTransaction_calls (reg : Reg) (r : Bool) (s : State) : (beginTransaction reg r s).calls = s.calls := by rw [beginTransaction_eq]

@[simp] theorem continueTransaction_cfg (r : Bool) (s : State) : (continueTransaction r s).cfg = s.cfg := by rw [continueTransaction_eq]
@[simp] theorem continueTransaction_pin (r : Bool) (s : State) : (continueTransaction r s).pin = { s.pin with e := .held true } := by rw [continueTransaction_eq]
@[simp] theorem continueTransaction_dir (r : Bool) (s : State) : (continueTransaction r s).dir = s.dir := by rw [continueTransaction_eq]
@[simp] theorem continueTransaction_phase (r : Bool) (s : State) : (continueTransaction r s).phase = s.phase := by rw [continueTransaction_eq]
@[simp] theorem continueTransaction_life (r : Bool) (s : State) : (continueTransaction r s).life = s.life := by rw [continueTransaction_eq]
@[simp] theorem continueTransaction_fault (r : Bool) (s : State) : (continueTransaction r s).fault = s.fault := by rw [continueTransaction_eq]
@[simp] theorem continueTransaction_domains (r : Bool) (s : State) : (continueTransaction r s).domains = s.domains := by rw [continueTransaction_eq]
@[simp] theorem continueTransaction_delivered (r : Bool) (s : State) : (continueTransaction r s).delivered = s.delivered ++ owedTransfers s := by rw [continueTransaction_eq]
@[simp] theorem continueTransaction_lone (r : Bool) (s : State) : (continueTransaction r s).lone = false := by rw [continueTransaction_eq]
@[simp] theorem continueTransaction_result (r : Bool) (s : State) : (continueTransaction r s).result = s.result := by rw [continueTransaction_eq]
@[simp] theorem continueTransaction_wire (r : Bool) (s : State) : (continueTransaction r s).wire = s.wire := by rw [continueTransaction_eq]
@[simp] theorem continueTransaction_calls (r : Bool) (s : State) : (continueTransaction r s).calls = s.calls := by rw [continueTransaction_eq]

@[simp] theorem endTransaction_cfg (s : State) : (endTransaction s).cfg = s.cfg := by rw [endTransaction_eq]
@[simp] theorem endTransaction_pin (s : State) : (endTransaction s).pin = { s.pin with e := .held false } := by rw [endTransaction_eq]
@[simp] theorem endTransaction_dir (s : State) : (endTransaction s).dir = s.dir := by rw [endTransaction_eq]
@[simp] theorem endTransaction_phase (s : State) : (endTransaction s).phase = .idle := by rw [endTransaction_eq]
@[simp] theorem endTransaction_life (s : State) : (endTransaction s).life = s.life := by rw [endTransaction_eq]
@[simp] theorem endTransaction_fault (s : State) : (endTransaction s).fault = s.fault := by rw [endTransaction_eq]
@[simp] theorem endTransaction_domains (s : State) : (endTransaction s).domains = s.domains := by rw [endTransaction_eq]
@[simp] theorem endTransaction_delivered (s : State) : (endTransaction s).delivered = s.delivered ++ owedTransfers s := by rw [endTransaction_eq]
@[simp] theorem endTransaction_lone (s : State) : (endTransaction s).lone = false := by rw [endTransaction_eq]
@[simp] theorem endTransaction_result (s : State) : (endTransaction s).result = s.result := by rw [endTransaction_eq]
@[simp] theorem endTransaction_wire (s : State) : (endTransaction s).wire = s.wire := by rw [endTransaction_eq]
@[simp] theorem endTransaction_calls (s : State) : (endTransaction s).calls = s.calls := by rw [endTransaction_eq]

@[simp] theorem driveNibble_cfg (n : Nibble) (s : State) : (driveNibble n s).cfg = s.cfg := by rw [driveNibble_eq]
@[simp] theorem driveNibble_pin (n : Nibble) (s : State) : (driveNibble n s).pin = { s.pin with
        d0 := .held (n.getLsbD 0), d1 := .held (n.getLsbD 1), d2 := .held (n.getLsbD 2), d3 := .held (n.getLsbD 3) } := by rw [driveNibble_eq]
@[simp] theorem driveNibble_dir (n : Nibble) (s : State) : (driveNibble n s).dir = s.dir := by rw [driveNibble_eq]
@[simp] theorem driveNibble_phase (n : Nibble) (s : State) : (driveNibble n s).phase = s.phase := by rw [driveNibble_eq]
@[simp] theorem driveNibble_life (n : Nibble) (s : State) : (driveNibble n s).life = s.life := by rw [driveNibble_eq]
@[simp] theorem driveNibble_fault (n : Nibble) (s : State) : (driveNibble n s).fault = s.fault := by rw [driveNibble_eq]
@[simp] theorem driveNibble_domains (n : Nibble) (s : State) : (driveNibble n s).domains = s.domains := by rw [driveNibble_eq]
@[simp] theorem driveNibble_delivered (n : Nibble) (s : State) : (driveNibble n s).delivered = s.delivered := by rw [driveNibble_eq]
@[simp] theorem driveNibble_lone (n : Nibble) (s : State) : (driveNibble n s).lone = s.lone := by rw [driveNibble_eq]
@[simp] theorem driveNibble_result (n : Nibble) (s : State) : (driveNibble n s).result = s.result := by rw [driveNibble_eq]
@[simp] theorem driveNibble_wire (n : Nibble) (s : State) : (driveNibble n s).wire = s.wire := by rw [driveNibble_eq]
@[simp] theorem driveNibble_calls (n : Nibble) (s : State) : (driveNibble n s).calls = s.calls := by rw [driveNibble_eq]

@[simp] theorem sampleNibble_cfg (s : State) : (sampleNibble s).2.cfg = s.cfg := rfl
@[simp] theorem sampleNibble_pin (s : State) : (sampleNibble s).2.pin = s.pin := rfl
@[simp] theorem sampleNibble_dir (s : State) : (sampleNibble s).2.dir = s.dir := rfl
@[simp] theorem sampleNibble_phase (s : State) : (sampleNibble s).2.phase = s.phase := rfl
@[simp] theorem sampleNibble_life (s : State) : (sampleNibble s).2.life = s.life := rfl
@[simp] theorem sampleNibble_fault (s : State) : (sampleNibble s).2.fault = s.fault := rfl
@[simp] theorem sampleNibble_domains (s : State) : (sampleNibble s).2.domains = s.domains := rfl
@[simp] theorem sampleNibble_delivered (s : State) : (sampleNibble s).2.delivered = s.delivered := rfl
@[simp] theorem sampleNibble_lone (s : State) : (sampleNibble s).2.lone = s.lone := rfl
@[simp] theorem sampleNibble_result (s : State) : (sampleNibble s).2.result = s.result := rfl
@[simp] theorem sampleNibble_calls (s : State) : (sampleNibble s).2.calls = s.calls := rfl

/-! These leave the peer as it was: none of them lets E fall. -/

@[simp] theorem setDataDirection_peer (i : Bool) (s : State) : (setDataDirection i s).peer = s.peer := by
  rw [setDataDirection_eq]

@[simp] theorem beginTransaction_peer (reg : Reg) (r : Bool) (s : State) : (beginTransaction reg r s).peer = s.peer := by
  rw [beginTransaction_eq]

@[simp] theorem driveNibble_peer (n : Nibble) (s : State) : (driveNibble n s).peer = s.peer := by
  rw [driveNibble_eq]

@[simp] theorem sampleNibble_peer (s : State) : (sampleNibble s).2.peer = s.peer := rfl

end Sys2Proof.Machine
end

