-- ==== Sys2Proof/Laws/Transfer.lean ====
section
/-! SUPPORT. What the loops and the whole transfers do: driveBytes, sampleBytes, busWriteBytes, busReadBytes, busWriteNibble,
emitRuns. -/

namespace Sys2Proof.Machine

/-! ## Nibbles -/

theorem highNibble_getLsbD (b : Byte) (k : Nat) (h : k < 4) : (highNibble b).getLsbD k = b.getLsbD (4 + k) := by
  simp [highNibble, h]

theorem lowNibble_getLsbD (b : Byte) (k : Nat) (h : k < 4) : (lowNibble b).getLsbD k = b.getLsbD k := by
  have h4 : k = 0 ∨ k = 1 ∨ k = 2 ∨ k = 3 := by omega
  rcases h4 with rfl | rfl | rfl | rfl <;> simp [lowNibble]

theorem byteOf_nibbles (b : Byte) : byteOf (highNibble b) (lowNibble b) = b := by
  apply BitVec.eq_of_getLsbD_eq
  intro i hi
  have h8 : i = 0 ∨ i = 1 ∨ i = 2 ∨ i = 3 ∨ i = 4 ∨ i = 5 ∨ i = 6 ∨ i = 7 := by omega
  rcases h8 with rfl | rfl | rfl | rfl | rfl | rfl | rfl | rfl <;> simp [byteOf, highNibble, lowNibble]

theorem nibbleOf_bits (n : Nibble) :
    nibbleOf (n.getLsbD 0) (n.getLsbD 1) (n.getLsbD 2) (n.getLsbD 3) = n := by
  have h : ∀ m : Fin (2 ^ 4), nibbleOf ((BitVec.ofFin m).getLsbD 0) ((BitVec.ofFin m).getLsbD 1)
      ((BitVec.ofFin m).getLsbD 2) ((BitVec.ofFin m).getLsbD 3) = BitVec.ofFin m := by decide
  exact h n.toFin

theorem nibbleOf_getLsbD (a b c d : Bool) :
    (nibbleOf a b c d).getLsbD 0 = a ∧ (nibbleOf a b c d).getLsbD 1 = b ∧
    (nibbleOf a b c d).getLsbD 2 = c ∧ (nibbleOf a b c d).getLsbD 3 = d := by
  revert a b c d; decide

theorem highNibble_byteOf (h l : Nibble) : highNibble (byteOf h l) = h := by
  apply BitVec.eq_of_getLsbD_eq
  intro i hi
  have h4 : i = 0 ∨ i = 1 ∨ i = 2 ∨ i = 3 := by omega
  rcases h4 with rfl | rfl | rfl | rfl <;> simp [byteOf, highNibble]

theorem lowNibble_byteOf (h l : Nibble) : lowNibble (byteOf h l) = l := by
  apply BitVec.eq_of_getLsbD_eq
  intro i hi
  have h4 : i = 0 ∨ i = 1 ∨ i = 2 ∨ i = 3 := by omega
  rcases h4 with rfl | rfl | rfl | rfl <;> simp [byteOf, lowNibble]

/-! ## Writing -/

theorem bytesWriteEvents_cons (c : Config) (b d : Byte) (rest : List Byte) :
    bytesWriteEvents c (b :: d :: rest) = byteWriteEvents c b ++ contEvents c false ++ bytesWriteEvents c (d :: rest) := by
  simp [bytesWriteEvents, List.intercalate]

theorem bytesReadEvents_cons (c : Config) (b d : Byte) (rest : List Byte) :
    bytesReadEvents c (b :: d :: rest) = byteReadEvents c b ++ contEvents c true ++ bytesReadEvents c (d :: rest) := by
  simp [bytesReadEvents, List.intercalate]

@[simp] theorem bytesWriteEvents_one (c : Config) (b : Byte) : bytesWriteEvents c [b] = byteWriteEvents c b := by
  simp [bytesWriteEvents, List.intercalate]

@[simp] theorem bytesReadEvents_one (c : Config) (b : Byte) : bytesReadEvents c [b] = byteReadEvents c b := by
  simp [bytesReadEvents, List.intercalate]

theorem driveBytes_eq (b : Byte) : ∀ (bs : List Byte), bs.getLast? = some b → ∀ s : State, s.lone = false →
    ∃ p n, driveBytes bs s =
      { s with
        pin := { s.pin with
          e := .held true
          d0 := .held ((lowNibble b).getLsbD 0), d1 := .held ((lowNibble b).getLsbD 1)
          d2 := .held ((lowNibble b).getLsbD 2), d3 := .held ((lowNibble b).getLsbD 3) }
        trace := s.trace ++ bytesWriteEvents s.cfg bs
        peer := p, draws := n }
  | [], h, _, _ => by simp at h
  | [c], h, s, hl => by
    obtain rfl : c = b := by simpa using h
    exact ⟨(driveBytes [c] s).peer, (driveBytes [c] s).draws, by
      simp only [driveBytes, driveNibble_eq, continueTransaction_eq, bytesWriteEvents_one, byteWriteEvents,
        List.append_assoc]
      rw [owedTransfers_of_not_lone (by exact hl), List.append_nil, hl]⟩
  | c :: d :: rest, h, s, hl => by
    have h' : (d :: rest).getLast? = some b := by simpa using h
    obtain ⟨p, n, e⟩ := driveBytes_eq b (d :: rest) h'
      (s |> driveNibble (highNibble c) |> continueTransaction false |> driveNibble (lowNibble c)
        |> continueTransaction false) (continueTransaction_lone ..)
    refine ⟨p, n, ?_⟩
    rw [driveBytes, e]
    simp only [driveNibble_eq, continueTransaction_eq, bytesWriteEvents_cons, byteWriteEvents, List.append_assoc]
    rw [owedTransfers_of_not_lone (by exact hl), owedTransfers_of_not_lone (by rfl), List.append_nil, List.append_nil, hl]

theorem busWriteBytes_nil (reg : Reg) (s : State) : busWriteBytes reg [] s = s := by simp [busWriteBytes]

/-- A write from `Idle` (R116). -/
theorem busWriteBytes_idle (reg : Reg) (bytes : List Byte) (s : State) (h : s.phase = .idle) :
    Wrote s (busWriteBytes reg bytes s) reg bytes := by
  by_cases hb : bytes = []
  · subst hb
    rw [busWriteBytes_nil]
    exact ⟨⟨rfl, rfl, rfl, rfl, rfl, rfl⟩, by simp [writeEvents], by simp, h, rfl, fun _ => ⟨rfl, rfl, rfl⟩, by simp, by simp⟩
  · obtain ⟨b, hl⟩ := Option.isSome_iff_exists.mp (by simpa using hb : bytes.getLast?.isSome = true)
    have ho : openWrite reg s = beginTransaction reg false (setDataDirection false s) := by simp [openWrite, h]
    obtain ⟨p, n, e⟩ := driveBytes_eq b bytes hl (openWrite reg s) (by rw [ho, beginTransaction_lone])
    have key : busWriteBytes reg bytes s = deliver (bytes.map fun b => ⟨reg, false, .byte b⟩)
        (endTransaction (driveBytes bytes (openWrite reg s))) := by simp [busWriteBytes, hb]
    rw [key, e, ho]
    simp only [endTransaction_eq, beginTransaction_eq, setDataDirection_eq]
    rw [owedTransfers_of_not_lone (by rfl), List.append_nil]
    refine ⟨⟨rfl, rfl, rfl, rfl, rfl, rfl⟩, ?_, rfl, rfl, rfl, fun h => absurd h hb, ?_, by simp [hb]⟩
    · simp [writeEvents, hb]
    · intro b' hb'
      rw [hl] at hb'
      cases hb'
      exact ⟨rfl, rfl⟩

/-- A write that joins an open transaction (R119). -/
theorem busWriteBytes_join (reg : Reg) (bytes : List Byte) (b : Byte) (hl : bytes.getLast? = some b) (s : State)
    (r : Reg) (d : Bool) (h : s.phase = .active r d) :
    ∃ p n, busWriteBytes reg bytes s =
      { s with
        pin := { s.pin with
          e := .held false
          d0 := .held ((lowNibble b).getLsbD 0), d1 := .held ((lowNibble b).getLsbD 1)
          d2 := .held ((lowNibble b).getLsbD 2), d3 := .held ((lowNibble b).getLsbD 3) }
        trace := s.trace ++ joinEvents s.cfg bytes
        delivered := s.delivered ++ owedTransfers s ++ bytes.map fun b => ⟨reg, false, .byte b⟩
        lone := false
        peer := p, draws := n
        phase := .idle } := by
  have hb : bytes ≠ [] := by rintro rfl; simp at hl
  have ho : openWrite reg s = continueTransaction false s := by simp [openWrite, h]
  obtain ⟨p, n, e⟩ := driveBytes_eq b bytes hl (openWrite reg s) (by rw [ho, continueTransaction_lone])
  have key : busWriteBytes reg bytes s = deliver (bytes.map fun b => ⟨reg, false, .byte b⟩)
      (endTransaction (driveBytes bytes (openWrite reg s))) := by simp [busWriteBytes, hb]
  refine ⟨(busWriteBytes reg bytes s).peer, (busWriteBytes reg bytes s).draws, ?_⟩
  rw [key, e, ho]
  simp only [endTransaction_eq, continueTransaction_eq, deliver, joinEvents, List.append_assoc]
  rw [owedTransfers_of_not_lone (s := { s with
    pin := _, trace := _, delivered := _, lone := false, peer := _, draws := _ }) rfl, List.nil_append]

/-! ## Reading -/

theorem sampleNibble_eq (s : State) :
    (sampleNibble s).2 =
      { s with
        wire := s.wire.drop 4, draws := s.draws + 4
        trace := s.trace ++ sampleEvents (sampleNibble s).1 } := by
  have h := nibbleOf_getLsbD
  simp only [sampleNibble, sample, sampleEvents, List.append_assoc, List.cons_append, List.nil_append,
    ← List.drop_one, List.drop_drop, (h _ _ _ _).1, (h _ _ _ _).2.1, (h _ _ _ _).2.2.1, (h _ _ _ _).2.2.2]

theorem sampleNibble_wire (n : Nibble) (rest : List Level) (s : State)
    (h : s.wire = n.getLsbD 0 :: n.getLsbD 1 :: n.getLsbD 2 :: n.getLsbD 3 :: rest) : (sampleNibble s).1 = n := by
  simp only [sampleNibble, sample, wireLevel, h, List.tail_cons, nibbleOf_bits]

theorem sampleByte_eq (s : State) (hl : s.lone = false) :
    ∃ p n, (sampleByte s).2 =
      { s with
        pin := { s.pin with e := .held true }
        wire := s.wire.drop 8
        trace := s.trace ++ byteReadEvents s.cfg (sampleByte s).1
        peer := p, draws := n } := by
  refine ⟨(sampleByte s).2.peer, (sampleByte s).2.draws, ?_⟩
  simp only [sampleByte, sampleNibble_eq, continueTransaction_eq, byteReadEvents, highNibble_byteOf, lowNibble_byteOf,
    List.append_assoc, List.drop_drop]
  rw [owedTransfers_of_not_lone (by exact hl), List.append_nil, hl]

theorem sampleByte_drops (s : State) : (sampleByte s).2.wire = s.wire.drop 8 := by
  simp only [sampleByte, sampleNibble_eq, continueTransaction_eq, List.drop_drop]

theorem sampleByte_wire (b : Byte) (rest : List Level) (s : State) (h : s.wire = byteLevels b ++ rest) :
    (sampleByte s).1 = b := by
  have h1 : (sampleNibble s).1 = highNibble b := by
    apply sampleNibble_wire (rest := (byteLevels b ++ rest).drop 4)
    simp only [h, byteLevels, highNibble_getLsbD b _ (by decide : (0 : Nat) < 4), highNibble_getLsbD b _ (by decide : 1 < 4),
      highNibble_getLsbD b _ (by decide : 2 < 4), highNibble_getLsbD b _ (by decide : 3 < 4), List.cons_append,
      List.nil_append, List.drop_succ_cons, List.drop_zero]
  have h2 : (sampleNibble (continueTransaction true (sampleNibble s).2)).1 = lowNibble b := by
    apply sampleNibble_wire (rest := rest)
    rw [continueTransaction_eq, sampleNibble_eq]
    simp only [h, byteLevels, lowNibble_getLsbD b _ (by decide : (0 : Nat) < 4), lowNibble_getLsbD b _ (by decide : 1 < 4),
      lowNibble_getLsbD b _ (by decide : 2 < 4), lowNibble_getLsbD b _ (by decide : 3 < 4), List.cons_append,
      List.nil_append, List.drop_succ_cons, List.drop_zero]
  simp only [sampleByte, h1, h2, byteOf_nibbles]

theorem sampleBytes_length : ∀ (k : Nat) (s : State), (sampleBytes k s).1.length = k
  | 0, _ => rfl
  | 1, _ => rfl
  | k + 2, s => by simp [sampleBytes, sampleBytes_length (k + 1)]

theorem sampleBytes_eq : ∀ (k : Nat) (s : State), k ≠ 0 → s.lone = false →
    ∃ p n, (sampleBytes k s).2 =
      { s with
        pin := { s.pin with e := .held true }
        wire := s.wire.drop (8 * k)
        trace := s.trace ++ bytesReadEvents s.cfg (sampleBytes k s).1
        peer := p, draws := n }
  | 0, _, h, _ => absurd rfl h
  | 1, s, _, hl => by
    obtain ⟨p, n, e⟩ := sampleByte_eq s hl
    exact ⟨p, n, by simp only [sampleBytes, bytesReadEvents_one]; rw [e]⟩
  | k + 2, s, _, hs => by
    obtain ⟨p, n, e⟩ := sampleByte_eq s hs
    obtain ⟨p', n', e'⟩ := sampleBytes_eq (k + 1) (continueTransaction true (sampleByte s).2) (by omega)
      (continueTransaction_lone ..)
    refine ⟨p', n', ?_⟩
    have hl := sampleBytes_length (k + 1) (continueTransaction true (sampleByte s).2)
    obtain ⟨b, rest, hb⟩ := List.exists_cons_of_length_eq_add_one hl
    simp only [sampleBytes]
    rw [e', hb, bytesReadEvents_cons, e, continueTransaction_eq]
    simp only [List.append_assoc, List.drop_drop]
    rw [owedTransfers_of_not_lone (by exact hs), List.append_nil, hs]
    congr 2
    omega

theorem sampleBytes_wire : ∀ (bs : List Byte) (rest : List Level) (s : State),
    s.wire = bs.flatMap byteLevels ++ rest → (sampleBytes bs.length s).1 = bs
  | [], _, _, _ => rfl
  | [b], rest, s, h => by
    have : s.wire = byteLevels b ++ rest := by simpa using h
    simp [sampleBytes, sampleByte_wire b rest s this]
  | b :: c :: bs, rest, s, h => by
    have h1 : s.wire = byteLevels b ++ ((c :: bs).flatMap byteLevels ++ rest) := by
      rw [h, List.flatMap_cons, List.append_assoc]
    have h2 := sampleByte_wire b _ s h1
    have h3 : (continueTransaction true (sampleByte s).2).wire = (c :: bs).flatMap byteLevels ++ rest := by
      rw [continueTransaction_wire, sampleByte_drops, h1]
      simp [byteLevels]
    have h4 := sampleBytes_wire (c :: bs) rest _ h3
    simp only [List.length_cons, sampleBytes, h2] at h4 ⊢
    rw [h4]

theorem busReadBytes_length (reg : Reg) (k : Nat) (s : State) : (busReadBytes reg k s).1.length = k := by
  unfold busReadBytes
  split
  · simp_all
  · simp [sampleBytes_length]

/-- A read from `Idle` (R117). -/
theorem busReadBytes_idle (reg : Reg) (k : Nat) (s : State) (h : s.phase = .idle) :
    Read s (busReadBytes reg k s).2 reg (busReadBytes reg k s).1 := by
  by_cases hk : k = 0
  · subst hk
    exact ⟨⟨rfl, rfl, rfl, rfl, rfl, rfl⟩, by simp [busReadBytes, readEvents], by simp [busReadBytes], h, rfl,
      fun _ => ⟨rfl, rfl, rfl⟩, by simp [busReadBytes], by simp [busReadBytes]⟩
  · obtain ⟨p, n, e⟩ := sampleBytes_eq k (beginTransaction reg true (setDataDirection true s)) hk (beginTransaction_lone ..)
    have hl := sampleBytes_length k (beginTransaction reg true (setDataDirection true s))
    have hne : (sampleBytes k (beginTransaction reg true (setDataDirection true s))).1 ≠ [] := by
      intro h0; rw [h0] at hl; exact hk hl.symm
    simp only [busReadBytes, hk, if_false]
    rw [e]
    generalize (sampleBytes k (beginTransaction reg true (setDataDirection true s))).1 = bs at hl hne ⊢
    simp only [endTransaction_eq, beginTransaction_eq, setDataDirection_eq]
    rw [owedTransfers_of_not_lone (by rfl), List.append_nil]
    refine ⟨⟨rfl, rfl, rfl, rfl, rfl, rfl⟩, ?_, rfl, rfl, ?_, fun h => absurd h hne, fun _ => ⟨rfl, rfl⟩, by simp [hne]⟩
    · simp [readEvents, hne]
    · simp [hl]

theorem busReadBytes_wire (reg : Reg) (bs : List Byte) (rest : List Level) (s : State)
    (h : s.wire = bs.flatMap byteLevels ++ rest) : (busReadBytes reg bs.length s).1 = bs := by
  unfold busReadBytes
  split
  · simp_all
  · apply sampleBytes_wire bs rest
    rw [beginTransaction_eq, setDataDirection_eq]
    exact h

/-! ## What an operation hands back is no part of these facts -/

theorem Wrote.returning {s t : State} {reg : Reg} {bs : List Byte} (h : Wrote s t reg bs) (r : Returned) :
    Wrote s (returning r t) reg bs :=
  ⟨⟨h.kept.cfg, h.kept.life, h.kept.fault, h.kept.domains, h.kept.backlight, h.kept.calls⟩, h.trace, h.delivered, h.phase,
    h.wire, h.none, h.last, h.lone⟩

theorem Read.returning {s t : State} {reg : Reg} {bs : List Byte} (h : Read s t reg bs) (r : Returned) :
    Read s (returning r t) reg bs :=
  ⟨⟨h.kept.cfg, h.kept.life, h.kept.fault, h.kept.domains, h.kept.backlight, h.kept.calls⟩, h.trace, h.delivered, h.phase,
    h.wire, h.none, h.some, h.lone⟩

theorem Emitted.returning {s t : State} {items : List Item} (h : Emitted s t items) (r : Returned) :
    Emitted s (returning r t) items :=
  ⟨⟨h.kept.cfg, h.kept.life, h.kept.fault, h.kept.domains, h.kept.backlight, h.kept.calls⟩, h.trace, h.delivered, h.phase,
    h.wire, h.none, h.last, h.lone⟩

/-! ## How many events (R116, R117, R119) -/

theorem byteWriteEvents_length (c : Config) (b : Byte) : (byteWriteEvents c b).length = 13 := by
  simp [byteWriteEvents, nibbleEvents, contEvents]

theorem byteReadEvents_length (c : Config) (b : Byte) : (byteReadEvents c b).length = 13 := by
  simp [byteReadEvents, sampleEvents, contEvents]

theorem bytesWriteEvents_length (c : Config) : ∀ bs : List Byte, bs ≠ [] →
    (bytesWriteEvents c bs).length + 5 = 18 * bs.length
  | [], h => absurd rfl h
  | [b], _ => by simp [byteWriteEvents_length]
  | b :: d :: r, _ => by
    have := bytesWriteEvents_length c (d :: r) (by simp)
    rw [bytesWriteEvents_cons]
    simp [byteWriteEvents_length, contEvents] at this ⊢
    omega

theorem bytesReadEvents_length (c : Config) : ∀ bs : List Byte, bs ≠ [] →
    (bytesReadEvents c bs).length + 5 = 18 * bs.length
  | [], h => absurd rfl h
  | [b], _ => by simp [byteReadEvents_length]
  | b :: d :: r, _ => by
    have := bytesReadEvents_length c (d :: r) (by simp)
    rw [bytesReadEvents_cons]
    simp [byteReadEvents_length, contEvents] at this ⊢
    omega

theorem writeEvents_length (c : Config) (reg : Reg) (bs : List Byte) (h : bs ≠ []) :
    (writeEvents c reg bs).length = 18 * bs.length + 7 := by
  have := bytesWriteEvents_length c bs h
  simp [writeEvents, h, directionEvents, beginEvents, endEvents]
  omega

theorem readEvents_length (c : Config) (reg : Reg) (bs : List Byte) (h : bs ≠ []) :
    (readEvents c reg bs).length = 18 * bs.length + 7 := by
  have := bytesReadEvents_length c bs h
  simp [readEvents, h, directionEvents, beginEvents, endEvents]
  omega

theorem joinEvents_length (c : Config) (bs : List Byte) (h : bs ≠ []) :
    (joinEvents c bs).length = 18 * bs.length + 3 := by
  have := bytesWriteEvents_length c bs h
  simp [joinEvents, contEvents, endEvents]
  omega

/-! ## Lone nibbles and items -/

/-- What is owed for a lone nibble that stands on the latches with E high (R118, R121). -/
theorem owedTransfers_driven (reg : Reg) (nib : Nibble) (s : State) (hl : s.lone = true) (he : s.pin.e = .held true)
    (hs : s.pin.rs = .held reg.isData) (hw : s.pin.rw = .held false) (h0 : s.pin.d0 = .held (nib.getLsbD 0))
    (h1 : s.pin.d1 = .held (nib.getLsbD 1)) (h2 : s.pin.d2 = .held (nib.getLsbD 2)) (h3 : s.pin.d3 = .held (nib.getLsbD 3)) :
    owedTransfers s = [⟨reg, false, .nibble nib⟩] := by
  simp only [owedTransfers, latchNibble, hl, he, hs, hw, h0, h1, h2, h3, nibbleOf_bits, rwReadLevel, rsDataLevel]
  cases reg <;> rfl

/-- A lone nibble (R118); closed, it is one frame on the latches to the peer. -/
theorem busWriteNibble_eq (reg : Reg) (nib : Nibble) (t : Bool) (s : State) :
    busWriteNibble reg nib t s =
      { s with
        pin := latchesAfterWrite s.pin reg (!t) nib
        dir := .output
        trace := s.trace ++ nibbleWriteEvents s.cfg reg nib ++ (if t then endEvents s.cfg else [])
        delivered := if t then s.delivered ++ [⟨reg, false, .nibble nib⟩] else s.delivered
        lone := !t
        phase := if t then .idle else .active reg false
        peer := if t then peerReceive s.draws .output (latchesAfterWrite s.pin reg true nib) s.peer else s.peer
        draws := if t then s.draws + 1 else s.draws } := by
  cases t <;>
    simp [busWriteNibble, endTransaction_eq, driveNibble_eq, beginTransaction_eq, setDataDirection_eq,
      nibbleWriteEvents, latchesAfterWrite]
  exact owedTransfers_driven reg nib _ rfl rfl rfl rfl rfl rfl rfl rfl

/-- A read frame: the nibble the peer presents is sampled, the levels on the wires before stay (R93). -/
theorem busReadNibble_eq (reg : Reg) (nib : Nibble) (s : State) :
    (busReadNibble reg nib s).1 = nib ∧ ∃ p n, (busReadNibble reg nib s).2 =
      { s with
        pin := { s.pin with rs := .held reg.isData, rw := .held true, e := .held false }
        dir := .input
        phase := .idle
        trace := s.trace ++ directionEvents .input ++ beginEvents s.cfg reg true ++ sampleEvents nib ++ endEvents s.cfg
        delivered := s.delivered ++ [⟨reg, true, .nibble nib⟩]
        lone := false
        peer := p, draws := n } := by
  have h1 : (busReadNibble reg nib s).1 = nib := by
    simp only [busReadNibble]
    exact sampleNibble_wire nib _ _ rfl
  refine ⟨h1, (busReadNibble reg nib s).2.peer, (busReadNibble reg nib s).2.draws, ?_⟩
  simp only [busReadNibble] at h1
  simp only [busReadNibble, sampleNibble_eq, endTransaction_eq, beginTransaction_eq, setDataDirection_eq, deliver,
    List.cons_append, List.nil_append, List.drop_succ_cons, List.drop_zero]
  rw [beginTransaction_eq, setDataDirection_eq] at h1
  simp only [nibbleBit_eq, List.cons_append, List.nil_append] at h1 ⊢
  rw [h1]
  simp
  exact owedTransfers_of_not_lone rfl

/-- The three wakes of ENABLE (R217): two whole nibbles, and the third left open. -/
theorem wakeRitual_eq (s : State) :
    wakeRitual s =
      { s with
        pin := latchesAfterWrite s.pin .command true s.cfg.wakeNibble
        dir := .output
        phase := .active .command false
        life := .poweredOn
        trace := s.trace ++ [.wait (wPowerOn s.cfg)] ++ nibbleWriteEvents s.cfg .command s.cfg.wakeNibble ++
          endEvents s.cfg ++ [.wait (wWake1 s.cfg)] ++ nibbleWriteEvents s.cfg .command s.cfg.wakeNibble ++
          endEvents s.cfg ++ [.wait (wWake2 s.cfg)] ++ nibbleWriteEvents s.cfg .command s.cfg.wakeNibble
        delivered := s.delivered ++ List.replicate 2 ⟨.command, false, .nibble s.cfg.wakeNibble⟩
        lone := true
        peer := peerReceive (s.draws + 1) .output (latchesAfterWrite s.pin .command true s.cfg.wakeNibble)
          (peerReceive s.draws .output (latchesAfterWrite s.pin .command true s.cfg.wakeNibble) s.peer)
        draws := s.draws + 2 } := by
  simp [wakeRitual, wait, emit, busWriteNibble_eq, latchesAfterWrite, List.replicate]

end Sys2Proof.Machine
end

