-- ==== Sys2Proof/Laws/Text.lean ====
section
/-! SUPPORT. The Text Interpreter (44_text_interpreter R196, R203): runs, and what the emission of items does. -/

namespace Sys2Proof.Machine

/-- The items of a list of runs. -/
def itemsOf (runs : List (Reg × List Byte)) : List Item := runs.flatMap fun run => run.2.map fun b => (run.1, b)

/-- The runs of a list of items, put together, are the items. -/
theorem itemsOf_runsOf : ∀ items : List Item, itemsOf (runsOf items) = items
  | [] => rfl
  | (reg, b) :: rest => by
    have ih := itemsOf_runsOf rest
    rw [runsOf]
    split
    · next h => rw [h] at ih; simp [itemsOf] at ih ⊢; exact ih
    · next r bs more h =>
      rw [h] at ih
      by_cases hr : reg = r
      · rw [if_pos hr, ← ih]; subst hr; simp [itemsOf]
      · rw [if_neg hr, ← ih]; simp [itemsOf]

theorem runsOf_ne_nil : ∀ (items : List Item) (run : Reg × List Byte), run ∈ runsOf items → run.2 ≠ []
  | [], _, h => by simp [runsOf] at h
  | (reg, b) :: rest, run, h => by
    rw [runsOf] at h
    split at h
    · simp at h; simp [h]
    · next r bs more hm =>
      have ih := runsOf_ne_nil rest
      rw [hm] at ih
      split at h
      · simp at h
        rcases h with h | h
        · simp [h]
        · exact ih run (by simp [h])
      · simp at h
        rcases h with h | h | h
        · simp [h]
        · exact ih run (by simp [h])
        · exact ih run (by simp [h])

theorem runsOf_isEmpty (items : List Item) : (runsOf items).isEmpty = items.isEmpty := by
  cases items with
  | nil => rfl
  | cons i rest =>
    obtain ⟨reg, b⟩ := i
    rw [runsOf]
    split
    · rfl
    · split <;> rfl

/-- What a first run of bytes and the emission of the rest do together. -/
theorem emitRuns_eq : ∀ (runs : List (Reg × List Byte)) (s : State), s.phase = .idle → (∀ run ∈ runs, run.2 ≠ []) →
    let t := emitRuns runs s
    Kept s t ∧ t.trace = s.trace ++ runs.flatMap (fun run => writeEvents s.cfg run.1 run.2) ∧
    t.delivered = s.delivered ++ itemTransfers (itemsOf runs) ∧ t.phase = .idle ∧ t.wire = s.wire ∧
    (runs = [] → t = s) ∧
    (∀ i, (itemsOf runs).getLast? = some i → t.dir = .output ∧ t.pin = latchesAfterWrite s.pin i.1 false (lowNibble i.2)) ∧
    t.lone = (s.lone && runs.isEmpty)
  | [], s, h, _ => ⟨⟨rfl, rfl, rfl, rfl, rfl, rfl⟩, by simp [emitRuns], by simp [emitRuns, itemTransfers, itemsOf], h, rfl,
      fun _ => rfl, by simp [itemsOf], by simp [emitRuns]⟩
  | (reg, bs) :: more, s, h, hne => by
    have w := busWriteBytes_idle reg bs s h
    have hbs : bs ≠ [] := hne (reg, bs) (by simp)
    obtain ⟨k, tr, de, ph, wi, -, la, lo⟩ := emitRuns_eq more (busWriteBytes reg bs s) w.phase
      (fun run hr => hne run (by simp [hr]))
    refine ⟨⟨by rw [emitRuns, k.cfg, w.kept.cfg], by rw [emitRuns, k.life, w.kept.life],
      by rw [emitRuns, k.fault, w.kept.fault], by rw [emitRuns, k.domains, w.kept.domains],
      by rw [emitRuns, k.backlight, w.kept.backlight], by rw [emitRuns, k.calls, w.kept.calls]⟩, ?_, ?_, ph, ?_, by simp, ?_, ?_⟩
    · rw [emitRuns, tr, w.trace, w.kept.cfg]; simp
    · rw [emitRuns, de, w.delivered]; simp [itemTransfers, itemsOf]
    · rw [emitRuns, wi, w.wire]
    · intro i hi
      rw [emitRuns]
      by_cases hm : itemsOf more = []
      · have : more = [] := by
          cases more with
          | nil => rfl
          | cons run rest =>
            have := hne run (by simp)
            obtain ⟨r, l⟩ := run
            cases l with
            | nil => exact absurd rfl this
            | cons => simp [itemsOf] at hm
        subst this
        obtain ⟨b, hb⟩ := Option.isSome_iff_exists.mp (by simpa using hbs : bs.getLast?.isSome = true)
        have : i = (reg, b) := by
          have hi' : (bs.map fun b => (reg, b)).getLast? = some i := by simpa [itemsOf] using hi
          rw [List.getLast?_map, hb] at hi'
          exact (Option.some.inj hi').symm
        subst this
        exact w.last b hb
      · obtain ⟨j, hj⟩ := Option.isSome_iff_exists.mp (by simpa using hm : (itemsOf more).getLast?.isSome = true)
        have : i = j := by
          have hi' : ((bs.map fun b => (reg, b)) ++ itemsOf more).getLast? = some i := by simpa [itemsOf] using hi
          rw [List.getLast?_append, hj] at hi'
          exact (Option.some.inj hi').symm
        subst this
        obtain ⟨d, p⟩ := la i hj
        obtain ⟨b, hb⟩ := Option.isSome_iff_exists.mp (by simpa using hbs : bs.getLast?.isSome = true)
        refine ⟨d, ?_⟩
        rw [p, (w.last b hb).2]
        rfl
    · rw [emitRuns, lo, w.lone]
      simp [hbs]

/-- The emission of items from `Idle` (R203). -/
theorem emitItems_idle (items : List Item) (s : State) (h : s.phase = .idle) : Emitted s (emitItems items s) items := by
  obtain ⟨k, tr, de, ph, wi, no, la, lo⟩ := emitRuns_eq (runsOf items) s h (runsOf_ne_nil items)
  rw [itemsOf_runsOf] at de la
  refine ⟨k, tr, de, ph, wi, ?_, la, ?_⟩
  · rintro rfl
    have : emitItems [] s = s := no rfl
    rw [this]
    exact ⟨rfl, rfl, rfl⟩
  · rw [emitItems, lo, runsOf_isEmpty]

/-- One item is one transaction of one byte. -/
theorem emitItems_one (reg : Reg) (b : Byte) (s : State) : emitItems [(reg, b)] s = busWriteBytes reg [b] s := rfl

/-- Items of one register are one run. -/
theorem runsOf_map (reg : Reg) : ∀ bs : List Byte, bs ≠ [] → runsOf (bs.map fun b => (reg, b)) = [(reg, bs)]
  | [], h => absurd rfl h
  | [_], _ => rfl
  | b :: c :: rest, _ => by rw [List.map_cons, runsOf, runsOf_map reg (c :: rest) (by simp)]; simp

/-- Items of one register are one transaction, or nothing. -/
theorem emitItems_map (reg : Reg) (bs : List Byte) (s : State) :
    emitItems (bs.map fun b => (reg, b)) s = busWriteBytes reg bs s := by
  by_cases h : bs = []
  · subst h
    rw [busWriteBytes_nil]
    rfl
  · rw [emitItems, runsOf_map reg bs h]
    rfl

/-- The first run is of the first item's register. -/
theorem runsOf_cons (reg : Reg) (b : Byte) (rest : List Item) :
    ∃ bs more, runsOf ((reg, b) :: rest) = (reg, bs) :: more := by
  rw [runsOf]
  split
  · exact ⟨_, _, rfl⟩
  · split <;> exact ⟨_, _, rfl⟩

/-- Where the register changes a run ends (R203). -/
theorem runsOf_cut (reg reg' : Reg) (h : reg ≠ reg') (c : Byte) (rest : List Item) : ∀ bs : List Byte, bs ≠ [] →
    runsOf (bs.map (fun b => (reg, b)) ++ (reg', c) :: rest) = (reg, bs) :: runsOf ((reg', c) :: rest)
  | [], hb => absurd rfl hb
  | [b], _ => by
    obtain ⟨bs, more, e⟩ := runsOf_cons reg' c rest
    simp only [List.map_cons, List.map_nil, List.cons_append, List.nil_append]
    rw [runsOf, e]
    simp [h]
  | b :: d :: bs, _ => by
    have ih := runsOf_cut reg reg' h c rest (d :: bs) (by simp)
    rw [List.map_cons, List.cons_append, runsOf, ih]
    simp

/-- Items of one register before one of the other are a transaction of their own, or nothing. -/
theorem emitItems_cut (reg reg' : Reg) (h : reg ≠ reg') (c : Byte) (rest : List Item) (bs : List Byte) (s : State) :
    emitItems (bs.map (fun b => (reg, b)) ++ (reg', c) :: rest) s = emitItems ((reg', c) :: rest) (busWriteBytes reg bs s) := by
  by_cases hb : bs = []
  · subst hb
    rw [busWriteBytes_nil]
    rfl
  · rw [emitItems, runsOf_cut reg reg' h c rest bs hb]
    rfl

@[simp] theorem emitItems_nil (s : State) : emitItems [] s = s := rfl

/-! ## The scan -/

theorem interpret_cons (ch : Byte) (rest : List Byte) (h : ch ≠ chEscape) :
    interpret (ch :: rest) = itemsOfByte ch ++ interpret rest := by
  cases rest with
  | nil => simp [interpret]
  | cons d rest => simp [interpret, h]

/-- The scan takes one source byte, or an escape and its digit. -/
theorem interpret_induct (P : List Byte → Prop) (nil : P [])
    (one : ∀ ch rest, interpret (ch :: rest) = itemsOfByte ch ++ interpret rest → P rest → P (ch :: rest))
    (two : ∀ d rest, isGlyphDigit d = true → P rest → P (chEscape :: d :: rest)) : ∀ text, P text
  | [] => nil
  | [ch] => one ch [] (by simp [interpret]) nil
  | ch :: d :: rest => by
    by_cases h : ch = chEscape ∧ isGlyphDigit d = true
    · obtain ⟨rfl, hd⟩ := h
      exact two d rest hd (interpret_induct P nil one two rest)
    · exact one ch (d :: rest) (by rw [interpret, if_neg h]) (interpret_induct P nil one two (d :: rest))

theorem itemsOfByte_length (ch : Byte) : (itemsOfByte ch).length ≤ 1 := by
  simp only [itemsOfByte]
  split
  · simp
  · split <;> simp

/-- No more items than source bytes (R204). -/
theorem interpret_length (text : List Byte) : (interpret text).length ≤ text.length := by
  induction text using interpret_induct with
  | nil => exact Nat.le_refl _
  | one ch rest e ih =>
    have := itemsOfByte_length ch
    rw [e, List.length_append, List.length_cons]
    omega
  | two d rest hd ih =>
    rw [interpret, if_pos ⟨rfl, hd⟩, List.length_cons, List.length_cons, List.length_cons]
    omega

/-- A text of bytes that no special row of R96 matches is its own bytes. -/
theorem interpret_plain : ∀ text : List Byte, (∀ ch ∈ text, textSpecial ch = false) →
    interpret text = text.map fun ch => (.data, ch)
  | [], _ => rfl
  | ch :: rest, h => by
    have h0 := h ch (by simp)
    have ih := interpret_plain rest (fun c hc => h c (by simp [hc]))
    simp only [textSpecial, Bool.or_eq_false_iff, beq_eq_false_iff_ne] at h0
    obtain ⟨⟨⟨⟨⟨⟨h1, h2⟩, h3⟩, h4⟩, h5⟩, h6⟩, -⟩ := h0
    have hd : isDropped ch = false := by simp [isDropped]; exact ⟨⟨⟨h3, h4⟩, h5⟩, h6⟩
    have hn : ¬ ch = chNewline := h1
    have hi : itemsOfByte ch = [(.data, ch)] := by simp [itemsOfByte, hn, hd]
    rw [interpret_cons ch rest h2, ih, hi]
    rfl

end Sys2Proof.Machine
end

