-- ==== Sys2Proof/Laws/Peer.lean ====
section
/-! SUPPORT. The peer contract (20_memory R50 to R56): its RAMs keep their canonical form, and what whole transfers do to it. -/

namespace Sys2Proof.Machine

/-! ## A RAM: read after write, and the canonical form -/

theorem memRead_memWrite : ∀ (m : List Host.Cell) (a : Nat) (b : Byte), memRead (memWrite m a b) a = some b
  | [], a, b => by simp [memWrite, memRead]
  | (k, v) :: rest, a, b => by
    have ih := memRead_memWrite rest a b
    simp only [memWrite]
    split
    · simp [memRead]
    · split
      · simp [memRead]
      · next h => simp [memRead, Ne.symm h, ih]

theorem memRead_memWrite_ne : ∀ (m : List Host.Cell) (a : Nat) (b : Byte) (a' : Nat), a' ≠ a →
    memRead (memWrite m a b) a' = memRead m a'
  | [], a, b, a', h => by simp [memWrite, memRead, Ne.symm h]
  | (k, v) :: rest, a, b, a', h => by
    have ih := memRead_memWrite_ne rest a b a' h
    simp only [memWrite]
    split
    · simp [memRead, Ne.symm h]
    · split
      · next hk => subst hk; simp [memRead, Ne.symm h]
      · simp [memRead, ih]

theorem memWfFrom_mono : ∀ (m : List Host.Cell) (lo lo' hi : Nat), lo' ≤ lo → memWfFrom lo hi m = true →
    memWfFrom lo' hi m = true
  | [], _, _, _, _, _ => rfl
  | (k, v) :: rest, lo, lo', hi, h, hm => by
    simp only [memWfFrom, Bool.and_eq_true, decide_eq_true_eq] at hm ⊢
    exact ⟨⟨by omega, hm.1.2⟩, hm.2⟩

theorem memWfFrom_memWrite : ∀ (m : List Host.Cell) (lo hi a : Nat) (b : Byte), lo ≤ a → a < hi →
    memWfFrom lo hi m = true → memWfFrom lo hi (memWrite m a b) = true
  | [], lo, hi, a, b, h1, h2, _ => by simp [memWrite, memWfFrom, h1, h2]
  | (k, v) :: rest, lo, hi, a, b, h1, h2, hm => by
    simp only [memWfFrom, Bool.and_eq_true, decide_eq_true_eq] at hm
    simp only [memWrite]
    split
    · next h =>
      simp only [memWfFrom, Bool.and_eq_true, decide_eq_true_eq]
      exact ⟨⟨h1, h2⟩, ⟨by omega, hm.1.2⟩, hm.2⟩
    · split
      · next h =>
        subst h
        simp only [memWfFrom, Bool.and_eq_true, decide_eq_true_eq]
        exact ⟨⟨h1, h2⟩, hm.2⟩
      · next h1' h2' =>
        simp only [memWfFrom, Bool.and_eq_true, decide_eq_true_eq]
        exact ⟨hm.1, memWfFrom_memWrite rest (k + 1) hi a b (by omega) h2 hm.2⟩

/-- A write keeps the canonical form. -/
theorem memWf_memWrite {size : Nat} {m : List Host.Cell} (h : memWf size m = true) (a : Nat) (b : Byte) (ha : a < size) :
    memWf size (memWrite m a b) = true :=
  memWfFrom_memWrite m 0 size a b (Nat.zero_le _) ha h

/-- Both RAMs of a peer are in their canonical form. -/
def Peer.wf (p : Peer) : Prop := memWf ddramSize p.ddram = true ∧ memWf cgramSize p.cgram = true

theorem Peer.powerUp_wf : Peer.wf Peer.powerUp := ⟨rfl, rfl⟩

theorem peerLost_wf (n : Nat) : (peerLost n).wf := ⟨rfl, rfl⟩

theorem peerWriteData_wf (n : Nat) (b : Byte) (p : Peer) (h : p.wf) : (peerWriteData n b p).wf := by
  simp only [peerWriteData, selectedCell]
  cases hr : p.regs.ram with
  | ddram =>
    refine ⟨?_, h.2⟩
    by_cases hs : ddramStated p.regs.ac = true
    · simp only [hs, if_true]
      exact memWf_memWrite h.1 _ _ p.regs.ac.isLt
    · simp only [hs]
      rfl
  | cgram => exact ⟨h.1, memWf_memWrite h.2 _ _ (Nat.mod_lt _ (by decide))⟩

theorem peerCommand_wf (n : Nat) (c : Byte) (p : Peer) (h : p.wf) : (peerCommand n c p).wf := by
  simp only [peerCommand]
  split <;> first | exact h | exact peerLost_wf n | exact ⟨rfl, h.2⟩

theorem peerByte_wf (n : Nat) (s w : Level) (b : Byte) (p : Peer) (h : p.wf) : (peerByte n s w b p).wf := by
  simp only [peerByte]
  split
  · split
    · exact h
    · exact h
  · split
    · exact peerWriteData_wf n b p h
    · exact peerCommand_wf n b p h

theorem peerFrame_wf (n : Nat) (s w : Level) (nib : Nibble) (p : Peer) (h : p.wf) : (peerFrame n s w nib p).wf := by
  simp only [peerFrame]
  split
  · split
    · exact peerLost_wf n
    · split <;> exact h
  · split
    · exact peerLost_wf n
    · split
      · exact peerCommand_wf n _ p h
      · exact peerLost_wf n
  · exact h
  · split
    · exact peerByte_wf n s w _ p h
    · exact peerLost_wf n
  · exact peerLost_wf n

/-- Every operation on the peer keeps the canonical form of both RAMs. -/
theorem peerReceive_wf (n : Nat) (dir : Direction) (pins : Pins) (p : Peer) (h : p.wf) : (peerReceive n dir pins p).wf := by
  simp only [peerReceive]
  split
  · exact peerFrame_wf n _ _ _ p h
  · exact peerLost_wf n

/-! ## Frames -/

/-- The peer `q` is what `p` becomes by these frames, each at some draw. -/
inductive PeerFrames (s w : Level) : List Nibble → Peer → Peer → Prop
  | nil (p : Peer) : PeerFrames s w [] p p
  | cons (n : Nat) (nib : Nibble) (rest : List Nibble) (p q : Peer) :
    PeerFrames s w rest (peerFrame n s w nib p) q → PeerFrames s w (nib :: rest) p q

theorem PeerFrames.append {s w : Level} {a b : List Nibble} {p q r : Peer} (h : PeerFrames s w a p q)
    (h' : PeerFrames s w b q r) : PeerFrames s w (a ++ b) p r := by
  induction h with
  | nil => exact h'
  | cons n nib rest p q _ ih => exact .cons n nib (rest ++ b) p r (ih h')

theorem PeerFrames.one (s w : Level) (n : Nat) (nib : Nibble) (p : Peer) :
    PeerFrames s w [nib] p (peerFrame n s w nib p) := .cons n nib [] p _ (.nil _)

/-- The nibbles of a list of bytes, in the order they cross the bus (R94, R116). -/
def nibblesOf (bytes : List Byte) : List Nibble := bytes.flatMap fun b => [highNibble b, lowNibble b]

/-- A write frame on the latches, the data pins outputs. -/
theorem peerReceive_write (n : Nat) (p : Pins) (a : Level) (nib : Nibble) (q : Peer) (hs : p.rs = .held a)
    (hw : p.rw = .held false) (h0 : p.d0 = .held (nib.getLsbD 0)) (h1 : p.d1 = .held (nib.getLsbD 1))
    (h2 : p.d2 = .held (nib.getLsbD 2)) (h3 : p.d3 = .held (nib.getLsbD 3)) :
    peerReceive n .output p q = peerFrame n a false nib q := by
  have e : latchNibble p = some nib := by simp only [latchNibble, h0, h1, h2, h3, nibbleOf_bits]
  simp [peerReceive, wireNibble, e, hs, hw, rwReadLevel]

/-- The same, for latches that a nibble has just been driven on with E high. -/
theorem peerReceive_driven (n : Nat) (p : Pins) (a : Level) (nib : Nibble) (q : Peer) (hs : p.rs = .held a)
    (hw : p.rw = .held false) :
    peerReceive n .output
      { rs := p.rs, rw := p.rw, e := .held true, bl := p.bl, d0 := .held (nib.getLsbD 0), d1 := .held (nib.getLsbD 1),
        d2 := .held (nib.getLsbD 2), d3 := .held (nib.getLsbD 3) } q =
      peerFrame n a false nib q :=
  peerReceive_write n _ a nib q hs hw rfl rfl rfl rfl

/-- A read frame on the latches. -/
theorem peerReceive_read (n : Nat) (dir : Direction) (p : Pins) (a : Level) (q : Peer) (hs : p.rs = .held a)
    (hw : p.rw = .held true) : peerReceive n dir p q = peerFrame n a true 0 q := by
  simp [peerReceive, hs, hw, rwReadLevel]

/-- What driving bytes inside an open write and closing it do to the peer: one frame per nibble. -/
theorem driveBytes_peer (a : Level) : ∀ (bs : List Byte), bs ≠ [] → ∀ s : State,
    s.dir = .output → s.pin.rs = .held a → s.pin.rw = .held false → s.pin.e = .held true →
    PeerFrames a false (nibblesOf bs) s.peer (endTransaction (driveBytes bs s)).peer
  | [], h, _, _, _, _, _ => absurd rfl h
  | [b], _, s, hd, hs, hw, he => by
    simp only [driveBytes, driveNibble_eq, continueTransaction_eq, endTransaction_eq, hd, he, if_true, nibblesOf,
      List.flatMap_cons, List.flatMap_nil, List.append_nil]
    rw [peerReceive_driven _ s.pin a (highNibble b) _ hs hw, peerReceive_driven _ s.pin a (lowNibble b) _ hs hw]
    exact .cons _ _ _ _ _ (.one ..)
  | b :: c :: rest, _, s, hd, hs, hw, he => by
    have ih := driveBytes_peer a (c :: rest) (by simp)
      (s |> driveNibble (highNibble b) |> continueTransaction false |> driveNibble (lowNibble b)
        |> continueTransaction false)
      (by simp only [driveNibble_eq, continueTransaction_eq]; exact hd)
      (by simp only [driveNibble_eq, continueTransaction_eq]; exact hs)
      (by simp only [driveNibble_eq, continueTransaction_eq]; exact hw)
      (by simp only [continueTransaction_eq])
    have e : (s |> driveNibble (highNibble b) |> continueTransaction false |> driveNibble (lowNibble b)
        |> continueTransaction false).peer =
        peerFrame (if s.pin.e = .held true then s.draws + 1 else s.draws) a false (lowNibble b)
          (peerFrame s.draws a false (highNibble b) s.peer) := by
      simp only [driveNibble_eq, continueTransaction_eq, hd, he, if_true]
      rw [peerReceive_driven _ s.pin a (highNibble b) _ hs hw, peerReceive_driven _ s.pin a (lowNibble b) _ hs hw]
    rw [e] at ih
    simp only [driveBytes]
    exact .cons _ _ _ _ _ (.cons _ _ _ _ _ ih)

/-- A write from `Idle` is one frame per nibble to the peer (R116, R121). -/
theorem busWriteBytes_peer (reg : Reg) (bytes : List Byte) (s : State) (h : s.phase = .idle) :
    PeerFrames reg.isData false (nibblesOf bytes) s.peer (busWriteBytes reg bytes s).peer := by
  by_cases hb : bytes = []
  · subst hb
    rw [busWriteBytes_nil]
    exact .nil _
  · have key : (busWriteBytes reg bytes s).peer = (endTransaction (driveBytes bytes (openWrite reg s))).peer := by
      simp [busWriteBytes, hb, deliver]
    have ho : openWrite reg s = beginTransaction reg false (setDataDirection false s) := by simp [openWrite, h]
    rw [key, ho]
    have := driveBytes_peer reg.isData bytes hb (beginTransaction reg false (setDataDirection false s))
      (by rw [beginTransaction_eq, setDataDirection_eq]; rfl) (by rw [beginTransaction_eq]) (by rw [beginTransaction_eq]) (by rw [beginTransaction_eq])
    rw [beginTransaction_eq, setDataDirection_eq] at this
    rw [beginTransaction_eq, setDataDirection_eq]
    exact this

/-- A lone nibble whose transaction is closed is one frame to the peer (R118, R121). -/
theorem busWriteNibble_peer (reg : Reg) (nib : Nibble) (s : State) :
    (busWriteNibble reg nib true s).peer = peerFrame s.draws reg.isData false nib s.peer := by
  rw [busWriteNibble_eq]
  exact peerReceive_write _ (latchesAfterWrite s.pin reg true nib) reg.isData nib _ rfl rfl rfl rfl rfl rfl

theorem sampleByte_peer (a : Level) (s : State) (hl : s.lone = false) (hs : s.pin.rs = .held a) (hw : s.pin.rw = .held true)
    (he : s.pin.e = .held true) :
    ∃ n, (sampleByte s).2 =
      { s with
        pin := { s.pin with e := .held true }
        wire := s.wire.drop 8
        trace := s.trace ++ byteReadEvents s.cfg (sampleByte s).1
        peer := peerFrame n a true 0 s.peer, draws := (sampleByte s).2.draws } := by
  obtain ⟨p, n, e⟩ := sampleByte_eq s hl
  refine ⟨s.draws + 4, ?_⟩
  have hp : (sampleByte s).2.peer = peerFrame (s.draws + 4) a true 0 s.peer := by
    simp only [sampleByte, sampleNibble_eq, continueTransaction_eq, he, if_true]
    exact peerReceive_read _ _ _ a _ hs hw
  rw [← hp]
  rw [e]

theorem sampleBytes_peer (a : Level) : ∀ (k : Nat), k ≠ 0 → ∀ s : State,
    s.lone = false → s.pin.rs = .held a → s.pin.rw = .held true → s.pin.e = .held true →
    PeerFrames a true (List.replicate (2 * k) 0) s.peer (endTransaction (sampleBytes k s).2).peer
  | 0, h, _, _, _, _, _ => absurd rfl h
  | 1, _, s, hl, hs, hw, he => by
    obtain ⟨n, e⟩ := sampleByte_peer a s hl hs hw he
    simp only [sampleBytes]
    rw [e, endTransaction_eq]
    simp only [if_true]
    rw [peerReceive_read _ _ { s.pin with e := .held true } a _ hs hw]
    exact .cons _ _ _ _ _ (.one ..)
  | k + 2, _, s, hl, hs, hw, he => by
    obtain ⟨n, e⟩ := sampleByte_peer a s hl hs hw he
    have ih := sampleBytes_peer a (k + 1) (by omega) (continueTransaction true (sampleByte s).2)
      (continueTransaction_lone ..) (by rw [continueTransaction_eq, e]; exact hs) (by rw [continueTransaction_eq, e]; exact hw)
      (by rw [continueTransaction_eq])
    simp only [sampleBytes]
    have e2 : (continueTransaction true (sampleByte s).2).peer =
        peerFrame (sampleByte s).2.draws a true 0 (peerFrame n a true 0 s.peer) := by
      rw [continueTransaction_eq, e]
      simp only [if_true]
      rw [peerReceive_read _ _ { s.pin with e := .held true } a _ hs hw]
    rw [e2] at ih
    have h2 : 2 * (k + 2) = 2 * (k + 1) + 1 + 1 := by omega
    rw [h2, List.replicate_succ, List.replicate_succ]
    exact .cons _ _ _ _ _ (.cons _ _ _ _ _ ih)

/-- A read from `Idle` is two frames a byte to the peer (R117, R121). -/
theorem busReadBytes_peer (reg : Reg) (count : Nat) (s : State) :
    PeerFrames reg.isData true (List.replicate (2 * count) 0) s.peer (busReadBytes reg count s).2.peer := by
  by_cases hc : count = 0
  · subst hc
    exact .nil _
  · have key : (busReadBytes reg count s).2.peer =
        (endTransaction (sampleBytes count (beginTransaction reg true (setDataDirection true s))).2).peer := by
      simp [busReadBytes, hc, deliver]
    rw [key]
    have := sampleBytes_peer reg.isData count hc (beginTransaction reg true (setDataDirection true s))
      (beginTransaction_lone ..) (by rw [beginTransaction_eq]) (by rw [beginTransaction_eq]) (by rw [beginTransaction_eq])
    rw [beginTransaction_eq, setDataDirection_eq] at this
    rw [beginTransaction_eq, setDataDirection_eq]
    exact this

/-! ## Whole bytes at a paired peer -/

/-- What a byte does to the peer does not depend on where its nibble pairing stood. -/
theorem peerByte_sync (n : Nat) (s w : Level) (b : Byte) (p : Peer) (x : Sync) :
    peerByte n s w b { p with sync := x } = peerByte n s w b p := by
  simp only [peerByte, peerReadData, peerReadStatus, peerWriteData, peerCommand]

/-- Two frames of one kind are one byte to a paired peer (R56, R59). -/
theorem PeerFrames.byte {s w : Level} {hi lo : Nibble} {rest : List Nibble} {p q : Peer} (hp : p.sync = .paired)
    (h : PeerFrames s w (hi :: lo :: rest) p q) :
    ∃ n, PeerFrames s w rest (peerByte n s w (byteOf hi lo) p) q := by
  cases h with
  | cons n _ _ _ _ h =>
    cases h with
    | cons n' _ _ _ _ h =>
      refine ⟨n', ?_⟩
      have e : peerFrame n s w hi p = { p with sync := .half ⟨s, w, hi⟩ } := by simp [peerFrame, hp]
      rw [e] at h
      have e2 : peerFrame n' s w lo { p with sync := .half ⟨s, w, hi⟩ } = peerByte n' s w (byteOf hi lo) p := by
        simp [peerFrame, peerByte_sync]
      rw [e2] at h
      exact h

theorem PeerFrames.nil_eq {s w : Level} {p q : Peer} (h : PeerFrames s w [] p q) : q = p := by cases h; rfl

/-- One command byte written to a paired peer (R51, R55). -/
theorem busWriteBytes_peerCommand (c : Byte) (s : State) (h : s.phase = .idle) (hp : s.peer.sync = .paired) :
    ∃ n, (busWriteBytes .command [c] s).peer = peerCommand n c s.peer := by
  obtain ⟨n, hn⟩ := (busWriteBytes_peer .command [c] s h).byte hp
  refine ⟨n, ?_⟩
  rw [hn.nil_eq, byteOf_nibbles]
  simp [peerByte, Reg.isData, rwReadLevel, rsDataLevel]

/-- One data byte written to a paired peer (R50, R54). -/
theorem busWriteBytes_peerData (b : Byte) (s : State) (h : s.phase = .idle) (hp : s.peer.sync = .paired) :
    ∃ n, (busWriteBytes .data [b] s).peer = peerWriteData n b s.peer := by
  obtain ⟨n, hn⟩ := (busWriteBytes_peer .data [b] s h).byte hp
  refine ⟨n, ?_⟩
  rw [hn.nil_eq, byteOf_nibbles]
  simp [peerByte, Reg.isData, rwReadLevel, rsDataLevel]

/-- The peer stays paired and what it holds changes as one data byte says (R50, R54). -/
theorem peerWriteData_paired (n : Nat) (b : Byte) (p : Peer) : (peerWriteData n b p).sync = .paired := by
  simp only [peerWriteData]
  cases selectedCell p.regs with
  | mk r a => cases r <;> rfl

/-! ## The address counter -/

@[simp] theorem acMoved_zero (right : Bool) (a : BitVec 7) : acMoved right a 0 = a := by
  cases right <;> simp [acMoved]

/-- One access and `k` more. -/
theorem acMoved_succ (right : Bool) (a : BitVec 7) (k : Nat) : acMoved right (acMoved right a 1) k = acMoved right a (k + 1) := by
  cases right <;> simp only [acMoved, Nat.add_comm k 1, BitVec.ofNat_add, if_true, Bool.false_eq_true, if_false] <;> bv_omega

/-- The counter does not come back to where it was in fewer accesses than it has values. -/
theorem acMoved_ne (right : Bool) (a : BitVec 7) (k : Nat) (h0 : 0 < k) (h : k < 128) :
    (acMoved right a k).toNat ≠ a.toNat := by
  have := a.isLt
  cases right <;> simp only [acMoved, if_true, Bool.false_eq_true, if_false, BitVec.toNat_add, BitVec.toNat_sub, BitVec.toNat_ofNat] <;>
    omega

/-- A step short of a wrap stays inside CGRAM. -/
theorem acMoved_cgram {right : Bool} {a : BitVec 7} (h : acStepStated right .cgram a = true) :
    (acMoved right a 1).toNat < 64 := by
  cases right <;> simp [acStepStated, acMoved, BitVec.toNat_add, BitVec.toNat_sub] at h ⊢ <;> omega

theorem acAfterAccess_stated (n : Nat) (r : PeerRegs) (hs : acStepStated r.cursorRight r.ram r.ac = true) :
    acAfterAccess n r = acMoved r.cursorRight r.ac 1 := by
  simp [acAfterAccess, hs]

/-! ## Runs of bytes at a paired peer -/

/-- The first byte of a run written to the data register. -/
theorem PeerFrames.writeByte {b : Byte} {bs : List Byte} {p q : Peer} (hp : p.sync = .paired)
    (h : PeerFrames true false (nibblesOf (b :: bs)) p q) :
    ∃ n, PeerFrames true false (nibblesOf bs) (peerWriteData n b p) q := by
  obtain ⟨n, h⟩ := h.byte hp
  rw [byteOf_nibbles] at h
  exact ⟨n, h⟩

/-- Bytes written to the data register, wherever the counter stands, leave the peer in step, its counter in the same RAM, and
the other RAM as it was. -/
theorem data_run : ∀ (bs : List Byte) (p q : Peer), p.sync = .paired → PeerFrames true false (nibblesOf bs) p q →
    q.sync = .paired ∧ q.regs.ram = p.regs.ram ∧ (p.regs.ram = .ddram → q.cgram = p.cgram) ∧
    (p.regs.ram = .cgram → q.ddram = p.ddram)
  | [], p, q, hp, h => by rw [h.nil_eq]; exact ⟨hp, rfl, fun _ => rfl, fun _ => rfl⟩
  | b :: bs, p, q, hp, h => by
    obtain ⟨n, h⟩ := h.writeByte hp
    obtain ⟨h1, h2, h3, h4⟩ := data_run bs _ q (peerWriteData_paired n b p) h
    cases hr : p.regs.ram <;> simp [peerWriteData, selectedCell, hr] at h2 h3 h4 ⊢ <;> exact ⟨h1, h2, by assumption⟩

/-- The peer after a byte stored in CGRAM, with the counter where it is said to be. -/
def peerStoredCgram (p : Peer) (b : Byte) (ac : BitVec 7) : Peer :=
  { p with sync := .paired, regs := { p.regs with ac := ac }, cgram := memWrite p.cgram p.regs.ac.toNat b }

/-- The peer after a byte stored in DDRAM, with the counter where it is said to be. -/
def peerStoredDdram (p : Peer) (b : Byte) (ac : BitVec 7) : Peer :=
  { p with sync := .paired, regs := { p.regs with ac := ac }, ddram := memWrite p.ddram p.regs.ac.toNat b }

theorem ac_succ (a : BitVec 7) (h : a.toNat < 127) : (a + 1).toNat = a.toNat + 1 := by
  rw [BitVec.toNat_add]
  simp
  omega

theorem ac_add_succ (a : BitVec 7) (k : Nat) : a + 1 + BitVec.ofNat 7 k = a + BitVec.ofNat 7 (k + 1) := by
  rw [BitVec.add_assoc, Nat.add_comm k 1, BitVec.ofNat_add]
  rfl

/-- Bytes written to CGRAM, in the direction of the entry mode, as long as no wrap falls between two of them (R53, R54). -/
theorem cgram_run : ∀ (bs : List Byte) (p q : Peer), p.sync = .paired → p.regs.ram = .cgram → p.regs.ac.toNat < 64 →
    bs.length ≤ 64 →
    (∀ k, k + 1 < bs.length → acStepStated p.regs.cursorRight .cgram (acMoved p.regs.cursorRight p.regs.ac k) = true) →
    PeerFrames true false (nibblesOf bs) p q →
    q.sync = .paired ∧ q.regs.ram = .cgram ∧ q.ddram = p.ddram ∧
    (∀ k, k < bs.length → memRead q.cgram (acMoved p.regs.cursorRight p.regs.ac k).toNat = bs[k]?) ∧
    (∀ a, (∀ k, k < bs.length → a ≠ (acMoved p.regs.cursorRight p.regs.ac k).toNat) → memRead q.cgram a = memRead p.cgram a) ∧
    ((∀ k, k < bs.length → acStepStated p.regs.cursorRight .cgram (acMoved p.regs.cursorRight p.regs.ac k) = true) →
      q.regs = { p.regs with ac := acMoved p.regs.cursorRight p.regs.ac bs.length })
  | [], p, q, hp, hr, _, _, _, h => by
    rw [h.nil_eq]
    exact ⟨hp, hr, rfl, fun k hk => by simp at hk, fun _ _ => rfl, fun _ => by simp⟩
  | b :: bs, p, q, hp, hr, ha, hl, hst, h => by
    obtain ⟨n, h⟩ := h.writeByte hp
    have e : peerWriteData n b p = peerStoredCgram p b (acAfterAccess n p.regs) := by
      simp [peerWriteData, selectedCell, hr, Nat.mod_eq_of_lt (show p.regs.ac.toNat < cgramSize from ha), peerStoredCgram]
    rw [e] at h
    simp only [List.length_cons] at hl hst ⊢
    have first : acStepStated p.regs.cursorRight .cgram p.regs.ac = true →
        acAfterAccess n p.regs = acMoved p.regs.cursorRight p.regs.ac 1 :=
      fun h0 => acAfterAccess_stated _ _ (by rw [hr]; exact h0)
    by_cases hb : bs = []
    · subst hb
      rw [h.nil_eq]
      refine ⟨rfl, hr, rfl, fun k hk => ?_, fun a ha => ?_, fun h0 => ?_⟩
      · obtain rfl : k = 0 := by simp only [List.length_nil] at hk; omega
        simp [peerStoredCgram, memRead_memWrite]
      · exact memRead_memWrite_ne _ _ _ _ (by simpa using ha 0 (by simp))
      · rw [first (by simpa using h0 0 (by simp))]
        rfl
    · have hpos : 0 < bs.length := List.length_pos_iff.mpr hb
      have h0 : acStepStated p.regs.cursorRight .cgram p.regs.ac = true := by simpa using hst 0 (by omega)
      rw [first h0] at h
      obtain ⟨h1, h2, h3, h4, h5, h6⟩ := cgram_run bs (peerStoredCgram p b (acMoved p.regs.cursorRight p.regs.ac 1)) q rfl hr
        (acMoved_cgram h0) (by omega)
        (fun k hk => by simp only [peerStoredCgram, acMoved_succ]; exact hst (k + 1) (by omega)) h
      simp only [peerStoredCgram, acMoved_succ] at h3 h4 h5 h6
      refine ⟨h1, h2, h3, fun k hk => ?_, fun a ha => ?_, fun hs => h6 fun k hk => hs (k + 1) (by omega)⟩
      · cases k with
        | zero =>
          rw [acMoved_zero, h5 _ (fun k hk => (acMoved_ne _ _ (k + 1) (by omega) (by omega)).symm)]
          simp [memRead_memWrite]
        | succ k =>
          rw [h4 k (by omega)]
          simp
      · rw [h5 a (fun k hk => ha (k + 1) (by omega)), memRead_memWrite_ne _ _ _ _ (by simpa using ha 0 (by omega))]

/-- Bytes written to DDRAM from the counter on, inside the first 32 addresses or inside the second line (R52, R54, R303); where
the counter stands after the last of those cells is not stated. -/
theorem ddram_run : ∀ (bs : List Byte) (p q : Peer), p.sync = .paired → p.regs.cursorRight = true → p.regs.ram = .ddram →
    (p.regs.ac.toNat + bs.length ≤ 0x20 ∨ 0x40 ≤ p.regs.ac.toNat ∧ p.regs.ac.toNat + bs.length ≤ 0x50) →
    PeerFrames true false (nibblesOf bs) p q →
    q.sync = .paired ∧ q.cgram = p.cgram ∧
    (∀ k, k < bs.length → memRead q.ddram (p.regs.ac.toNat + k) = bs[k]?) ∧
    (∀ a, a < p.regs.ac.toNat ∨ p.regs.ac.toNat + bs.length ≤ a → memRead q.ddram a = memRead p.ddram a) ∧
    q.regs = { p.regs with ac := q.regs.ac } ∧
    (p.regs.ac.toNat + bs.length ≠ 0x20 → p.regs.ac.toNat + bs.length ≠ 0x50 →
      q.regs.ac = p.regs.ac + BitVec.ofNat 7 bs.length)
  | [], p, q, hp, _, _, _, h => by
    rw [h.nil_eq]
    exact ⟨hp, rfl, fun k hk => by simp at hk, fun _ _ => rfl, rfl, fun _ _ => by simp⟩
  | b :: bs, p, q, hp, hc, hr, hl, h => by
    obtain ⟨n, h⟩ := h.writeByte hp
    simp only [List.length_cons] at hl ⊢
    have hst : ddramStated p.regs.ac = true := by
      simp only [ddramStated, Bool.or_eq_true, Bool.and_eq_true, decide_eq_true_eq]
      omega
    have e : peerWriteData n b p = peerStoredDdram p b (acAfterAccess n p.regs) := by
      simp [peerWriteData, selectedCell, hr, hst, peerStoredDdram]
    rw [e] at h
    by_cases hlast : p.regs.ac.toNat = 0x1F ∨ p.regs.ac.toNat = 0x4F
    · have : bs = [] := List.eq_nil_of_length_eq_zero (by omega)
      subst this
      rw [h.nil_eq]
      refine ⟨rfl, rfl, fun k hk => ?_, fun a ha => ?_, rfl, fun h1 h2 => by simp only [List.length_nil] at h1 h2; omega⟩
      · obtain rfl : k = 0 := by simp only [List.length_nil] at hk; omega
        simp [peerStoredDdram, memRead_memWrite]
      · exact memRead_memWrite_ne _ _ _ _ (by simp only [List.length_nil] at ha; omega)
    · have ha : acAfterAccess n p.regs = p.regs.ac + 1 := by
        rw [acAfterAccess_stated _ _ (by
          simp only [acStepStated, hr, hc, Bool.or_eq_true, Bool.and_eq_true, decide_eq_true_eq]
          omega), hc]
        rfl
      have han := ac_succ p.regs.ac (by omega)
      rw [ha] at h
      obtain ⟨h1, h3, h4, h5, h6, h7⟩ := ddram_run bs (peerStoredDdram p b (p.regs.ac + 1)) q rfl hc hr
        (by simp only [peerStoredDdram, han]; omega) h
      simp only [peerStoredDdram, han] at h3 h4 h5 h6 h7
      refine ⟨h1, h3, fun k hk => ?_, fun a ha => ?_, h6, fun h8 h9 => ?_⟩
      · cases k with
        | zero => rw [h5 _ (.inl (by omega))]; simp [memRead_memWrite]
        | succ k =>
          rw [show p.regs.ac.toNat + (k + 1) = p.regs.ac.toNat + 1 + k by omega, h4 k (by omega)]
          simp
      · rw [h5 a (by omega), memRead_memWrite_ne _ _ _ _ (by omega)]
      · rw [h7 (by omega) (by omega), ac_add_succ]

/-- Bytes read from the command register change nothing (R54, R61). -/
theorem status_run : ∀ (k : Nat) (p q : Peer), p.sync = .paired → PeerFrames false true (List.replicate (2 * k) 0) p q → q = p
  | 0, _, _, _, h => h.nil_eq
  | k + 1, p, q, hp, h => by
    rw [show 2 * (k + 1) = 2 * k + 1 + 1 by omega, List.replicate_succ, List.replicate_succ] at h
    obtain ⟨n, h⟩ := h.byte hp
    have e : peerByte n false true (byteOf 0 0) p = p := by
      cases p
      simp_all [peerByte, rwReadLevel, rsDataLevel, peerReadStatus]
    rw [e] at h
    exact status_run k p q hp h

/-- Bytes read from the data register move the counter only (R54). -/
theorem data_read_run : ∀ (k : Nat) (p q : Peer), p.sync = .paired → PeerFrames true true (List.replicate (2 * k) 0) p q →
    q.sync = .paired ∧ q.ddram = p.ddram ∧ q.cgram = p.cgram ∧ q.regs.ram = p.regs.ram ∧
    ((∀ j, j < k → acStepStated p.regs.cursorRight p.regs.ram (acMoved p.regs.cursorRight p.regs.ac j) = true) →
      q.regs = { p.regs with ac := acMoved p.regs.cursorRight p.regs.ac k })
  | 0, p, q, hp, h => by
    rw [h.nil_eq]
    exact ⟨hp, rfl, rfl, rfl, fun _ => by simp⟩
  | k + 1, p, q, hp, h => by
    rw [show 2 * (k + 1) = 2 * k + 1 + 1 by omega, List.replicate_succ, List.replicate_succ] at h
    obtain ⟨n, h⟩ := h.byte hp
    have e : peerByte n true true (byteOf 0 0) p = peerReadData n p := by simp [peerByte, rwReadLevel, rsDataLevel]
    rw [e] at h
    obtain ⟨h1, h2, h3, h4, h5⟩ := data_read_run k (peerReadData n p) q rfl h
    refine ⟨h1, h2, h3, h4, fun hj => ?_⟩
    have ea := acAfterAccess_stated n _ (show acStepStated _ _ p.regs.ac = true by simpa using hj 0 (by omega))
    simp only [peerReadData, ea, acMoved_succ] at h5
    exact h5 fun j hjk => hj (j + 1) (by omega)

end Sys2Proof.Machine
end

