-- ==== Sys2Proof/Laws/PinBus.lean ====
section
/-! SUPPORT. What the Pin Bus does: a host's own pin write (41_pin_bus R142), and CONFIGURE (R140, R145), the roles set up one by
one, up to the first reserved one. -/

namespace Sys2Proof.Machine

/-! ## A host's own pin write -/

/-- Only the backlight can be left out of the roles (R144). -/
theorem not_configured {c : Config} {r : PinRole} : r ∉ configuredRoles c ↔ r = .bl ∧ c.useBacklight = false := by
  cases hb : c.useBacklight <;> cases r <;> simp [configuredRoles, hb]

theorem writePin_configured {r : PinRole} {s : State} (h : r ∈ configuredRoles s.cfg) (v : Level) :
    writePin r v s = drive r v s := by
  simp [writePin, h]

/-- Without a backlight a write of its role is the event alone (log 18). -/
theorem writePin_not_configured {r : PinRole} {s : State} (h : r ∉ configuredRoles s.cfg) (v : Level) :
    writePin r v s = emit (.drive r v) s := by
  simp [writePin, h]

/-- Whatever the role, the peer takes a frame exactly where E falls. -/
theorem writePin_peer (r : PinRole) (v : Level) (s : State) :
    (writePin r v s).peer = if fallingEnable r v s.pin then peerReceive s.draws s.dir s.pin s.peer else s.peer := by
  by_cases h : r ∈ configuredRoles s.cfg
  · rw [writePin_configured h, drive_peer]
  · obtain ⟨rfl, -⟩ := not_configured.mp h
    rw [writePin_not_configured h]
    rfl

/-! ## CONFIGURE -/

theorem setUpRole_eq (r : PinRole) (d : PinDescriptor) (s : State) (h : pinOf s.cfg r = some d) :
    setUpRole r s =
      { s with
        trace := s.trace ++ roleEvents s.cfg s.domains r d
        domains := withDomain s.domains d.clockDomain } := by
  by_cases hd : d.clockDomain ∈ s.domains <;>
    simp [setUpRole, h, enableDomain, hd, setMode, emit, roleEvents, withDomain]

theorem setUpRole_cfg (r : PinRole) (s : State) : (setUpRole r s).cfg = s.cfg := by
  cases h : pinOf s.cfg r with
  | none => simp [setUpRole, h]
  | some d => rw [setUpRole_eq r d s h]

theorem describedRoles_cons (c : Config) (r : PinRole) (d : PinDescriptor) (rest : List PinRole) (h : pinOf c r = some d) :
    describedRoles c (r :: rest) = (r, d) :: describedRoles c rest := by
  simp [describedRoles, h]

/-- Roles none of which is reserved are all set up before the loop goes on. -/
theorem configureRoles_append : ∀ (before after : List PinRole) (s : State),
    (∀ q ∈ before, (pinOf s.cfg q).isSome) → (∀ q ∈ before, reservedPin s.cfg q = false) →
    configureRoles (before ++ after) s = configureRoles after
      { s with
        trace := s.trace ++ rolesEvents s.cfg s.domains (describedRoles s.cfg before)
        domains := rolesDomains s.domains (describedRoles s.cfg before) }
  | [], after, s, _, _ => by simp [describedRoles, rolesEvents, rolesDomains]
  | r :: rest, after, s, hp, hr => by
    obtain ⟨d, hd⟩ := Option.isSome_iff_exists.mp (hp r (by simp))
    have h0 := hr r (by simp)
    rw [List.cons_append, configureRoles, h0, if_neg (by decide)]
    have ih := configureRoles_append rest after (setUpRole r s)
      (fun q hq => by rw [setUpRole_cfg]; exact hp q (by simp [hq]))
      (fun q hq => by rw [setUpRole_cfg]; exact hr q (by simp [hq]))
    rw [ih, setUpRole_eq r d s hd, describedRoles_cons _ _ _ _ hd]
    simp only [rolesEvents, rolesDomains, List.append_assoc]

theorem noRepeats_iff {α : Type} [DecidableEq α] (l : List α) : noRepeats l = true ↔ l.Nodup := by
  induction l with
  | nil => simp [noRepeats]
  | cons a r ih => simp [noRepeats, ih, List.nodup_cons]

theorem configWf_pins {c : Config} (h : configWf c = true) : ∀ r ∈ configuredRoles c, (pinOf c r).isSome := by
  simp only [configWf, Bool.and_eq_true, List.all_eq_true] at h
  exact h.1.2

/-- CONFIGURE with no reserved pin. -/
theorem configure_ok (s : State) (hw : configWf s.cfg = true)
    (hr : ∀ r ∈ configuredRoles s.cfg, reservedPin s.cfg r = false) :
    configure s =
      { s with
        dir := .output
        trace := s.trace ++ rolesEvents s.cfg s.domains (describedRoles s.cfg (configuredRoles s.cfg))
        domains := rolesDomains s.domains (describedRoles s.cfg (configuredRoles s.cfg)) } := by
  have h := configureRoles_append (configuredRoles s.cfg) [] s (configWf_pins hw) hr
  rw [List.append_nil] at h
  rw [configure, h]
  rfl

/-- CONFIGURE with a reserved pin: the roles before the first reserved one, then the abort. -/
theorem configure_reserved (s : State) (hw : configWf s.cfg = true) (before after : List PinRole) (r : PinRole)
    (he : configuredRoles s.cfg = before ++ r :: after) (hb : ∀ q ∈ before, reservedPin s.cfg q = false)
    (hr : reservedPin s.cfg r = true) :
    configure s =
      { s with
        domains := rolesDomains s.domains (describedRoles s.cfg before)
        trace := s.trace ++ rolesEvents s.cfg s.domains (describedRoles s.cfg before) ++ [.abort (.reservedPin r)]
        fault := some (.reservedPin r) } := by
  have hp := configWf_pins hw
  rw [he] at hp
  rw [configure, he, configureRoles_append before (r :: after) s (fun q hq => hp q (by simp [hq])) hb, configureRoles,
    if_pos hr]
  simp [abort, emit]

/-- Either no configured role is reserved or there is a first one that is. -/
theorem firstReserved (c : Config) : ∀ roles : List PinRole,
    (∀ r ∈ roles, reservedPin c r = false) ∨
      ∃ before r after, roles = before ++ r :: after ∧ (∀ q ∈ before, reservedPin c q = false) ∧ reservedPin c r = true
  | [] => .inl (by simp)
  | r :: rest => by
    cases h : reservedPin c r with
    | true => exact .inr ⟨[], r, rest, rfl, by simp, h⟩
    | false =>
      rcases firstReserved c rest with h1 | ⟨b, q, a, e, h2, h3⟩
      · exact .inl (by simpa [h] using h1)
      · exact .inr ⟨r :: b, q, a, by simp [e], by simpa [h] using h2, h3⟩

end Sys2Proof.Machine
end

