-- ==== Sys2Proof/Laws/Trace.lean ====
section
/-! SUPPORT. Reading the frames of the events an operation lists (40_bus_engine R121), piece by piece. -/

namespace Sys2Proof.Machine

theorem framesFrom_nibble (n : Nibble) (p seen : Pins) (rest : List Event) :
    framesFrom p seen (nibbleEvents n ++ rest) =
      framesFrom
        { p with
          d0 := .held (n.getLsbD 0), d1 := .held (n.getLsbD 1), d2 := .held (n.getLsbD 2), d3 := .held (n.getLsbD 3) }
        seen rest := by
  simp [nibbleEvents, framesFrom]

theorem framesFrom_sample (n : Nibble) (p seen : Pins) (rest : List Event) :
    framesFrom p seen (sampleEvents n ++ rest) =
      framesFrom p
        { seen with
          d0 := .held (n.getLsbD 0), d1 := .held (n.getLsbD 1), d2 := .held (n.getLsbD 2), d3 := .held (n.getLsbD 3) }
        rest := by
  simp [sampleEvents, framesFrom]

theorem framesFrom_cont (c : Config) (r : Bool) (p seen : Pins) (rest : List Event) (he : p.e = .held true) :
    framesFrom p seen (contEvents c r ++ rest) = frameOf p seen :: framesFrom p seen rest := by
  cases p
  simp [contEvents, framesFrom] at he ⊢
  simp [he]

/-- CONT whatever level E has. -/
theorem framesFrom_cont_any (c : Config) (r : Bool) (p seen : Pins) (rest : List Event) :
    framesFrom p seen (contEvents c r ++ rest) =
      (if p.e = .held true then [frameOf p seen] else []) ++ framesFrom { p with e := .held true } seen rest := by
  by_cases h : p.e = .held true
  · rw [framesFrom_cont _ _ _ _ _ h, if_pos h, ← h]
    rfl
  · rw [if_neg h]
    simp [contEvents, framesFrom, h, fallingEnable]

theorem framesFrom_end (c : Config) (p seen : Pins) (rest : List Event) (he : p.e = .held true) :
    framesFrom p seen (endEvents c ++ rest) = frameOf p seen :: framesFrom { p with e := .held false } seen rest := by
  simp [endEvents, framesFrom, he]

theorem framesFrom_begin (c : Config) (reg : Reg) (r : Bool) (p seen : Pins) (rest : List Event) :
    framesFrom p seen (beginEvents c reg r ++ rest) =
      framesFrom { p with rs := .held reg.isData, rw := .held r, e := .held true } seen rest := by
  simp [beginEvents, framesFrom]

theorem framesFrom_direction (m : PinMode) (p seen : Pins) (rest : List Event) :
    framesFrom p seen (directionEvents m ++ rest) = framesFrom p seen rest := by
  simp [directionEvents, framesFrom]

theorem frameOf_write (a : Level) (n : Nibble) (e bl : Latch) (seen : Pins) :
    frameOf
      { rs := .held a, rw := .held false, e := e, bl := bl, d0 := .held (n.getLsbD 0), d1 := .held (n.getLsbD 1),
        d2 := .held (n.getLsbD 2), d3 := .held (n.getLsbD 3) } seen = frame a false n := by
  simp [frameOf, frame, rwReadLevel]

theorem frameOf_read (a : Level) (n : Nibble) (p seen : Pins) (hs : p.rs = .held a) (hw : p.rw = .held true) :
    frameOf p
      { seen with
        d0 := .held (n.getLsbD 0), d1 := .held (n.getLsbD 1), d2 := .held (n.getLsbD 2), d3 := .held (n.getLsbD 3) } =
      frame a true n := by
  simp [frameOf, frame, rwReadLevel, hs, hw]

/-- The two frames of a byte written. -/
def byteFrames (a w : Level) (b : Byte) : List Frame := [frame a w (highNibble b), frame a w (lowNibble b)]

/-- The frames of bytes written while E is high, closed by END. -/
theorem framesFrom_bytesWrite (c : Config) (a : Level) : ∀ (bs : List Byte), bs ≠ [] → ∀ (p seen : Pins) (rest : List Event),
    p.rs = .held a → p.rw = .held false → p.e = .held true →
    ∃ b, bs.getLast? = some b ∧
      framesFrom p seen (bytesWriteEvents c bs ++ (endEvents c ++ rest)) =
        bs.flatMap (byteFrames a false) ++
          framesFrom
            { p with
              e := .held false
              d0 := .held ((lowNibble b).getLsbD 0), d1 := .held ((lowNibble b).getLsbD 1)
              d2 := .held ((lowNibble b).getLsbD 2), d3 := .held ((lowNibble b).getLsbD 3) } seen rest
  | [], h, _, _, _, _, _, _ => absurd rfl h
  | [b], _, p, seen, rest, hs, hw, he => by
    refine ⟨b, rfl, ?_⟩
    simp only [bytesWriteEvents_one, byteWriteEvents, List.append_assoc]
    rw [framesFrom_nibble, framesFrom_cont _ _ _ _ _ (by exact he), framesFrom_nibble, framesFrom_end _ _ _ _ (by exact he)]
    simp only [hs, hw, frameOf_write]
    rfl
  | b :: d :: r, _, p, seen, rest, hs, hw, he => by
    obtain ⟨z, hz, e⟩ := framesFrom_bytesWrite c a (d :: r) (by simp)
      { p with
        d0 := .held ((lowNibble b).getLsbD 0), d1 := .held ((lowNibble b).getLsbD 1)
        d2 := .held ((lowNibble b).getLsbD 2), d3 := .held ((lowNibble b).getLsbD 3) } seen rest hs hw he
    refine ⟨z, by simpa using hz, ?_⟩
    simp only [bytesWriteEvents_cons, byteWriteEvents, List.append_assoc]
    rw [framesFrom_nibble, framesFrom_cont _ _ _ _ _ (by exact he), framesFrom_nibble, framesFrom_cont _ _ _ _ _ (by exact he),
      e]
    simp only [hs, hw, frameOf_write]
    rfl

/-- The frames of bytes read while E is high, closed by END. -/
theorem framesFrom_bytesRead (c : Config) (a : Level) : ∀ (bs : List Byte), bs ≠ [] → ∀ (p seen : Pins) (rest : List Event),
    p.rs = .held a → p.rw = .held true → p.e = .held true →
    ∃ seen', framesFrom p seen (bytesReadEvents c bs ++ (endEvents c ++ rest)) =
      bs.flatMap (byteFrames a true) ++ framesFrom { p with e := .held false } seen' rest
  | [], h, _, _, _, _, _, _ => absurd rfl h
  | [b], _, p, seen, rest, hs, hw, he => by
    simp only [bytesReadEvents_one, byteReadEvents, List.append_assoc]
    rw [framesFrom_sample, framesFrom_cont _ _ _ _ _ he, framesFrom_sample, framesFrom_end _ _ _ _ he,
      frameOf_read a _ _ _ hs hw, frameOf_read a (lowNibble b) p
        { seen with
          d0 := .held ((highNibble b).getLsbD 0), d1 := .held ((highNibble b).getLsbD 1)
          d2 := .held ((highNibble b).getLsbD 2), d3 := .held ((highNibble b).getLsbD 3) } hs hw]
    exact ⟨_, rfl⟩
  | b :: d :: r, _, p, seen, rest, hs, hw, he => by
    simp only [bytesReadEvents_cons, byteReadEvents, List.append_assoc]
    rw [framesFrom_sample, framesFrom_cont _ _ _ _ _ he, framesFrom_sample, framesFrom_cont _ _ _ _ _ he,
      frameOf_read a _ _ _ hs hw, frameOf_read a (lowNibble b) p
        { seen with
          d0 := .held ((highNibble b).getLsbD 0), d1 := .held ((highNibble b).getLsbD 1)
          d2 := .held ((highNibble b).getLsbD 2), d3 := .held ((highNibble b).getLsbD 3) } hs hw]
    obtain ⟨seen', e⟩ := framesFrom_bytesRead c a (d :: r) (by simp) p _ rest hs hw he
    rw [e]
    exact ⟨seen', rfl⟩

/-- The frames of a write from `Idle`: those of its transfers. -/
theorem framesFrom_write (c : Config) (reg : Reg) (bs : List Byte) (p seen : Pins) (rest : List Event) :
    ∃ q, framesFrom p seen (writeEvents c reg bs ++ rest) =
      bs.flatMap (byteFrames reg.isData false) ++ framesFrom q seen rest ∧
      (bs = [] → q = p) ∧ ∀ b, bs.getLast? = some b → q = latchesAfterWrite p reg false (lowNibble b) := by
  by_cases h : bs = []
  · subst h
    exact ⟨p, by simp [writeEvents], fun _ => rfl, by simp⟩
  · simp only [writeEvents, h, if_false, List.append_assoc]
    rw [framesFrom_direction, framesFrom_begin]
    obtain ⟨b, hb, e⟩ := framesFrom_bytesWrite c reg.isData bs h
      { p with rs := .held reg.isData, rw := .held false, e := .held true } seen rest rfl rfl rfl
    refine ⟨_, e, fun h' => h'.elim, fun b' hb' => ?_⟩
    rw [hb] at hb'
    cases hb'
    rfl

/-- The frames of a read from `Idle`. -/
theorem framesFrom_read (c : Config) (reg : Reg) (bs : List Byte) (p seen : Pins) (rest : List Event) :
    ∃ q seen', framesFrom p seen (readEvents c reg bs ++ rest) =
      bs.flatMap (byteFrames reg.isData true) ++ framesFrom q seen' rest := by
  by_cases h : bs = []
  · subst h
    exact ⟨p, seen, by simp [readEvents]⟩
  · simp only [readEvents, h, if_false, List.append_assoc]
    rw [framesFrom_direction, framesFrom_begin]
    obtain ⟨seen', e⟩ := framesFrom_bytesRead c reg.isData bs h
      { p with rs := .held reg.isData, rw := .held true, e := .held true } seen rest rfl rfl rfl
    exact ⟨_, seen', e⟩

/-- The frames of byte transfers to one register. -/
theorem transferFrames_bytes (reg : Reg) (r : Bool) (bs : List Byte) :
    (bs.map fun b => (⟨reg, r, .byte b⟩ : Transfer)).flatMap transferFrames = bs.flatMap (byteFrames reg.isData r) := by
  induction bs with
  | nil => rfl
  | cons b rest ih =>
    simp only [List.map_cons, List.flatMap_cons, ih, transferFrames, levelFor_rsDataLevel, levelFor_rwReadLevel, byteFrames]

/-- The frames of items: one transaction per run (R203). -/
theorem framesFrom_runs (c : Config) : ∀ (runs : List (Reg × List Byte)) (p seen : Pins) (rest : List Event),
    ∃ q, framesFrom p seen (runs.flatMap (fun run => writeEvents c run.1 run.2) ++ rest) =
      (itemTransfers (itemsOf runs)).flatMap transferFrames ++ framesFrom q seen rest
  | [], p, _, _ => ⟨p, rfl⟩
  | (reg, bs) :: more, p, seen, rest => by
    rw [List.flatMap_cons, List.append_assoc]
    obtain ⟨q, e, -, -⟩ := framesFrom_write c reg bs p seen
      (more.flatMap (fun run => writeEvents c run.1 run.2) ++ rest)
    obtain ⟨q', e'⟩ := framesFrom_runs c more q seen rest
    refine ⟨q', ?_⟩
    rw [e, e', ← transferFrames_bytes]
    simp [itemTransfers, itemsOf]
    rfl

/-- What is owed for a lone nibble is the frame on the latches (R118, R121). -/
theorem owedTransfers_frames (s : State) (seen : Pins) :
    owedTransfers s = [] ∨
      s.pin.e = .held true ∧ (owedTransfers s).flatMap transferFrames = [frameOf s.pin seen] := by
  unfold owedTransfers
  split
  · next reg w n h1 h2 h3 h4 =>
    split
    · exact .inl rfl
    · next hw =>
      obtain rfl : w = false := by simpa [rwReadLevel] using hw
      simp only [Bool.and_eq_true, decide_eq_true_eq] at h1
      have he : s.pin.e = .held true := h1.2
      refine .inr ⟨he, ?_⟩
      unfold latchNibble at h4
      split at h4
      · next v0 v1 v2 v3 e0 e1 e2 e3 =>
        obtain rfl := Option.some.inj h4
        have key : ∀ reg v0 v1 v2 v3,
            transferFrames ⟨Reg.ofBool (reg = rsDataLevel), false, .nibble (nibbleOf v0 v1 v2 v3)⟩ =
              [{ s := .held reg, w := .held false, d3 := .held v3, d2 := .held v2, d1 := .held v1, d0 := .held v0 }] := by
          decide
        simp [key, frameOf, h2, h3, e0, e1, e2, e3, rwReadLevel]
      · cases h4
  · exact .inl rfl

/-- The levels of the frames a write makes are what a peer that presents those bytes presents (R122). -/
theorem byteFrames_levels (a : Level) (bs : List Byte) :
    (bs.flatMap (byteFrames a false)).flatMap frameLevels = bs.flatMap byteLevels := by
  induction bs with
  | nil => rfl
  | cons b r ih =>
    rw [List.flatMap_cons, List.flatMap_append, ih, List.flatMap_cons]
    congr 1
    have e : (byteFrames a false b).flatMap frameLevels =
        [(highNibble b).getLsbD 0, (highNibble b).getLsbD 1, (highNibble b).getLsbD 2, (highNibble b).getLsbD 3,
          (lowNibble b).getLsbD 0, (lowNibble b).getLsbD 1, (lowNibble b).getLsbD 2, (lowNibble b).getLsbD 3] := rfl
    rw [e]
    simp only [byteLevels, highNibble_getLsbD b _ (by decide : (0 : Nat) < 4), highNibble_getLsbD b _ (by decide : 1 < 4),
      highNibble_getLsbD b _ (by decide : 2 < 4), highNibble_getLsbD b _ (by decide : 3 < 4),
      lowNibble_getLsbD b _ (by decide : (0 : Nat) < 4), lowNibble_getLsbD b _ (by decide : 1 < 4),
      lowNibble_getLsbD b _ (by decide : 2 < 4), lowNibble_getLsbD b _ (by decide : 3 < 4)]

end Sys2Proof.Machine
end

