-- ==== Sys2Proof/Laws/Exec.lean ====
section
/-! SUPPORT. Everything a call can do, said once: a next state has one of the shapes below. -/

namespace Sys2Proof.Machine

/-- The runs of one write: one, or none for no bytes. -/
def writeRuns (reg : Reg) (bs : List Byte) : List (Reg × List Byte) := if bs = [] then [] else [(reg, bs)]

theorem busWriteBytes_runs (reg : Reg) (bs : List Byte) (s : State) :
    busWriteBytes reg bs s = emitRuns (writeRuns reg bs) s := by
  by_cases h : bs = []
  · subst h; simp [busWriteBytes_nil, writeRuns, emitRuns]
  · simp [writeRuns, h, emitRuns]

theorem writeRuns_ne (reg : Reg) (bs : List Byte) : ∀ run ∈ writeRuns reg bs, run.2 ≠ [] := by
  by_cases h : bs = [] <;> simp [writeRuns, h]

theorem emitRuns_append : ∀ (a b : List (Reg × List Byte)) (s : State), emitRuns (a ++ b) s = emitRuns b (emitRuns a s)
  | [], _, _ => rfl
  | (reg, bs) :: a, b, s => by simp only [List.cons_append, emitRuns]; exact emitRuns_append a b _

/-- The precondition violations whose operand is at fault (R252 to R254). -/
inductive BadOperand : Instr → Cause → Prop
  | write (text : List Byte) : 32 < text.length → BadOperand (.displayWrite text) (.textTooLong text.length)
  | append (text : List Byte) : 32 < text.length → BadOperand (.displayAppend text) (.textTooLong text.length)
  | cursor (x y : Nat) : 15 < x ∨ 1 < y → BadOperand (.setCursor x y) (.cursorOutOfRange x y)
  | slot (g : Glyph) (k : Nat) : 8 ≤ k → BadOperand (.addCustomGlyph g k) (.slotOutOfRange k)

/-- What a call whose guard passes does, by what it puts on the bus. -/
inductive Shape (s : State) : Instr → State → Prop
  /-- Whole writes from `Idle`, one transaction a run. -/
  | runs (i : Instr) (runs : List (Reg × List Byte)) : (∀ run ∈ runs, run.2 ≠ []) → s.phase = .idle → s.life = .ready →
    (∀ r n t, i ≠ .busWriteNibble r n t) → Shape s i (returning .nothing (emitRuns runs s))
  /-- Whole writes from `Idle`, then one read. -/
  | reads (i : Instr) (runs : List (Reg × List Byte)) (reg : Reg) (n : Nat) (r : Returned) :
    (∀ run ∈ runs, run.2 ≠ []) → s.phase = .idle → s.life = .ready → isFacade i = false →
    Shape s i (returning r (busReadBytes reg n (emitRuns runs s)).2)
  /-- A write of no bytes, in any phase (R116). -/
  | nothing (reg : Reg) : s.life = .ready → Shape s (.busWriteBytes reg []) (returning .nothing s)
  /-- A write that joins an open one. -/
  | join (reg : Reg) (bs : List Byte) : bs ≠ [] → s.phase = .active reg false → s.dir = .output → s.life = .ready →
    Shape s (.busWriteBytes reg bs) (returning .nothing (busWriteBytes reg bs s))
  /-- A lone nibble written. -/
  | nibble (i : Instr) (reg : Reg) (n : Nibble) (t : Bool) : s.phase = .idle → s.life = .ready → isFacade i = false →
    (t = false → i = .busWriteNibble reg n false) → Shape s i (returning .nothing (busWriteNibble reg n t s))
  /-- A lone nibble read. -/
  | readNibble (i : Instr) (reg : Reg) (n : Nibble) : s.phase = .idle → s.life = .ready → isFacade i = false →
    Shape s i (returning (.nibble (busReadNibble reg n s).1) (busReadNibble reg n s).2)
  | beginTransaction (t r : Bool) : s.phase = .idle → s.life = .ready →
    Shape s (.beginTransaction t r) (returning .nothing (beginTransaction (Reg.ofBool t) r s))
  | continueTransaction (reg : Reg) (r : Bool) : s.phase = .active reg r → s.life = .ready →
    Shape s (.continueTransaction r) (returning .nothing (continueTransaction r s))
  | endTransaction : s.phase ≠ .idle → s.life = .ready → Shape s .endTransaction (returning .nothing (endTransaction s))
  | driveNibble (reg : Reg) (n : Nibble) : s.phase = .active reg false → s.dir = .output → s.life = .ready →
    Shape s (.driveNibble n) (returning .nothing (driveNibble n s))
  | sampleNibble (reg : Reg) : s.phase = .active reg true → s.dir = .input → s.life = .ready →
    Shape s .sampleNibble (returning (.nibble (sampleNibble s).1) (sampleNibble s).2)
  | setDataDirection (i : Bool) : s.phase = .idle → s.life = .ready →
    Shape s (.setDataDirection i) (returning .nothing (setDataDirection i s))
  | pinWrite (r : PinRole) (v : Level) : r ∈ configuredRoles s.cfg → s.life = .ready →
    Shape s (.pinWrite r v) (returning .nothing (drive r v s))
  /-- A write of the backlight's role on a block that has none (log 18). -/
  | pinWriteNoLatch (v : Level) : s.cfg.useBacklight = false → s.life = .ready →
    Shape s (.pinWrite .bl v) (returning .nothing (emit (.drive .bl v) s))
  | pinRead (r : PinRole) : s.life = .ready →
    Shape s (.pinRead r) (returning (.level (wireLevel s)) (sample r s))
  /-- The four builders: nothing but what is handed back. -/
  | builder (i : Instr) (b : Byte) : s.life = .ready → isFacade i = false →
    Shape s i (returning (.byte b) s)
  /-- CONFIGURE and INIT with no reserved pin. -/
  | configured : s.phase = .idle → s.life = .ready → (∀ r ∈ configuredRoles s.cfg, reservedPin s.cfg r = false) →
    Shape s .configure (returning .nothing (configure s))
  | init : s.phase = .idle → s.life = .uninitialized → (∀ r ∈ configuredRoles s.cfg, reservedPin s.cfg r = false) →
    Shape s .init { configure s |> setDataDirection true |> returning .nothing with life := .pinsConfigured }
  /-- CONFIGURE and INIT with a reserved pin. -/
  | reserved (i : Instr) (before after : List PinRole) (r : PinRole) : s.phase = .idle →
    (i = .init ∧ s.life = .uninitialized ∨ i = .configure ∧ s.life = .ready) →
    configuredRoles s.cfg = before ++ r :: after → (∀ q ∈ before, reservedPin s.cfg q = false) →
    reservedPin s.cfg r = true → Shape s i (configure s)
  | enable : s.phase = .idle → s.life = .pinsConfigured →
    Shape s .enable { s |> wakeRitual |> busWriteBytes .command (initCommands s.cfg) |> returning .nothing with life := .ready }
  | backlight (on : Bool) : s.phase = .idle → s.life ≠ .uninitialized →
    Shape s (.setBacklight on)
      (returning .nothing (if s.cfg.useBacklight then drive .bl (levelFor blOnLevel on) s else s))
  /-- A precondition violation by an operand. -/
  | aborted (i : Instr) (c : Cause) : BadOperand i c → s.phase = .idle → s.life = .ready → Shape s i (abort c s)

/-- Every next state has a shape. -/
theorem exec_shape {i : Instr} {s t : State} (h : exec i s = .next t) :
    s.fault = none ∧ configWf s.cfg = true ∧ Shape s i t := by
  obtain ⟨g, rfl⟩ := exec_next.mp h
  have hb := guardOf_none g
  refine ⟨hb.1, hb.2.2.1, ?_⟩
  cases i
  case clear | home | entryMode | displayControl | shift | functionSet | setCgramAddr | setDdramAddr | jumpLine2
      | writeCommand | setAddressCounter =>
    have hi := internalIdleGuard_none.mp g
    simp only [effectOf, writeCommand, setAddressCounter, busWriteBytes_runs]
    exact .runs _ _ (writeRuns_ne _ _) hi.idle hi.ready (by simp)
  case nibWrCmd n =>
    have hi := internalIdleGuard_none.mp g
    exact .nibble _ .command n true hi.idle hi.ready rfl (by simp)
  case nibWrData n =>
    have hi := internalIdleGuard_none.mp g
    exact .nibble _ .data n true hi.idle hi.ready rfl (by simp)
  case nibRdCmd n =>
    have hi := internalIdleGuard_none.mp g
    exact .readNibble _ .command n hi.idle hi.ready rfl
  case nibRdData n =>
    have hi := internalIdleGuard_none.mp g
    exact .readNibble _ .data n hi.idle hi.ready rfl
  case txtNewline | txtGlyph | txtDropTab | txtDropVt | txtDropFf | txtDropCr | txtSpace | txtEscapeFailed | txtVerbatim =>
    have hi := internalIdleGuard_none.mp g
    simp only [effectOf, emitItems]
    exact .runs _ _ (runsOf_ne_nil _) hi.idle hi.ready (by simp)
  case beginTransaction t r =>
    have hi := internalIdleGuard_none.mp g
    exact .beginTransaction t r hi.idle hi.ready
  case continueTransaction r =>
    simp only [guardOf, Option.or_eq_none_iff, internalGuard_none, activeGuard_none] at g
    obtain ⟨ha, reg, d, hp, hd⟩ := g
    obtain rfl : d = r := by simpa using hd
    exact .continueTransaction reg d hp ha.ready
  case endTransaction =>
    simp only [guardOf, Option.or_eq_none_iff, internalGuard_none, activeGuard_none] at g
    obtain ⟨ha, reg, d, hp, hd⟩ := g
    exact .endTransaction (by rw [hp]; simp) ha.ready
  case driveNibble n =>
    simp only [guardOf, Option.or_eq_none_iff, internalGuard_none, activeGuard_none, dirGuard_none] at g
    obtain ⟨ha, ⟨reg, d, hp, hd⟩, hdir⟩ := g
    obtain rfl : d = false := by simpa using hd
    exact .driveNibble reg n hp hdir ha.ready
  case sampleNibble =>
    simp only [guardOf, Option.or_eq_none_iff, internalGuard_none, activeGuard_none, dirGuard_none] at g
    obtain ⟨ha, ⟨reg, d, hp, hd⟩, hdir⟩ := g
    obtain rfl : d = true := hd
    exact .sampleNibble reg hp hdir ha.ready
  case busWriteBytes reg bs =>
    simp only [guardOf, Option.or_eq_none_iff, internalGuard_none, writeGuard_none] at g
    obtain ⟨ha, hw⟩ := g
    by_cases hbs : bs = []
    · subst hbs
      exact .nothing reg ha.ready
    · rcases hw with h | h | ⟨h, hd⟩
      · exact absurd h hbs
      · simp only [effectOf, busWriteBytes_runs]
        exact .runs _ _ (writeRuns_ne _ _) h ha.ready (by simp)
      · exact .join reg bs hbs h hd ha.ready
  case busReadBytes reg n =>
    have hi := internalIdleGuard_none.mp g
    exact .reads _ [] reg n _ (by simp) hi.idle hi.ready rfl
  case busWriteNibble reg n t =>
    have hi := internalIdleGuard_none.mp g
    exact .nibble _ reg n t hi.idle hi.ready rfl (by rintro rfl; rfl)
  case configure =>
    have hi := internalIdleGuard_none.mp g
    rcases firstReserved s.cfg (configuredRoles s.cfg) with hr | ⟨before, r, after, e, h1, h2⟩
    · have hc := configure_ok s hi.config hr
      have hf : (configure s).fault = none := by rw [hc]; exact hi.alive
      simp only [effectOf, hf]
      exact .configured hi.idle hi.ready hr
    · have hc := configure_reserved s hi.config before after r e h1 h2
      have hf : (configure s).fault = some (.reservedPin r) := by rw [hc]
      simp only [effectOf, hf]
      exact .reserved _ before after r hi.idle (.inr ⟨rfl, hi.ready⟩) e h1 h2
  case setDataDirection i =>
    have hi := internalIdleGuard_none.mp g
    exact .setDataDirection i hi.idle hi.ready
  case pinWrite r v =>
    have hi := internalGuard_none.mp g
    by_cases hr : r ∈ configuredRoles s.cfg
    · simp only [effectOf, writePin_configured hr]
      exact .pinWrite r v hr hi.ready
    · obtain ⟨rfl, hl⟩ := not_configured.mp hr
      simp only [effectOf, writePin_not_configured hr]
      exact .pinWriteNoLatch v hl hi.ready
  case pinRead r =>
    exact .pinRead r (internalGuard_none.mp g).ready
  case encEntryMode | encDisplayControl | encFunctionSet | encShift =>
    have hi := internalGuard_none.mp g
    exact .builder _ _ hi.ready rfl
  case readBytes n a f =>
    have hi := internalIdleGuard_none.mp g
    simp only [effectOf, readBytes, setAddressCounter, writeCommand, busWriteBytes_runs]
    exact .reads _ _ .data n _ (writeRuns_ne _ _) hi.idle hi.ready rfl
  case writeBytesRaw data n =>
    have hi := internalIdleGuard_none.mp g
    simp only [effectOf, busWriteBytes_runs]
    exact .runs _ _ (writeRuns_ne _ _) hi.idle hi.ready (by simp)
  case writeBytesText data n =>
    have hi := internalIdleGuard_none.mp g
    simp only [effectOf, writeText, emitItems]
    exact .runs _ _ (runsOf_ne_nil _) hi.idle hi.ready (by simp)
  case readStatus =>
    have hi := internalIdleGuard_none.mp g
    exact .reads _ [] .command 1 _ (by simp) hi.idle hi.ready rfl
  case init =>
    obtain ⟨h1, h2, h3, h4⟩ := facadeGuard_none.mp g
    have hl : s.life = .uninitialized := by simpa using h2
    rcases firstReserved s.cfg (configuredRoles s.cfg) with hr | ⟨before, r, after, e, h5, h6⟩
    · have hc := configure_ok s h3 hr
      have hf : (configure s).fault = none := by rw [hc]; exact h1
      simp only [effectOf, hf]
      exact .init h4 hl hr
    · have hc := configure_reserved s h3 before after r e h5 h6
      have hf : (configure s).fault = some (.reservedPin r) := by rw [hc]
      simp only [effectOf, hf]
      exact .reserved _ before after r h4 (.inl ⟨rfl, hl⟩) e h5 h6
  case enable =>
    obtain ⟨h1, h2, h3, h4⟩ := facadeGuard_none.mp g
    exact .enable h4 (by simpa using h2)
  case displayWrite text =>
    have hi := contentGuard_none.mp g
    simp only [effectOf]
    split
    · next h => exact .aborted _ _ (.write text h) hi.idle hi.ready
    · simp only [writeText, emitItems, writeCommand, busWriteBytes_runs, ← emitRuns_append]
      refine .runs _ _ ?_ hi.idle hi.ready (by simp)
      intro run hr
      rcases List.mem_append.mp hr with h | h
      · exact writeRuns_ne _ _ run h
      · exact runsOf_ne_nil _ run h
  case displayAppend text =>
    have hi := contentGuard_none.mp g
    simp only [effectOf]
    split
    · next h => exact .aborted _ _ (.append text h) hi.idle hi.ready
    · simp only [writeText, emitItems]
      exact .runs _ _ (runsOf_ne_nil _) hi.idle hi.ready (by simp)
  case addCustomGlyph gl slot =>
    have hi := contentGuard_none.mp g
    simp only [effectOf]
    split
    · next h => exact .aborted _ _ (.slot gl slot h) hi.idle hi.ready
    · simp only [setAddressCounter, writeCommand, busWriteBytes_runs, ← emitRuns_append]
      refine .runs _ _ ?_ hi.idle hi.ready (by simp)
      intro run hr
      rcases List.mem_append.mp hr with h | h <;> exact writeRuns_ne _ _ run h
  case setCursor x y =>
    have hi := contentGuard_none.mp g
    simp only [effectOf]
    split
    · next h => exact .aborted _ _ (.cursor x y (by simp only [cols, lines] at h; omega)) hi.idle hi.ready
    · simp only [setAddressCounter, writeCommand, busWriteBytes_runs]
      exact .runs _ _ (writeRuns_ne _ _) hi.idle hi.ready (by simp)
  case toggleFeatures | reset =>
    have hi := contentGuard_none.mp g
    simp only [effectOf, writeCommand, busWriteBytes_runs]
    exact .runs _ _ (writeRuns_ne _ _) hi.idle hi.ready (by simp)
  case setBacklight on =>
    obtain ⟨h1, h2, h3, h4⟩ := facadeGuard_none.mp g
    exact .backlight on h4 (by simpa using h2)

end Sys2Proof.Machine
end

