-- ==== Sys2Proof/Laws/Keeps.lean ====
section
/-! SUPPORT. What every operation keeps of the peer: a property that taking a frame keeps, every call keeps. -/

namespace Sys2Proof.Machine

/-- Taking a frame keeps `P`. -/
def KeptByFrames (P : Peer → Prop) : Prop := ∀ n dir pins p, P p → P (peerReceive n dir pins p)

variable {P : Peer → Prop} (hP : KeptByFrames P)
include hP

theorem drive_keeps (r : PinRole) (v : Level) (s : State) (h : P s.peer) : P (drive r v s).peer := by
  simp only [drive]
  split
  · exact hP _ _ _ _ h
  · exact h

theorem continueTransaction_keeps (r : Bool) (s : State) (h : P s.peer) : P (continueTransaction r s).peer := by
  rw [continueTransaction_eq]
  simp only
  split
  · exact hP _ _ _ _ h
  · exact h

theorem endTransaction_keeps (s : State) (h : P s.peer) : P (endTransaction s).peer := by
  rw [endTransaction_eq]
  simp only
  split
  · exact hP _ _ _ _ h
  · exact h

theorem driveBytes_keeps : ∀ (bs : List Byte) (s : State), P s.peer → P (driveBytes bs s).peer
  | [], _, h => h
  | [b], s, h => by
    simp only [driveBytes, driveNibble_peer]
    exact continueTransaction_keeps hP _ _ (by rw [driveNibble_peer]; exact h)
  | b :: c :: rest, s, h => by
    simp only [driveBytes]
    apply driveBytes_keeps (c :: rest)
    apply continueTransaction_keeps hP
    rw [driveNibble_peer]
    exact continueTransaction_keeps hP _ _ (by rw [driveNibble_peer]; exact h)

theorem busWriteBytes_keeps (reg : Reg) (bs : List Byte) (s : State) (h : P s.peer) :
    P (busWriteBytes reg bs s).peer := by
  by_cases hb : bs = []
  · subst hb; rw [busWriteBytes_nil]; exact h
  · have key : (busWriteBytes reg bs s).peer = (endTransaction (driveBytes bs (openWrite reg s))).peer := by
      simp [busWriteBytes, hb, deliver]
    rw [key]
    apply endTransaction_keeps hP
    apply driveBytes_keeps hP
    simp only [openWrite]
    split
    · rw [beginTransaction_peer, setDataDirection_peer]; exact h
    · exact continueTransaction_keeps hP _ _ h

theorem emitRuns_keeps : ∀ (runs : List (Reg × List Byte)) (s : State), P s.peer → P (emitRuns runs s).peer
  | [], _, h => h
  | (reg, bs) :: more, s, h => emitRuns_keeps more _ (busWriteBytes_keeps hP reg bs s h)

theorem sampleByte_keeps (s : State) (h : P s.peer) : P (sampleByte s).2.peer := by
  have e : (sampleByte s).2.peer = (continueTransaction true (sampleNibble s).2).peer := rfl
  rw [e]
  exact continueTransaction_keeps hP _ _ (by rw [sampleNibble_peer]; exact h)

theorem sampleBytes_keeps : ∀ (k : Nat) (s : State), P s.peer → P (sampleBytes k s).2.peer
  | 0, _, h => h
  | 1, s, h => by simp only [sampleBytes]; exact sampleByte_keeps hP s h
  | k + 2, s, h => by
    simp only [sampleBytes]
    exact sampleBytes_keeps (k + 1) _ (continueTransaction_keeps hP _ _ (sampleByte_keeps hP s h))

theorem busReadBytes_keeps (reg : Reg) (k : Nat) (s : State) (h : P s.peer) : P (busReadBytes reg k s).2.peer := by
  by_cases hk : k = 0
  · subst hk; exact h
  · have key : (busReadBytes reg k s).2.peer =
        (endTransaction (sampleBytes k (beginTransaction reg true (setDataDirection true s))).2).peer := by
      simp [busReadBytes, hk, deliver]
    rw [key]
    apply endTransaction_keeps hP
    apply sampleBytes_keeps hP
    rw [beginTransaction_peer, setDataDirection_peer]
    exact h

theorem busWriteNibble_keeps (reg : Reg) (n : Nibble) (t : Bool) (s : State) (h : P s.peer) :
    P (busWriteNibble reg n t s).peer := by
  rw [busWriteNibble_eq]
  cases t with
  | false => exact h
  | true => exact hP s.draws .output (latchesAfterWrite s.pin reg true n) s.peer h

theorem busReadNibble_keeps (reg : Reg) (n : Nibble) (s : State) (h : P s.peer) : P (busReadNibble reg n s).2.peer := by
  simp only [busReadNibble, deliver]
  apply endTransaction_keeps hP
  rw [sampleNibble_peer]
  simp only [beginTransaction_peer, setDataDirection_peer]
  exact h

omit hP in
theorem configure_peer (s : State) (hw : configWf s.cfg = true) : (configure s).peer = s.peer := by
  rcases firstReserved s.cfg (configuredRoles s.cfg) with hr | ⟨before, r, after, e, h1, h2⟩
  · rw [configure_ok s hw hr]
  · rw [configure_reserved s hw before after r e h1 h2]

theorem wakeRitual_keeps (s : State) (h : P s.peer) : P (wakeRitual s).peer := by
  have e : (wakeRitual s).peer = peerReceive (s.draws + 1) .output (latchesAfterWrite s.pin .command true s.cfg.wakeNibble)
      (peerReceive s.draws .output (latchesAfterWrite s.pin .command true s.cfg.wakeNibble) s.peer) := by rw [wakeRitual_eq]
  rw [e]
  exact hP _ _ _ _ (hP _ _ _ _ h)

/-- A property of the peer that every frame keeps, every call keeps. -/
theorem exec_keeps {i : Instr} {s t : State} (he : exec i s = .next t) (h : P s.peer) : P t.peer := by
  obtain ⟨-, hw, sh⟩ := exec_shape he
  cases sh with
  | runs i runs hr => rw [returning_peer]; exact emitRuns_keeps hP _ _ h
  | reads => rw [returning_peer]; exact busReadBytes_keeps hP _ _ _ (emitRuns_keeps hP _ _ h)
  | nothing => rw [returning_peer]; exact h
  | join => rw [returning_peer]; exact busWriteBytes_keeps hP _ _ _ h
  | nibble => rw [returning_peer]; exact busWriteNibble_keeps hP _ _ _ _ h
  | readNibble => rw [returning_peer]; exact busReadNibble_keeps hP _ _ _ h
  | beginTransaction => rw [returning_peer, beginTransaction_peer]; exact h
  | continueTransaction => rw [returning_peer]; exact continueTransaction_keeps hP _ _ h
  | endTransaction => rw [returning_peer]; exact endTransaction_keeps hP _ h
  | driveNibble => rw [returning_peer, driveNibble_peer]; exact h
  | sampleNibble => rw [returning_peer, sampleNibble_peer]; exact h
  | setDataDirection => rw [returning_peer, setDataDirection_peer]; exact h
  | pinWrite => rw [returning_peer]; exact drive_keeps hP _ _ _ h
  | pinWriteNoLatch => rw [returning_peer]; exact h
  | pinRead => rw [returning_peer, sample_peer]; exact h
  | builder => rw [returning_peer]; exact h
  | configured => rw [returning_peer, configure_peer s hw]; exact h
  | init =>
    show P (returning .nothing (setDataDirection true (configure s))).peer
    rw [returning_peer, setDataDirection_peer, configure_peer s hw]
    exact h
  | reserved => rw [configure_peer s hw]; exact h
  | enable =>
    show P (returning .nothing (busWriteBytes .command (initCommands s.cfg) (wakeRitual s))).peer
    rw [returning_peer]
    exact busWriteBytes_keeps hP _ _ _ (wakeRitual_keeps hP s h)
  | backlight =>
    rw [returning_peer]
    split
    · exact drive_keeps hP _ _ _ h
    · exact h
  | aborted => rw [abort_peer]; exact h

omit hP

/-- The canonical form of both RAMs is such a property. -/
theorem wf_keptByFrames : KeptByFrames Peer.wf := peerReceive_wf

/-- The peer is past the ritual. -/
def Peer.past (p : Peer) : Prop := (∀ k, p.sync ≠ .waking k) ∧ ∀ n, p.sync ≠ .settling n

theorem peerByte_past (n : Nat) (s w : Level) (b : Byte) (p : Peer) : (peerByte n s w b p).past := by
  simp only [peerByte, peerReadData, peerReadStatus, peerCommand]
  split
  · split <;> exact ⟨by simp, by simp⟩
  · split
    · have := peerWriteData_paired n b p
      exact ⟨by simp [this], by simp [this]⟩
    · split <;> exact ⟨by simp [peerLost], by simp [peerLost]⟩

theorem peerLost_past (n : Nat) : (peerLost n).past := ⟨by simp [peerLost], by simp [peerLost]⟩

theorem peerFrame_past (n : Nat) (s w : Level) (nib : Nibble) (p : Peer) (h : p.past) : (peerFrame n s w nib p).past := by
  simp only [peerFrame]
  split
  · next k hk => exact absurd hk (h.1 k)
  · next k hk => exact absurd hk (h.2 k)
  · exact ⟨by simp, by simp⟩
  · split
    · exact peerByte_past ..
    · exact peerLost_past n
  · exact peerLost_past n

/-- Nothing brings the peer back to before the ritual (R302). -/
theorem past_keptByFrames : KeptByFrames Peer.past := by
  intro n dir pins p h
  simp only [peerReceive]
  split
  · exact peerFrame_past n _ _ _ p h
  · exact peerLost_past n

end Sys2Proof.Machine
end

