-- ==== Sys2Proof/Laws/Environment.lean ====
section
/-! SUPPORT. The block never acts on what the environment answers (40_bus_engine R123, 20_memory R57): two states that agree on the
block's side still agree after any of the shared operations. -/

namespace Sys2Proof.Machine

/-- Reads of as many bytes deliver the same, once the values are erased. -/
theorem readTransfers_shape (reg : Reg) {bs bs' : List Byte} (h : bs'.length = bs.length) :
    (bs'.map fun b => (⟨reg, true, .byte b⟩ : Transfer)).map Transfer.shape =
      (bs.map fun b => (⟨reg, true, .byte b⟩ : Transfer)).map Transfer.shape := by
  have e : (fun b => Transfer.shape ⟨reg, true, .byte b⟩) = fun _ => ⟨reg, true, .byte 0⟩ := rfl
  simp only [List.map_map, Function.comp_def, e, List.map_const', h]

namespace SameBlock

variable {s t : State} (h : SameBlock s t)
include h

/-- The same lone nibble is owed. -/
theorem owedTransfers : owedTransfers t = owedTransfers s := by simp only [Machine.owedTransfers, h.lone, h.pin]

theorem drive (r : PinRole) (v : Level) : SameBlock (drive r v s) (drive r v t) := by
  have hd : (Machine.drive r v t).delivered.map Transfer.shape = (Machine.drive r v s).delivered.map Transfer.shape := by
    simp only [drive_delivered, h.owedTransfers]
    split <;> simp [h.delivered]
  exact ⟨by simp [h.trace], hd, by simp [h.pin], h.dir, h.phase, h.life, h.fault, h.domains, h.cfg, h.calls, by simp [h.lone],
    h.result⟩

theorem emit (e : Event) : SameBlock (emit e s) (emit e t) :=
  ⟨by simp [h.trace], h.delivered, h.pin, h.dir, h.phase, h.life, h.fault, h.domains, h.cfg, h.calls, h.lone, h.result⟩

theorem writePin (r : PinRole) (v : Level) : SameBlock (writePin r v s) (writePin r v t) := by
  unfold Machine.writePin
  rw [h.cfg]
  split
  · exact h.drive r v
  · exact h.emit _

theorem sample (r : PinRole) : SameBlock (sample r s) (sample r t) :=
  ⟨by simp [h.trace, Event.shape], h.delivered, h.pin, h.dir, h.phase, h.life, h.fault, h.domains, h.cfg, h.calls, h.lone,
    h.result⟩

theorem abort (c : Cause) : SameBlock (abort c s) (abort c t) :=
  ⟨by simp [h.trace], h.delivered, h.pin, h.dir, h.phase, h.life, rfl, h.domains, h.cfg, h.calls, h.lone, h.result⟩

theorem returning {r r' : Returned} (hr : r'.shape = r.shape) : SameBlock (returning r s) (returning r' t) :=
  ⟨h.trace, h.delivered, h.pin, h.dir, h.phase, h.life, h.fault, h.domains, h.cfg, h.calls, h.lone, hr⟩

theorem deliver {ts ts' : List Transfer} (ht : ts'.map Transfer.shape = ts.map Transfer.shape) :
    SameBlock (deliver ts s) (deliver ts' t) :=
  ⟨h.trace, by simp [h.delivered, ht], h.pin, h.dir, h.phase, h.life, h.fault, h.domains, h.cfg, h.calls, h.lone, h.result⟩

theorem withWire (a b : List Level) : SameBlock { s with wire := a } { t with wire := b } :=
  ⟨h.trace, h.delivered, h.pin, h.dir, h.phase, h.life, h.fault, h.domains, h.cfg, h.calls, h.lone, h.result⟩

theorem withLone (l : Bool) : SameBlock { s with lone := l } { t with lone := l } :=
  ⟨h.trace, h.delivered, h.pin, h.dir, h.phase, h.life, h.fault, h.domains, h.cfg, h.calls, rfl, h.result⟩

theorem withLife (l : Life) : SameBlock { s with life := l } { t with life := l } :=
  ⟨h.trace, h.delivered, h.pin, h.dir, h.phase, rfl, h.fault, h.domains, h.cfg, h.calls, h.lone, h.result⟩

theorem setDataDirection (i : Bool) : SameBlock (setDataDirection i s) (setDataDirection i t) := by
  rw [setDataDirection_eq, setDataDirection_eq]
  exact ⟨by simp [h.trace], h.delivered, h.pin, rfl, h.phase, h.life, h.fault, h.domains, h.cfg, h.calls, h.lone, h.result⟩

theorem beginTransaction (reg : Reg) (r : Bool) : SameBlock (beginTransaction reg r s) (beginTransaction reg r t) := by
  rw [beginTransaction_eq, beginTransaction_eq]
  exact ⟨by simp [h.trace, h.cfg], h.delivered, by simp [h.pin], h.dir, rfl, h.life, h.fault, h.domains, h.cfg, h.calls, rfl,
    h.result⟩

theorem continueTransaction (r : Bool) : SameBlock (continueTransaction r s) (continueTransaction r t) := by
  rw [continueTransaction_eq, continueTransaction_eq]
  exact ⟨by simp [h.trace, h.cfg], by simp [h.delivered, h.owedTransfers], by simp [h.pin], h.dir, h.phase, h.life, h.fault,
    h.domains, h.cfg, h.calls, rfl, h.result⟩

theorem endTransaction : SameBlock (endTransaction s) (endTransaction t) := by
  rw [endTransaction_eq, endTransaction_eq]
  exact ⟨by simp [h.trace, h.cfg], by simp [h.delivered, h.owedTransfers], by simp [h.pin], h.dir, rfl, h.life, h.fault,
    h.domains, h.cfg, h.calls, rfl, h.result⟩

theorem driveNibble (n : Nibble) : SameBlock (driveNibble n s) (driveNibble n t) :=
  (((h.drive _ _).drive _ _).drive _ _).drive _ _

theorem sampleNibble : SameBlock (sampleNibble s).2 (sampleNibble t).2 :=
  (((h.sample _).sample _).sample _).sample _

theorem sampleByte : SameBlock (sampleByte s).2 (sampleByte t).2 := (h.sampleNibble.continueTransaction _).sampleNibble

theorem openWrite (reg : Reg) : SameBlock (openWrite reg s) (openWrite reg t) := by
  unfold Machine.openWrite
  rw [h.phase]
  split
  · exact (h.setDataDirection _).beginTransaction _ _
  · exact h.continueTransaction _

omit h in
theorem driveBytes : ∀ (bs : List Byte) {s t : State}, SameBlock s t → SameBlock (driveBytes bs s) (driveBytes bs t)
  | [], _, _, h => h
  | [_], _, _, h => ((h.driveNibble _).continueTransaction _).driveNibble _
  | _ :: c :: r, _, _, h =>
    driveBytes (c :: r) ((((h.driveNibble _).continueTransaction _).driveNibble _).continueTransaction _)

omit h in
theorem sampleBytes : ∀ (k : Nat) {s t : State}, SameBlock s t → SameBlock (sampleBytes k s).2 (sampleBytes k t).2
  | 0, _, _, h => h
  | 1, _, _, h => h.sampleByte
  | k + 2, _, _, h => sampleBytes (k + 1) (h.sampleByte.continueTransaction _)

theorem busWriteBytes (reg : Reg) (bs : List Byte) : SameBlock (busWriteBytes reg bs s) (busWriteBytes reg bs t) := by
  unfold Machine.busWriteBytes
  split
  · exact h
  · exact (driveBytes _ (h.openWrite _)).endTransaction.deliver rfl

theorem busReadBytes (reg : Reg) (k : Nat) : SameBlock (busReadBytes reg k s).2 (busReadBytes reg k t).2 := by
  unfold Machine.busReadBytes
  split
  · exact h
  · exact (sampleBytes _ ((h.setDataDirection _).beginTransaction _ _)).endTransaction.deliver
      (readTransfers_shape reg (by rw [sampleBytes_length, sampleBytes_length]))

theorem busWriteNibble (reg : Reg) (n : Nibble) (e : Bool) : SameBlock (busWriteNibble reg n e s) (busWriteNibble reg n e t) := by
  have k := (((h.setDataDirection false).beginTransaction reg false).driveNibble n).withLone true
  unfold Machine.busWriteNibble
  cases e
  · exact k
  · exact k.endTransaction

theorem busReadNibble (reg : Reg) (n : Nibble) : SameBlock (busReadNibble reg n s).2 (busReadNibble reg n t).2 :=
  (((h.setDataDirection _).beginTransaction _ _).withWire _ _).sampleNibble.endTransaction.deliver rfl

omit h in
theorem emitRuns : ∀ (runs : List (Reg × List Byte)) {s t : State}, SameBlock s t → SameBlock (emitRuns runs s) (emitRuns runs t)
  | [], _, _, h => h
  | (_, _) :: more, _, _, h => emitRuns more (h.busWriteBytes _ _)

theorem wakeRitual : SameBlock (wakeRitual s) (wakeRitual t) := by
  rw [wakeRitual_eq, wakeRitual_eq]
  exact ⟨by simp [h.trace, h.cfg], by simp [h.delivered, h.cfg], by simp [h.pin, h.cfg], rfl, rfl, rfl, h.fault, h.domains,
    h.cfg, h.calls, rfl, h.result⟩

theorem configure (hs : configWf s.cfg = true) : SameBlock (configure s) (configure t) := by
  have ht : configWf t.cfg = true := by rw [h.cfg]; exact hs
  rcases firstReserved s.cfg (configuredRoles s.cfg) with hr | ⟨before, r, after, e, h1, h2⟩
  · rw [configure_ok s hs hr, configure_ok t ht (by rw [h.cfg]; exact hr)]
    exact ⟨by simp [h.trace, h.cfg, h.domains], h.delivered, h.pin, rfl, h.phase, h.life, h.fault, by simp [h.cfg, h.domains], h.cfg,
      h.calls, h.lone, h.result⟩
  · rw [configure_reserved s hs before after r e h1 h2, configure_reserved t ht before after r (by rw [h.cfg]; exact e)
      (by rw [h.cfg]; exact h1) (by rw [h.cfg]; exact h2)]
    exact ⟨by simp [h.trace, h.cfg, h.domains], h.delivered, h.pin, h.dir, h.phase, h.life, rfl, by simp [h.cfg, h.domains], h.cfg,
      h.calls, h.lone, h.result⟩

end SameBlock

/-- Agreeing states pass the same guards, and fail them by the same name. -/
theorem SameBlock.guardOf {s t : State} (h : SameBlock s t) (i : Instr) : guardOf i t = guardOf i s := by
  cases i <;> simp only [Machine.guardOf, internalIdleGuard, internalGuard, facadeGuard, callGuard, contentGuard, aliveGuard,
    lifeGuard, configGuard, idleGuard, activeGuard, dirGuard, writeGuard, h.phase, h.dir, h.life, h.fault, h.cfg]

end Sys2Proof.Machine
end

