-- ==== Sys2Proof/Laws/PerInstr.lean ====
section
/-! SUPPORT. A fact about every instruction, one lemma per constructor: the first byte of its call, written out from the format
and, for an operation, the select code of spec/opcode_table.json (30_encoding R80, R93, R100), in the call form of log 1. -/

namespace Sys2Proof.Laws.EncodeHead

/-- The first byte of an instruction's call. -/
def headOf : Instr → Byte
  | .clear => 0x40
  | .home => 0x40
  | .entryMode _ _ => 0x40
  | .displayControl _ _ _ => 0x40
  | .shift _ _ _ => 0x40
  | .functionSet _ _ _ _ => 0x40
  | .setCgramAddr _ => 0x40
  | .setDdramAddr _ => 0x40
  | .jumpLine2 => 0x41
  | .nibWrCmd n => 0b1000#4 ++ n
  | .nibWrData n => 0b1010#4 ++ n
  | .nibRdCmd n => 0b1001#4 ++ n
  | .nibRdData n => 0b1011#4 ++ n
  | .txtNewline => 0xC1
  | .txtGlyph _ => 0xC2
  | .txtDropTab => 0xC1
  | .txtDropVt => 0xC1
  | .txtDropFf => 0xC1
  | .txtDropCr => 0xC1
  | .txtSpace => 0xC1
  | .txtEscapeFailed => 0xC1
  | .txtVerbatim _ => 0xC1
  | .beginTransaction _ _ => 0b00000000
  | .continueTransaction _ => 0b00000001
  | .endTransaction => 0b00000010
  | .driveNibble _ => 0b00000011
  | .sampleNibble => 0b00000100
  | .busWriteBytes _ _ => 0b00000101
  | .busReadBytes _ _ => 0b00000110
  | .busWriteNibble _ _ _ => 0b00000111
  | .configure => 0b00001000
  | .setDataDirection _ => 0b00001001
  | .pinWrite _ _ => 0b00001010
  | .pinRead _ => 0b00001011
  | .encEntryMode _ _ => 0b00010000
  | .encDisplayControl _ _ _ => 0b00010001
  | .encFunctionSet _ _ _ => 0b00010010
  | .encShift _ _ => 0b00010011
  | .writeCommand _ => 0b00010100
  | .setAddressCounter _ _ => 0b00011000
  | .readBytes _ _ _ => 0b00011001
  | .writeBytesRaw _ _ => 0b00011010
  | .writeBytesText _ _ => 0b00011010
  | .readStatus => 0b00011011
  | .init => 0b00100000
  | .enable => 0b00100001
  | .displayWrite _ => 0b00100010
  | .displayAppend _ => 0b00100011
  | .addCustomGlyph _ _ => 0b00100100
  | .setCursor _ _ => 0b00100101
  | .toggleFeatures _ _ _ => 0b00100110
  | .reset => 0b00100111
  | .setBacklight _ => 0b00101000

/-- A call begins with that byte. -/
def Statement (i : Instr) : Prop := ∃ rest, encode i = headOf i :: rest

theorem clear : Statement .clear := ⟨_, rfl⟩
theorem home : Statement .home := ⟨_, rfl⟩
theorem entryMode (r s : Bool) : Statement (.entryMode r s) := ⟨_, rfl⟩
theorem displayControl (d c b : Bool) : Statement (.displayControl d c b) := ⟨_, rfl⟩
theorem shift (w t : Bool) (x : BitVec 2) : Statement (.shift w t x) := ⟨_, rfl⟩
theorem functionSet (l n f : Bool) (x : BitVec 2) : Statement (.functionSet l n f x) := ⟨_, rfl⟩
theorem setCgramAddr (a : BitVec 6) : Statement (.setCgramAddr a) := ⟨_, rfl⟩
theorem setDdramAddr (a : BitVec 7) : Statement (.setDdramAddr a) := ⟨_, rfl⟩
theorem jumpLine2 : Statement .jumpLine2 := ⟨_, rfl⟩
theorem nibWrCmd (n : Nibble) : Statement (.nibWrCmd n) := by
  have h : ∀ n : Fin (2 ^ 4), encode (.nibWrCmd (BitVec.ofFin n)) = [headOf (.nibWrCmd (BitVec.ofFin n))] := by decide
  exact ⟨[], h n.toFin⟩
theorem nibWrData (n : Nibble) : Statement (.nibWrData n) := by
  have h : ∀ n : Fin (2 ^ 4), encode (.nibWrData (BitVec.ofFin n)) = [headOf (.nibWrData (BitVec.ofFin n))] := by decide
  exact ⟨[], h n.toFin⟩
theorem nibRdCmd (n : Nibble) : Statement (.nibRdCmd n) := by
  have h : ∀ n : Fin (2 ^ 4), encode (.nibRdCmd (BitVec.ofFin n)) = [headOf (.nibRdCmd (BitVec.ofFin n))] := by decide
  exact ⟨[], h n.toFin⟩
theorem nibRdData (n : Nibble) : Statement (.nibRdData n) := by
  have h : ∀ n : Fin (2 ^ 4), encode (.nibRdData (BitVec.ofFin n)) = [headOf (.nibRdData (BitVec.ofFin n))] := by decide
  exact ⟨[], h n.toFin⟩
theorem txtNewline : Statement .txtNewline := ⟨_, rfl⟩
theorem txtGlyph (d : BitVec 3) : Statement (.txtGlyph d) := ⟨_, rfl⟩
theorem txtDropTab : Statement .txtDropTab := ⟨_, rfl⟩
theorem txtDropVt : Statement .txtDropVt := ⟨_, rfl⟩
theorem txtDropFf : Statement .txtDropFf := ⟨_, rfl⟩
theorem txtDropCr : Statement .txtDropCr := ⟨_, rfl⟩
theorem txtSpace : Statement .txtSpace := ⟨_, rfl⟩
theorem txtEscapeFailed : Statement .txtEscapeFailed := ⟨_, rfl⟩
theorem txtVerbatim (c : Byte) : Statement (.txtVerbatim c) := ⟨_, rfl⟩
theorem beginTransaction (targetIsDataRegister isRead : Bool) : Statement (.beginTransaction targetIsDataRegister isRead) := ⟨_, rfl⟩
theorem continueTransaction (isRead : Bool) : Statement (.continueTransaction isRead) := ⟨_, rfl⟩
theorem endTransaction : Statement .endTransaction := ⟨_, rfl⟩
theorem driveNibble (n : Nibble) : Statement (.driveNibble n) := ⟨_, rfl⟩
theorem sampleNibble : Statement .sampleNibble := ⟨_, rfl⟩
theorem busWriteBytes (reg : Reg) (bytes : List Byte) : Statement (.busWriteBytes reg bytes) := ⟨_, rfl⟩
theorem busReadBytes (reg : Reg) (count : Nat) : Statement (.busReadBytes reg count) := ⟨_, rfl⟩
theorem busWriteNibble (reg : Reg) (n : Nibble) (terminate : Bool) : Statement (.busWriteNibble reg n terminate) := ⟨_, rfl⟩
theorem configure : Statement .configure := ⟨_, rfl⟩
theorem setDataDirection (isInput : Bool) : Statement (.setDataDirection isInput) := ⟨_, rfl⟩
theorem pinWrite (r : PinRole) (level : Level) : Statement (.pinWrite r level) := ⟨_, rfl⟩
theorem pinRead (r : PinRole) : Statement (.pinRead r) := ⟨_, rfl⟩
theorem encEntryMode (cursorMovesRight displayShiftsOnWrite : Bool) : Statement (.encEntryMode cursorMovesRight displayShiftsOnWrite) := ⟨_, rfl⟩
theorem encDisplayControl (displayOn cursorOn cursorBlinks : Bool) : Statement (.encDisplayControl displayOn cursorOn cursorBlinks) := ⟨_, rfl⟩
theorem encFunctionSet (eightBitBus twoLineMode font5x10 : Bool) : Statement (.encFunctionSet eightBitBus twoLineMode font5x10) := ⟨_, rfl⟩
theorem encShift (shiftWholeDisplay shiftRight : Bool) : Statement (.encShift shiftWholeDisplay shiftRight) := ⟨_, rfl⟩
theorem writeCommand (c : Byte) : Statement (.writeCommand c) := ⟨_, rfl⟩
theorem setAddressCounter (addr : BitVec 7) (targetIsDataRam : Bool) : Statement (.setAddressCounter addr targetIsDataRam) := ⟨_, rfl⟩
theorem readBytes (count : Nat) (startAddr : BitVec 7) (fromDataRam : Bool) : Statement (.readBytes count startAddr fromDataRam) := ⟨_, rfl⟩
theorem writeBytesRaw (data : List Byte) (count : Nat) : Statement (.writeBytesRaw data count) := ⟨_, rfl⟩
theorem writeBytesText (data : List Byte) (count : Nat) : Statement (.writeBytesText data count) := ⟨_, rfl⟩
theorem readStatus : Statement .readStatus := ⟨_, rfl⟩
theorem init : Statement .init := ⟨_, rfl⟩
theorem enable : Statement .enable := ⟨_, rfl⟩
theorem displayWrite (text : List Byte) : Statement (.displayWrite text) := ⟨_, rfl⟩
theorem displayAppend (text : List Byte) : Statement (.displayAppend text) := ⟨_, rfl⟩
theorem addCustomGlyph (pattern : Glyph) (slot : Nat) : Statement (.addCustomGlyph pattern slot) := ⟨_, rfl⟩
theorem setCursor (x y : Nat) : Statement (.setCursor x y) := ⟨_, rfl⟩
theorem toggleFeatures (displayOn cursorOn cursorBlinkOn : Bool) : Statement (.toggleFeatures displayOn cursorOn cursorBlinkOn) := ⟨_, rfl⟩
theorem reset : Statement .reset := ⟨_, rfl⟩
theorem setBacklight (on : Bool) : Statement (.setBacklight on) := ⟨_, rfl⟩

end Sys2Proof.Laws.EncodeHead
end

