-- ==== Sys2Proof/Tests/Slice0.lean ====
section
/-! SUPPORT. Tests. Expected values are written out from the words and tables of spec/, most from 95_test_vectors; each test names
its source. -/

namespace Sys2Proof.Machine.Tests

/-! ## The configuration and the states the tests start from -/

def onPort (domain mask : Nat) : Option PinDescriptor := some ⟨domain, 0, mask⟩

/-- V-PIN-1 and the open parameters of P3; the durations are numbers that R7 admits. -/
def testConfig : Config :=
  { scale := 1, tAs := 3, tRise := 1, tFall := 1, tDsw := 5, tDdr := 7, tH := 2, tCyc := 20
    cycRemWrite := 11, cycRemRead := 13, tPowerOn := 100, tWake1 := 50, tWake2 := 20
    wakeNibble := 3, initTwoLine := true, initFont5x10 := false, initDisplayOn := true, initCursorOn := false
    initBlink := false, initCursorRight := true, initShiftOnWrite := false
    pins := ⟨onPort 0 1, onPort 0 2, onPort 0 4, onPort 1 128, onPort 0 8, onPort 0 16, onPort 0 32, onPort 0 64⟩
    useBacklight := false, reserved := [], driveStrength := 8, slewControl := 1, timerModulus := 1000 }

/-- V-PIN-2: the backlight used, RS, RW and E in domain 0, the others in domain 1. -/
def backlightConfig : Config :=
  { testConfig with
    useBacklight := true
    pins := ⟨onPort 0 1, onPort 0 2, onPort 0 4, onPort 1 128, onPort 1 8, onPort 1 16, onPort 1 32, onPort 1 64⟩ }

/-- P2b: E on a reserved pin. -/
def reservedConfig : Config := { testConfig with reserved := [(0, 4)] }

/-- A peer that is in step, its counter at DDRAM 0x43, increment mode. -/
def pairedPeer : Peer :=
  { sync := .paired, regs := ⟨0x43, .ddram, true, false, true, false, false, true, false⟩
    ddram := [(0x10, 0x2A)], cgram := [(0x08, 0x1F)] }

/-- The same under decrement mode. -/
def leftPeer : Peer := { pairedPeer with regs := { pairedPeer.regs with cursorRight := false } }

/-- The state after reset, with a configuration. -/
def fresh (c : Config) : State :=
  { cfg := c, pin := Pins.unwritten, dir := .noValue, phase := .idle, life := .uninitialized, fault := none, domains := []
    trace := [], delivered := [], lone := false, result := .nothing, wire := [], draws := 1
    peer := { pairedPeer with sync := .waking 0 }, calls := [] }

/-- The state after INIT. -/
def configured (c : Config) : State := { fresh c with life := .pinsConfigured, dir := .input, domains := [0] }

/-- The end state of P3. -/
def ready : State :=
  { fresh testConfig with
    life := .ready, dir := .output, domains := [0], peer := pairedPeer
    pin := ⟨.held false, .held false, .held false, .noValue, .held false, .held true, .held true, .held false⟩ }

/-- `ready` with a transaction open. -/
def opened (reg : Reg) (isRead : Bool) : State :=
  { ready with
    phase := .active reg isRead, dir := if isRead then .input else .output
    pin := { ready.pin with rs := .held reg.isData, rw := .held isRead, e := .held true } }

/-- What T4 leaves: the nibble 3 of an unterminated BUS_WRITE_NIBBLE on the pins, its frame still to come. -/
def loneOpened : State :=
  { opened .command false with
    lone := true
    pin := { (opened .command false).pin with d0 := .held true, d1 := .held true, d2 := .held false, d3 := .held false } }

/-- `ready` with a backlight. -/
def lit : State := { ready with cfg := backlightConfig }

/-- `ready` with levels on the wires. -/
def wired (levels : List Level) : State := { ready with wire := levels }

/-- A field of a next state. -/
def after {α : Type} (o : Host.Outcome State Fault Refusal) (f : State → α) : Option α :=
  match o with
  | .next t => some (f t)
  | .fault _ => none
  | .refused _ => none

/-- What an outcome refuses with. -/
def refusal (o : Host.Outcome State Fault Refusal) : Option Refusal :=
  match o with
  | .next _ => none
  | .fault _ => none
  | .refused r => some r

/-- The bytes a call delivers from `ready`. -/
def sends (i : Instr) (reg : Reg) (bytes : List Byte) : Bool :=
  after (exec i ready) (fun t => t.delivered) = some (bytes.map fun b => ⟨reg, false, .byte b⟩)

/-! ## Well-formedness: each check refuses an ill-formed term (R96, log 1) -/

theorem test_wf_verbatim : [0x0A#8, 0x60#8, 0x09#8, 0x0B#8, 0x0C#8, 0x0D#8, 0x20#8].all
    (fun c => !(Instr.txtVerbatim c).wf) = true ∧ (Instr.txtVerbatim 0x41).wf = true := by decide

theorem test_wf_long_buffers (bs : List Byte) (h : bs.length = 65536) : (Instr.busWriteBytes .data bs).wf = false ∧
    (Instr.displayWrite bs).wf = false ∧ (Instr.displayAppend bs).wf = false ∧ (Instr.writeBytesRaw bs 0).wf = false ∧
    (Instr.writeBytesText bs 0).wf = false := by
  simp [Instr.wf, fits16, h]

theorem test_wf_counts : (Instr.busReadBytes .data 65536).wf = false ∧ (Instr.readBytes 65536 0 true).wf = false ∧
    (Instr.writeBytesRaw [] 65536).wf = false ∧ (Instr.writeBytesText [] 65536).wf = false ∧
    (Instr.busReadBytes .data 65535).wf = true := by decide

theorem test_wf_numbers : (Instr.addCustomGlyph ⟨0, 0, 0, 0, 0, 0, 0, 0⟩ 65536).wf = false ∧
    (Instr.setCursor 65536 0).wf = false ∧ (Instr.setCursor 0 65536).wf = false ∧ (Instr.setCursor 16 2).wf = true := by
  decide

/-- R7, condition by condition. -/
theorem test_config_wf : configWf testConfig = true ∧ configWf backlightConfig = true ∧
    configWf { testConfig with scale := 0 } = false ∧
    configWf { testConfig with tRise := 4 } = false ∧
    configWf { testConfig with tWake2 := 50 } = false ∧
    configWf { testConfig with tWake2 := 0 } = false ∧
    configWf { testConfig with timerModulus := 100 } = false ∧
    configWf { testConfig with cycRemRead := 1000 } = false ∧
    configWf { testConfig with pins := { testConfig.pins with d3 := none } } = false ∧
    configWf { testConfig with pins := { testConfig.pins with d3 := onPort 0 1 } } = false := by decide

/-- A backlight pin that is not used need not be defined (R7(d)). -/
theorem test_config_backlight : configWf { testConfig with pins := { testConfig.pins with bl := none } } = true ∧
    configWf { backlightConfig with pins := { backlightConfig.pins with bl := none } } = false := by decide

/-! ## Decoding: a word of each instruction, written out from its encoding -/

/-- CMD8 (R81 to R91), the layer byte 0x40 before the command byte. -/
theorem test_decode_commands :
    decode [0x40, 0b00000001] = .ok (.clear, []) ∧ decode [0x40, 0b00000010] = .ok (.home, []) ∧
    decode [0x40, 0b00000110] = .ok (.entryMode true false, []) ∧
    decode [0x40, 0b00001101] = .ok (.displayControl true false true, []) ∧
    decode [0x40, 0b00011000] = .ok (.shift true false 0, []) ∧
    decode [0x40, 0b00010110] = .ok (.shift false true 2, []) ∧
    decode [0x40, 0b00101000] = .ok (.functionSet false true false 0, []) ∧
    decode [0x40, 0b00110111] = .ok (.functionSet true false true 3, []) ∧
    decode [0x40, 0b01010000] = .ok (.setCgramAddr 0x10, []) ∧
    decode [0x40, 0b11000011] = .ok (.setDdramAddr 0x43, []) ∧
    decode [0x40, 0b11000000] = .ok (.setDdramAddr 0x40, []) ∧ decode [0x41, 0b11000000] = .ok (.jumpLine2, []) := by
  and_intros <;> rfl

/-- BUS4 (R93): `s w n3 n2 n1 n0` after the layer bits 10. -/
theorem test_decode_frames :
    decode [0b10001100] = .ok (.nibWrCmd 0xC, []) ∧ decode [0b10100101] = .ok (.nibWrData 0x5, []) ∧
    decode [0b10010011] = .ok (.nibRdCmd 0x3, []) ∧ decode [0b10111001] = .ok (.nibRdData 0x9, []) := by
  and_intros <;> rfl

/-- TXT (R96). -/
theorem test_decode_text :
    decode [0xC1, 0x0A] = .ok (.txtNewline, []) ∧ decode [0xC2, 0x60, 0x37] = .ok (.txtGlyph 7, []) ∧
    decode [0xC1, 0x09] = .ok (.txtDropTab, []) ∧ decode [0xC1, 0x0B] = .ok (.txtDropVt, []) ∧
    decode [0xC1, 0x0C] = .ok (.txtDropFf, []) ∧ decode [0xC1, 0x0D] = .ok (.txtDropCr, []) ∧
    decode [0xC1, 0x20] = .ok (.txtSpace, []) ∧ decode [0xC1, 0x60] = .ok (.txtEscapeFailed, []) ∧
    decode [0xC1, 0x41] = .ok (.txtVerbatim 0x41, []) ∧ decode [0xC2, 0x60, 0x38] = .error .notATextForm := by
  and_intros <;> rfl

/-- OP (R100): the engine and the Pin Bus. -/
theorem test_decode_engine :
    decode [0b000000, 0b01] = .ok (.beginTransaction true false, []) ∧
    decode [0b000001, 1] = .ok (.continueTransaction true, []) ∧ decode [0b000010] = .ok (.endTransaction, []) ∧
    decode [0b000011, 0xC] = .ok (.driveNibble 0xC, []) ∧ decode [0b000100] = .ok (.sampleNibble, []) ∧
    decode [0b000101, 1, 2, 0, 0x48, 0x69] = .ok (.busWriteBytes .data [0x48, 0x69], []) ∧
    decode [0b000110, 0, 3, 1] = .ok (.busReadBytes .command 259, []) ∧
    decode [0b000111, 0b10, 3] = .ok (.busWriteNibble .command 3 true, []) ∧
    decode [0b001000] = .ok (.configure, []) ∧ decode [0b001001, 1] = .ok (.setDataDirection true, []) ∧
    decode [0b001010, 3, 1] = .ok (.pinWrite .bl true, []) ∧ decode [0b001011, 7] = .ok (.pinRead .d3, []) := by
  and_intros <;> rfl

/-- OP (R100): the encoder and the RAM access layer. -/
theorem test_decode_layers :
    decode [0b010000, 0b10] = .ok (.encEntryMode false true, []) ∧
    decode [0b010001, 0b001] = .ok (.encDisplayControl true false false, []) ∧
    decode [0b010010, 0b100] = .ok (.encFunctionSet false false true, []) ∧
    decode [0b010011, 0b01] = .ok (.encShift true false, []) ∧ decode [0b010100, 0x00] = .ok (.writeCommand 0, []) ∧
    decode [0b011000, 0x43, 1] = .ok (.setAddressCounter 0x43 true, []) ∧
    decode [0b011001, 2, 0, 0, 1] = .ok (.readBytes 2 0 true, []) ∧
    decode [0b011010, 0, 1, 0, 0x0A, 1, 0] = .ok (.writeBytesRaw [0x0A] 1, []) ∧
    decode [0b011010, 1, 1, 0, 0x0A, 1, 0] = .ok (.writeBytesText [0x0A] 1, []) ∧
    decode [0b011011] = .ok (.readStatus, []) := by
  and_intros <;> rfl

/-- OP (R100): the facade. -/
theorem test_decode_facade :
    decode [0b100000] = .ok (.init, []) ∧ decode [0b100001] = .ok (.enable, []) ∧
    decode [0b100010, 2, 0, 0x48, 0x69] = .ok (.displayWrite [0x48, 0x69], []) ∧
    decode [0b100011, 1, 0, 0x21] = .ok (.displayAppend [0x21], []) ∧
    decode [0b100100, 1, 2, 3, 4, 5, 6, 7, 8, 2, 0] = .ok (.addCustomGlyph ⟨1, 2, 3, 4, 5, 6, 7, 8⟩ 2, []) ∧
    decode [0b100101, 16, 0, 0, 0] = .ok (.setCursor 16 0, []) ∧
    decode [0b100110, 0b011] = .ok (.toggleFeatures true true false, []) ∧ decode [0b100111] = .ok (.reset, []) ∧
    decode [0b101000, 1] = .ok (.setBacklight true, []) := by
  and_intros <;> rfl

/-- Words that are no call: the unlisted bytes (R92), the unassigned select codes (R100). -/
theorem test_decode_refuses :
    decode [0x40, 0x00] = .error (.unlistedCommand 0x00) ∧ decode [0x40, 0x03] = .error (.unlistedCommand 0x03) ∧
    decode [0b001100] = .error (.unassignedSelectCode 0b001100) ∧
    decode [0b101001] = .error (.unassignedSelectCode 0b101001) ∧ decode [0b000011] = .error .truncated := by
  and_intros <;> rfl

/-- V-DEC: the ends of every range. -/
theorem test_decode_ranges :
    decodeCommand 0x7F = some (.setCgramAddr 0x3F) ∧ decodeCommand 0x2B = some (.functionSet false true false 3) ∧
    decodeCommand 0x3F = some (.functionSet true true true 3) ∧ decodeCommand 0x20 = some (.functionSet false false false 0) ∧
    decodeCommand 0x08 = some (.displayControl false false false) ∧ decodeCommand 0x07 = some (.entryMode true true) ∧
    decodeCommand 0xFF = some (.setDdramAddr 0x7F) := by decide

/-! ## V-NIB, V-ADDR, V-ENC -/

theorem test_nibbles : highNibble 0x5A = 0x5 ∧ lowNibble 0x5A = 0xA ∧ byteOf 0x5 0xA = 0x5A ∧ highNibble 0xC0 = 0xC := by decide

theorem test_addresses : addressByte 0x43 true = 0xC3 ∧ addressByte 127 true = 0xFF ∧ addressByte 63 false = 0x7F ∧
    addressByte 64 false = 0x40 ∧ addressByte 127 false = 0x7F := by decide

theorem test_encoders : encodeEntryMode true false = 0x06 ∧ encodeEntryMode false true = 0x05 ∧
    encodeDisplayControl true true false = 0x0E ∧ encodeDisplayControl false false true = 0x09 ∧
    encodeFunctionSet false true false = 0x28 ∧ encodeFunctionSet true false false = 0x30 ∧
    encodeShift true false = 0x18 ∧ encodeShift false true = 0x14 := by decide

/-! ## V-TXT -/

theorem test_interpret_source :
    interpret [0x41, 0x0A, 0x60, 0x32] = [(.data, 0x41), (.command, 0xC0), (.data, 0x02)] ∧
    interpret [0x60, 0x39] = [(.data, 0x60), (.data, 0x39)] := by decide

theorem test_interpret_derived :
    interpret [0x60, 0x30, 0x60, 0x37] = [(.data, 0x00), (.data, 0x07)] ∧
    interpret [0x41, 0x60] = [(.data, 0x41), (.data, 0x60)] ∧ interpret [0x61, 0x09, 0x62] = [(.data, 0x61), (.data, 0x62)] ∧
    interpret [0x09, 0x0D, 0x0B, 0x0C] = [] ∧ interpret [0x00, 0x03] = [(.data, 0x00), (.data, 0x03)] ∧
    interpret [0xFF] = [(.data, 0xFF)] := by decide

/-- Rows 16 and 17: two newlines share one transaction, a change of register starts another. -/
theorem test_runs :
    runsOf (interpret [0x0A, 0x0A]) = [(.command, [0xC0, 0xC0])] ∧
    runsOf (interpret [0x48, 0x69, 0x0A, 0x79, 0x6F]) =
      [(.data, [0x48, 0x69]), (.command, [0xC0]), (.data, [0x79, 0x6F])] := by decide

/-! ## The engine -/

/-- The trace and the latches of a call, in the environment where its waits are those of `testConfig`: `W_AS` 2, `W_SETUP` 5 and 7,
`W_HOLD` 2, `W_CYCREM` 11 and 13, `W_ENDSETUP` 5, `W_ENDHOLD` 3. -/
def traceOf (i : Instr) (s : State) : Option (List Event) := after (exec i s) (fun t => t.trace)

/-- T1, which RESET, CLEAR and WRITE_COMMAND(0x01) share. -/
def traceT1 : List Event :=
  [.setMode .d0 .output, .setMode .d1 .output, .setMode .d2 .output, .setMode .d3 .output,
   .drive .rs false, .drive .rw false, .wait 2, .drive .e true, .wait 5,
   .drive .d0 false, .drive .d1 false, .drive .d2 false, .drive .d3 false,
   .drive .e false, .wait 2, .wait 11, .drive .e true, .wait 5] ++
  [.drive .d0 true, .drive .d1 false, .drive .d2 false, .drive .d3 false,
   .wait 5, .drive .e false, .wait 3]

theorem test_t1 : traceOf (.busWriteBytes .command [0x01]) ready = some traceT1 := by decide

theorem test_t1_end : after (exec (.busWriteBytes .command [0x01]) ready) (fun t => (t.phase, t.dir, t.pin)) =
    some (.idle, .output,
      ⟨.held false, .held false, .held false, .noValue, .held true, .held false, .held false, .held false⟩) := by decide

/-- T3: the peer presents 4, then 1. -/
theorem test_t3 : after (exec (.busReadBytes .data 1) (wired [false, false, true, false, true, false, false, false]))
    (fun t => (t.result, t.trace)) = some (.bytes [0x41],
      [.setMode .d0 .input, .setMode .d1 .input, .setMode .d2 .input, .setMode .d3 .input,
       .drive .rs true, .drive .rw true, .wait 2, .drive .e true, .wait 7,
       .sample .d0 false, .sample .d1 false, .sample .d2 true, .sample .d3 false,
       .drive .e false, .wait 2, .wait 13, .drive .e true, .wait 7] ++
      [.sample .d0 true, .sample .d1 false, .sample .d2 false, .sample .d3 false,
       .wait 5, .drive .e false, .wait 3]) := by decide

/-- T4: 13 events, the transaction left open, no frame yet. -/
theorem test_t4 : after (exec (.busWriteNibble .command 3 false) ready)
    (fun t => (t.phase, t.pin.e, t.pin.d3, t.pin.d0, t.trace.length, decide (t.peer = pairedPeer ∧ t.delivered = []))) =
    some (.active .command false, .held true, .held false, .held true, 13, true) := by decide

/-- R121 at the END after T4: one frame, one 4-bit transfer, of the nibble that then stands on the pins. A frame a host makes by
hand is no transfer (log 26). -/
theorem test_t4_frame :
    after (exec .endTransaction loneOpened) (fun t => (t.delivered, t.lone)) = some ([⟨.command, false, .nibble 3⟩], false) ∧
    after (exec (.driveNibble 0xC) loneOpened) (fun t => owedTransfers t) = some [⟨.command, false, .nibble 0xC⟩] ∧
    after (exec .endTransaction (opened .command false)) (fun t => t.delivered) = some [] := by decide

/-- R22: with the pins inputs a write frame does not carry the latches. The peer's nibble is a free value (log 7). -/
theorem test_input_frame :
    after (exec .endTransaction { opened .command false with dir := .input }) (fun t => t.peer.sync) =
      some (.half ⟨false, false, Config.undrivenNibble 1⟩) := by rfl

/-- R11: `Wait(5) Wait(3)` is `Wait(8)`. -/
theorem test_merge_waits : mergeWaits [.wait 2, .drive .e false, .wait 5, .wait 3, .wait 1, .abort (.slotOutOfRange 8)] =
    [.wait 2, .drive .e false, .wait 9, .abort (.slotOutOfRange 8)] := by decide

/-- R98: a pattern byte's low five bits. -/
theorem test_glyph_row : (glyphRow 0xF5).toNat = 0b10101 := by decide

/-- T4 with END: 16 events, one frame. -/
theorem test_t4_end : after (exec (.busWriteNibble .command 3 true) ready)
    (fun t => (t.phase, t.trace.length, framesFrom ready.pin ready.pin t.trace)) =
    some (.idle, 16, [frame false false 3]) := by decide

/-- R112. -/
theorem test_begin : after (exec (.beginTransaction true true) ready) (fun t => (t.phase, t.trace)) =
    some (.active .data true, [.drive .rs true, .drive .rw true, .wait 2, .drive .e true, .wait 7]) := by decide

/-- V-GUARD row 2. -/
theorem test_begin_open : refusal (exec (.beginTransaction true true) (opened .command false)) =
    some (.wrongPhase (.active .command false)) := by decide

/-- R113. -/
theorem test_cont : traceOf (.continueTransaction false) (opened .command false) =
    some [.drive .e false, .wait 2, .wait 11, .drive .e true, .wait 5] := by decide

/-- V-GUARD rows 1 and 3. -/
theorem test_cont_refused : refusal (exec (.continueTransaction true) (opened .command false)) =
      some (.wrongPhase (.active .command false)) ∧
    refusal (exec (.continueTransaction false) ready) = some (.wrongPhase .idle) := by decide

/-- R114: the setup wait is the write value on a read too. -/
theorem test_end : after (exec .endTransaction (opened .data true)) (fun t => (t.phase, t.trace)) =
    some (.idle, [.wait 5, .drive .e false, .wait 3]) := by decide

/-- V-NIB: nibble 0xC, D0 first. -/
theorem test_drive_nibble : traceOf (.driveNibble 0xC) (opened .data false) =
    some [.drive .d0 false, .drive .d1 false, .drive .d2 true, .drive .d3 true] := by decide

/-- V-GUARD row 1, and R111: the pins are inputs. -/
theorem test_drive_nibble_refused : refusal (exec (.driveNibble 0) ready) = some (.wrongPhase .idle) ∧
    refusal (exec (.driveNibble 0) { opened .data false with dir := .input }) = some (.wrongDirection .input) := by decide

/-- R115: the first level is bit 0. -/
theorem test_sample_nibble : after (exec .sampleNibble { opened .data true with wire := [true, false, false, true, true] })
    (fun t => (t.result, t.wire, t.trace.length)) = some (.nibble 0x9, [true], 4) := by decide

/-- V-GUARD row 8. -/
theorem test_sample_nibble_refused : refusal (exec .sampleNibble (opened .data false)) =
    some (.wrongPhase (.active .data false)) := by decide

/-- V-GUARD rows 5 to 7. -/
theorem test_write_joins :
    after (exec (.busWriteBytes .command [0x0C]) (opened .command false)) (fun t => (t.phase, t.trace.length)) = some (.idle, 21) ∧
    refusal (exec (.busWriteBytes .data [0x0C]) (opened .command false)) = some (.wrongPhase (.active .command false)) ∧
    refusal (exec (.busWriteBytes .data [0x0C]) (opened .data true)) = some (.wrongPhase (.active .data true)) := by decide

/-- V-GUARD row 7. -/
theorem test_read_refused : refusal (exec (.busReadBytes .data 1) (opened .data true)) =
    some (.wrongPhase (.active .data true)) := by decide

/-! ## The wire formats -/

theorem test_clear : traceOf .clear ready = some traceT1 := by decide

/-- CLEAR brings the counter to DDRAM 0 and leaves CGRAM (R55). -/
theorem test_clear_peer : after (exec .clear ready) (fun t => (t.peer.regs.ac, t.peer.ddram, t.peer.cgram)) =
    some (0, [], [(0x08, 0x1F)]) := by decide

theorem test_home : sends .home .command [0x02] = true := by decide
theorem test_entry_mode : sends (.entryMode true false) .command [0x06] = true := by decide
theorem test_display_control : sends (.displayControl true false false) .command [0x0C] = true := by decide
theorem test_shift : sends (.shift true false 0) .command [0x18] = true := by decide
theorem test_function_set : sends (.functionSet false true false 0) .command [0x28] = true := by decide
theorem test_set_cgram : sends (.setCgramAddr 0x10) .command [0x50] = true := by decide
theorem test_set_ddram : sends (.setDdramAddr 0x43) .command [0xC3] = true := by decide
theorem test_jump_line2 : sends .jumpLine2 .command [0xC0] = true := by decide

/-- R162: column 0 of the second line. -/
theorem test_jump_line2_peer : after (exec .jumpLine2 ready) (fun t => (t.peer.regs.ac, t.peer.regs.ram)) =
    some (0x40, .ddram) := by decide

theorem test_nib_wr_cmd : after (exec (.nibWrCmd 0xC) ready) (fun t => framesFrom ready.pin ready.pin t.trace) =
    some [frame false false 0xC] := by decide
theorem test_nib_wr_data : after (exec (.nibWrData 0x8) ready) (fun t => framesFrom ready.pin ready.pin t.trace) =
    some [frame true false 0x8] := by decide
theorem test_nib_rd_cmd : after (exec (.nibRdCmd 0x4) ready)
    (fun t => (t.result, framesFrom ready.pin ready.pin t.trace)) = some (.nibble 0x4, [frame false true 0x4]) := by decide
theorem test_nib_rd_data : after (exec (.nibRdData 0x9) ready)
    (fun t => (t.result, framesFrom ready.pin ready.pin t.trace)) = some (.nibble 0x9, [frame true true 0x9]) := by decide

/-- R96, row by row. -/
theorem test_txt_newline : sends .txtNewline .command [0xC0] = true := by decide
theorem test_txt_glyph : sends (.txtGlyph 2) .data [0x02] = true := by decide
theorem test_txt_drop_tab : traceOf .txtDropTab ready = some [] := by decide
theorem test_txt_drop_vt : traceOf .txtDropVt ready = some [] := by decide
theorem test_txt_drop_ff : traceOf .txtDropFf ready = some [] := by decide
theorem test_txt_drop_cr : traceOf .txtDropCr ready = some [] := by decide
theorem test_txt_space : sends .txtSpace .data [0x20] = true := by decide
theorem test_txt_escape_failed : sends .txtEscapeFailed .data [0x60] = true := by decide
theorem test_txt_verbatim : sends (.txtVerbatim 0x41) .data [0x41] = true := by decide

/-- Two lone nibbles to the command register are one command byte to the peer (R56, R59): 0x8F sets the counter to 0x0F. -/
theorem test_nibbles_pair :
    after (exec (.nibWrCmd 0x8) ready) (fun t => t.peer.sync) = some (.half ⟨false, false, 0x8⟩) ∧
    after (exec (.nibWrCmd 0xF) { ready with peer := { pairedPeer with sync := .half ⟨false, false, 0x8⟩ } })
      (fun t => (t.peer.sync, t.peer.regs.ac)) = some (.paired, 0x0F) := by decide

/-! ## The Pin Bus -/

/-- V-PIN-1. -/
theorem test_init : after (exec .init (fresh testConfig)) (fun t => (t.life, t.domains, t.dir, t.pin, t.trace)) =
    some (.pinsConfigured, [0], .input, Pins.unwritten,
      [.enableDomain 0, .setMode .rs .output, .configDrive .rs 8 1, .setMode .rw .output, .configDrive .rw 8 1,
       .setMode .e .output, .configDrive .e 8 1, .setMode .d0 .output, .configDrive .d0 8 1,
       .setMode .d1 .output, .configDrive .d1 8 1, .setMode .d2 .output, .configDrive .d2 8 1,
       .setMode .d3 .output, .configDrive .d3 8 1] ++
      [.setMode .d0 .input, .setMode .d1 .input, .setMode .d2 .input, .setMode .d3 .input]) := by decide

/-- V-PIN-2: 22 events, the second domain enabled at BL. -/
theorem test_init_backlight : after (exec .init (fresh backlightConfig)) (fun t => (t.domains, t.trace.length, t.trace[7]?)) =
    some ([0, 1], 22, some (.enableDomain 1)) := by decide

/-- P2b. -/
theorem test_init_reserved : after (exec .init (fresh reservedConfig)) (fun t => (t.life, t.fault, t.dir)) =
      some (.uninitialized, some (.reservedPin .e), .noValue) ∧
    after (exec .init (fresh reservedConfig)) (fun t => (t.domains, t.trace)) =
      some ([0], [.enableDomain 0, .setMode .rs .output, .configDrive .rs 8 1, .setMode .rw .output, .configDrive .rw 8 1,
       .abort (.reservedPin .e)]) := by decide

/-- V-CNT: 2n + m with every domain enabled already is 14. -/
theorem test_configure : after (exec .configure ready) (fun t => (t.dir, t.trace.length, t.pin)) =
    some (.output, 14, ready.pin) := by decide

theorem test_set_data_direction : after (exec (.setDataDirection true) ready) (fun t => (t.dir, t.trace)) =
    some (.input, [.setMode .d0 .input, .setMode .d1 .input, .setMode .d2 .input, .setMode .d3 .input]) := by decide

/-- V-GUARD row 4. -/
theorem test_set_data_direction_refused : refusal (exec (.setDataDirection true) (opened .command false)) =
    some (.wrongPhase (.active .command false)) := by decide

theorem test_pin_write : after (exec (.pinWrite .d2 false) ready) (fun t => (t.pin.d2, t.pin.d1, t.trace)) =
    some (.held false, .held true, [.drive .d2 false]) := by decide

theorem test_pin_read : after (exec (.pinRead .d1) (wired [true])) (fun t => (t.result, t.trace, t.pin)) =
    some (.level true, [.sample .d1 true], ready.pin) := by decide

/-- Every role is a legal operand (R102): without a backlight, one event (R142) and no latch (R21). -/
theorem test_pin_write_no_backlight : after (exec (.pinWrite .bl true) ready) (fun t => (t.pin, t.trace)) =
    some (ready.pin, [.drive .bl true]) := by decide

theorem test_pin_read_no_backlight : after (exec (.pinRead .bl) (wired [true])) (fun t => (t.result, t.trace, t.pin)) =
    some (.level true, [.sample .bl true], ready.pin) := by decide

/-! ## The Command Encoder and the RAM Access Layer -/

theorem test_enc_entry_mode : after (exec (.encEntryMode false true) ready) (fun t => (t.result, t.trace)) =
    some (.byte 0x05, []) := by decide
theorem test_enc_display_control : after (exec (.encDisplayControl true true false) ready) (fun t => (t.result, t.trace)) =
    some (.byte 0x0E, []) := by decide
theorem test_enc_function_set : after (exec (.encFunctionSet true false false) ready) (fun t => (t.result, t.trace)) =
    some (.byte 0x30, []) := by decide
theorem test_enc_shift : after (exec (.encShift false true) ready) (fun t => (t.result, t.trace)) =
    some (.byte 0x14, []) := by decide

/-- R163: an unlisted byte is sent as given. -/
theorem test_write_command : sends (.writeCommand 0x03) .command [0x03] = true := by decide

/-- V-ADDR. -/
theorem test_set_address_counter : sends (.setAddressCounter 0x27 true) .command [0xA7] = true ∧
    sends (.setAddressCounter 64 false) .command [0x40] = true := by decide

/-- P6: 68 events, the bytes, the transfers. -/
theorem test_read_bytes : after (exec (.readBytes 2 0 true)
      (wired [false, false, true, false, false, false, false, true, false, true, true, false, true, false, false, true]))
    (fun t => (t.result, t.trace.length, t.delivered, t.peer.regs.ac)) =
    some (.bytes [0x48, 0x69], 68, [⟨.command, false, .byte 0x80⟩, ⟨.data, true, .byte 0x48⟩, ⟨.data, true, .byte 0x69⟩], 0x02) := by
  decide

/-- V-CNT: the address is set for no bytes too. -/
theorem test_read_no_bytes : after (exec (.readBytes 0 0x10 false) ready) (fun t => (t.result, t.trace.length, t.delivered)) =
    some (.bytes [], 25, [⟨.command, false, .byte 0x50⟩]) := by decide

/-- R54: under decrement mode the second byte lands one place lower. -/
theorem test_write_raw_decrement : after (exec (.writeBytesRaw [0x48, 0x69] 2) { ready with peer := leftPeer })
    (fun t => (t.peer.ddram, t.peer.regs.ac)) = some ([(0x10, 0x2A), (0x42, 0x69), (0x43, 0x48)], 0x41) := by decide

/-- R54: the counter moves down from 0x01 to 0x00 in CGRAM, short of a wrap. -/
theorem test_read_bytes_decrement : after (exec (.readBytes 1 1 false) { wired (byteLevels 0x1F) with peer := leftPeer })
    (fun t => (t.result, t.peer.regs.ac, t.peer.regs.ram)) = some (.bytes [0x1F], 0x00, .cgram) := by decide

/-- R177: raw mode interprets nothing. -/
theorem test_write_raw : sends (.writeBytesRaw [0x0A, 0x60, 0x32, 0x41] 3) .data [0x0A, 0x60, 0x32] = true := by decide

/-- V-TXT row 1. -/
theorem test_write_text : after (exec (.writeBytesText [0x41, 0x0A, 0x60, 0x32] 4) ready) (fun t => t.delivered) =
    some [⟨.data, false, .byte 0x41⟩, ⟨.command, false, .byte 0xC0⟩, ⟨.data, false, .byte 0x02⟩] := by decide

theorem test_read_status : after (exec .readStatus (wired [false, false, true, false, true, true, false, false]))
    (fun t => (t.result, t.trace.length, t.pin.rs, t.peer.regs.ac)) = some (.byte 0x43, 25, .held false, 0x43) := by decide

/-! ## The facade -/

/-- P3: 123 events, the transfers, the end state. -/
theorem test_enable : after (exec .enable (configured testConfig))
    (fun t => (t.life, t.phase, t.dir, t.trace.length, t.delivered)) =
    some (.ready, .idle, .output, 123,
      [⟨.command, false, .nibble 3⟩, ⟨.command, false, .nibble 3⟩, ⟨.command, false, .nibble 3⟩,
       ⟨.command, false, .byte 0x28⟩, ⟨.command, false, .byte 0x0C⟩, ⟨.command, false, .byte 0x01⟩,
       ⟨.command, false, .byte 0x06⟩]) := by
  set_option maxRecDepth 10000 in decide

/-- P3: the latches and the three waits between the wakes, and the peer in step (R284). -/
theorem test_enable_waits : after (exec .enable (configured testConfig))
    (fun t => (t.pin, t.trace[17]?, t.trace[34]?, t.trace[48]?)) =
      some (ready.pin, some (.wait 50), some (.wait 20), some (.drive .e false)) ∧
    after (exec .enable (configured testConfig)) (fun t => (t.peer.sync, t.peer.regs.cursorRight)) =
      some (.paired, true) := by
  set_option maxRecDepth 10000 in decide

/-- V-LEN. -/
theorem test_display_write : after (exec (.displayWrite [0x48, 0x69]) ready) (fun t => (t.trace.length, t.delivered)) =
    some (68, [⟨.command, false, .byte 0x01⟩, ⟨.data, false, .byte 0x48⟩, ⟨.data, false, .byte 0x69⟩]) := by decide

theorem test_display_write_too_long : after (exec (.displayWrite (List.replicate 33 0x09)) ready)
    (fun t => (t.fault, t.trace, t.delivered)) =
    some (some (.textTooLong 33), [.abort (.textTooLong 33)], []) := by decide

/-- P4: 'H' at DDRAM 0x43, 'i' at 0x44, counter 0x45. -/
theorem test_display_append : after (exec (.displayAppend [0x48, 0x69]) ready)
    (fun t => (t.trace.length, t.peer.ddram, t.peer.regs.ac)) =
    some (43, [(0x10, 0x2A), (0x43, 0x48), (0x44, 0x69)], 0x45) := by decide

theorem test_display_append_too_long : after (exec (.displayAppend (List.replicate 33 0x41)) ready)
    (fun t => (t.fault, t.trace)) = some (some (.textTooLong 33), [.abort (.textTooLong 33)]) := by decide

/-- P5: CGRAM 0x10 to 0x17, counter 0x18. -/
theorem test_add_custom_glyph : after (exec (.addCustomGlyph ⟨0x04, 0x0E, 0x1F, 0x04, 0x04, 0x04, 0x04, 0x00⟩ 2) ready)
    (fun t => (t.trace.length, t.peer.cgram, t.peer.regs.ac, t.peer.regs.ram)) =
    some (176, [(0x08, 0x1F), (0x10, 0x04), (0x11, 0x0E), (0x12, 0x1F), (0x13, 0x04), (0x14, 0x04), (0x15, 0x04), (0x16, 0x04),
      (0x17, 0x00)], 0x18, .cgram) := by
  set_option maxRecDepth 10000 in decide

/-- V-SLOT. -/
theorem test_add_custom_glyph_aborts : after (exec (.addCustomGlyph ⟨0, 0, 0, 0, 0, 0, 0, 0⟩ 8) ready)
    (fun t => (t.fault, t.trace)) = some (some (.slotOutOfRange 8), [.abort (.slotOutOfRange 8)]) := by decide

/-- V-CUR. -/
theorem test_set_cursor : sends (.setCursor 3 1) .command [0xC3] = true ∧ sends (.setCursor 15 1) .command [0xCF] = true := by
  decide

/-- P2a, and V-LIFE's last row: the lifecycle guard comes first. -/
theorem test_set_cursor_aborts :
    after (exec (.setCursor 16 0) ready) (fun t => (t.fault, t.trace, t.pin)) =
      some (some (.cursorOutOfRange 16 0), [.abort (.cursorOutOfRange 16 0)], ready.pin) ∧
    refusal (exec (.setCursor 16 0) (fresh testConfig)) = some (.wrongLifecycle .uninitialized) := by decide

/-- P7. -/
theorem test_toggle_features : sends (.toggleFeatures true true false) .command [0x0E] = true := by decide

theorem test_reset : traceOf .reset ready = some traceT1 ∧
    refusal (exec .reset { ready with fault := some (.cursorOutOfRange 16 0) }) =
      some (.aborted (.cursorOutOfRange 16 0)) := by decide

/-- V-BL. -/
theorem test_set_backlight : traceOf (.setBacklight true) lit = some [.drive .bl true] ∧
    traceOf (.setBacklight true) ready = some [] ∧
    refusal (exec (.setBacklight true) (fresh backlightConfig)) = some (.wrongLifecycle .uninitialized) := by decide

/-! ## Steps -/

/-- A step takes the next call: `setCursor(3, 1)` before `reset()`. -/
theorem test_step : after (step { ready with calls := [0b100101, 3, 0, 1, 0, 0b100111] })
    (fun t => (t.calls, t.delivered)) = some ([0b100111], [⟨.command, false, .byte 0xC3⟩]) := by decide

/-- A table word placed where the next call is fetched, its operands zeros (log 2). -/
theorem test_fetch_word :
    (ready.withFetchWord 8 0b100101).calls = [0b100101, 0, 0, 0, 0] ∧
    after (step (ready.withFetchWord 8 0b100101)) (fun t => t.delivered) = some [⟨.command, false, .byte 0x80⟩] ∧
    decodeTableWord 8 0x80 = some (.setDdramAddr 0) ∧ decodeTableWord 8 0xC0 = some .jumpLine2 ∧
    decodeTableWord 16 0x6032 = some (.txtGlyph 2) := by decide

/-! ## Witnesses: the hypotheses of each statement are met together, clause by clause, at boundary values -/

theorem testConfig_wf : configWf testConfig = true := by decide

theorem able_ready : AbleIdle ready := ⟨⟨rfl, rfl, by decide⟩, rfl⟩

theorem able_opened (reg : Reg) (isRead : Bool) : Able (opened reg isRead) := ⟨rfl, rfl, testConfig_wf⟩

theorem able_lit : AbleIdle lit := ⟨⟨rfl, rfl, by decide⟩, rfl⟩

theorem able_wired (levels : List Level) : AbleIdle (wired levels) := ⟨⟨rfl, rfl, testConfig_wf⟩, rfl⟩

theorem opened_busy (reg : Reg) (isRead : Bool) : (opened reg isRead).phase ≠ .idle := by simp [opened]

theorem witness_DecodeInvertsEncode : (Instr.setCursor 65535 0).wf = true ∧ (Instr.txtVerbatim 0xFF).wf = true ∧
    (Instr.busReadBytes .data 65535).wf = true := by decide

theorem witness_CommandByteRoundTrip : decodeCommand 0x17 = some (.shift false true 3) ∧ decodeCommand 0x03 = none := by decide

/-- One byte per clause, at the ends of its range. -/
theorem witness_CommandCategories : 0x80#8 &&& 0x80 = 0x80 ∧ 0x7F#8 &&& 0xC0 = 0x40 ∧ 0x3F#8 &&& 0xE0 = 0x20 ∧
    0x1F#8 &&& 0xF0 = 0x10 ∧ 0x0F#8 &&& 0xF8 = 0x08 ∧ 0x07#8 &&& 0xFC = 0x04 ∧ 0x02#8 &&& 0xFF = 0x02 ∧
    0x01#8 &&& 0xFF = 0x01 ∧ 0xC0#8 &&& 0xFF = 0xC0 := by decide

theorem witness_StepRunsTheDecodedCall : decode { ready with calls := [0b100111, 0b000010] }.calls = .ok (.reset, [0b000010]) :=
  rfl

theorem witness_StopsTheModelChooses :
    (ready.calls = [] ∧ ready.fault = none) ∧
    (({ ready with fault := some (.slotOutOfRange 8) } : State).calls = [] ∧
      ({ ready with fault := some (.slotOutOfRange 8) } : State).fault = some (.slotOutOfRange 8)) ∧
    ((({ ready with calls := [0x40, 0x03] } : State).calls ≠ []) ∧
      decode ({ ready with calls := [0x40, 0x03] } : State).calls = .error (.unlistedCommand 0x03)) :=
  ⟨⟨rfl, rfl⟩, ⟨rfl, rfl⟩, ⟨by decide, rfl⟩⟩

theorem witness_AbortedBlockRefusesEverything :
    ({ ready with fault := some (.cursorOutOfRange 16 0) } : State).fault = some (.cursorOutOfRange 16 0) ∧
    (after (exec .reset ready) fun _ => ()) = some () := by decide

/-- A call the table refuses, and one of each next state the second clause is about. -/
theorem witness_LifecycleTableDecides :
    ((fresh testConfig).fault = none ∧ allowed .enable (fresh testConfig).life = false) ∧
    after (exec .init (fresh testConfig)) (fun t => t.life) = some .pinsConfigured ∧
    after (exec .enable (configured testConfig)) (fun t => t.life) = some .ready ∧
    after (exec .reset ready) (fun t => t.life) = some .ready := by decide

theorem witness_ConfigurationWellFormedness :
    (fresh { testConfig with scale := 0 }).fault = none ∧ allowed .init (fresh { testConfig with scale := 0 }).life = true ∧
    configWf (fresh { testConfig with scale := 0 }).cfg = false ∧ configWf testConfig = true := by decide

theorem witness_BeginOpensATransaction : AbleIdle ready ∧ Able (opened .command false) ∧ (opened .command false).phase ≠ .idle :=
  ⟨able_ready, able_opened _ _, opened_busy _ _⟩

theorem witness_ContSeparatesNibbleCycles : Able (opened .data true) ∧ (opened .data true).phase = .active .data true ∧
    (∀ reg, (opened .data true).phase ≠ .active reg false) ∧ Able ready ∧ ∀ reg r, ready.phase ≠ .active reg r :=
  ⟨able_opened _ _, rfl, by simp [opened], able_ready.toAble, by simp [ready, fresh]⟩

theorem witness_EndClosesTheTransaction : Able (opened .data false) ∧ (opened .data false).phase ≠ .idle ∧
    Able ready ∧ ready.phase = .idle :=
  ⟨able_opened _ _, opened_busy _ _, able_ready.toAble, rfl⟩

theorem witness_DriveNibbleSetsTheDataPins :
    (Able (opened .data false) ∧ (opened .data false).phase = .active .data false ∧ (opened .data false).dir = .output) ∧
    (Able ready ∧ ∀ reg, ready.phase ≠ .active reg false) ∧
    (Able { opened .data false with dir := .input } ∧
      ({ opened .data false with dir := .input } : State).phase = .active .data false ∧
      ({ opened .data false with dir := .input } : State).dir ≠ .output) :=
  ⟨⟨able_opened _ _, rfl, rfl⟩, ⟨able_ready.toAble, by simp [ready, fresh]⟩, ⟨rfl, rfl, by decide⟩, rfl, by decide⟩

theorem witness_SampleNibbleReadsTheWires :
    (Able (opened .data true) ∧ (opened .data true).phase = .active .data true ∧ (opened .data true).dir = .input) ∧
    (Able ready ∧ ∀ reg, ready.phase ≠ .active reg true) ∧
    (Able { opened .data true with dir := .output } ∧
      ({ opened .data true with dir := .output } : State).phase = .active .data true ∧
      ({ opened .data true with dir := .output } : State).dir ≠ .input) ∧
    ({ opened .data true with wire := [true, false, false, true, true] } : State).wire =
      [(0x9#4).getLsbD 0, (0x9#4).getLsbD 1, (0x9#4).getLsbD 2, (0x9#4).getLsbD 3] ++ [true] :=
  ⟨⟨able_opened _ _, rfl, rfl⟩, ⟨able_ready.toAble, by simp [ready, fresh]⟩, ⟨⟨rfl, rfl, by decide⟩, rfl, by decide⟩, rfl⟩

/-- From `Idle`; joining; another register; an open read; the pins not outputs; no bytes. -/
theorem witness_BusWriteSendsTheBytes :
    (Able ready ∧ ready.phase = .idle) ∧
    (Able (opened .command false) ∧ [0x28#8, 0x06].getLast? = some 0x06 ∧
      (opened .command false).phase = .active .command false ∧ (opened .command false).dir = .output) ∧
    ([0x28#8] ≠ [] ∧ (opened .command false).phase = .active .command false ∧ Reg.command ≠ Reg.data) ∧
    (Able (opened .data true) ∧ (opened .data true).phase = .active .data true) ∧
    (Able { opened .data false with dir := .input } ∧
      ({ opened .data false with dir := .input } : State).phase = .active .data false ∧
      ({ opened .data false with dir := .input } : State).dir ≠ .output) :=
  ⟨⟨able_ready.toAble, rfl⟩, ⟨able_opened _ _, rfl, rfl, rfl⟩, ⟨by decide, rfl, by decide⟩, ⟨able_opened _ _, rfl⟩,
    ⟨rfl, rfl, by decide⟩, rfl, by decide⟩

theorem witness_BusReadReturnsTheSampledBytes : AbleIdle (wired (byteLevels 0x48 ++ byteLevels 0x69)) ∧
    (wired (byteLevels 0x48 ++ byteLevels 0x69)).wire = [0x48#8, 0x69].flatMap byteLevels ++ [] ∧ [0x48#8, 0x69].length = 2 ∧
    Able (opened .data true) ∧ (opened .data true).phase ≠ .idle :=
  ⟨able_wired _, rfl, rfl, able_opened _ _, opened_busy _ _⟩

theorem witness_BusWriteNibbleDeliversALoneNibble : AbleIdle ready ∧ Able (opened .data true) ∧ (opened .data true).phase ≠ .idle ∧
    (after (exec (.busWriteNibble .command 3 false) ready) fun _ => ()) = some () :=
  ⟨able_ready, able_opened _ _, opened_busy _ _, by decide⟩

/-- The wires that present what T1 puts on the pins. -/
theorem witness_WriteThenReadRoundTrip : AbleIdle ready ∧ AbleIdle (wired (byteLevels 0x01)) ∧
    (wired (byteLevels 0x01)).wire = (framesFrom ready.pin ready.pin traceT1).flatMap frameLevels :=
  ⟨able_ready, able_wired _, by decide⟩

theorem witness_CommandRowsDeliverTheirByte : AbleIdle ready := able_ready

theorem witness_WriteFramesReachThePins : AbleIdle ready := able_ready

theorem witness_ReadFramesReturnTheNibble : AbleIdle (wired [true]) := able_wired _

theorem witness_TwoFramesMakeOneCommandByte : AbleIdle ready ∧ ready.peer.sync = .paired := ⟨able_ready, rfl⟩

theorem witness_DataDirectionSwitchesAsAGroup : AbleIdle ready ∧ Able (opened .command false) ∧
    (opened .command false).phase ≠ .idle :=
  ⟨able_ready, able_opened _ _, opened_busy _ _⟩

theorem witness_PinPrimitivesPassThrough : (Able (opened .data true) ∧ PinRole.e ∈ configuredRoles (opened .data true).cfg) ∧
    (Able lit ∧ PinRole.bl ∈ configuredRoles lit.cfg) ∧ (Able ready ∧ PinRole.bl ∉ configuredRoles ready.cfg) ∧
    (wired [true, false]).wire = true :: [false] ∧ PinRole.d0 ≠ PinRole.e :=
  ⟨⟨able_opened _ _, by decide⟩, ⟨able_lit.toAble, by decide⟩, ⟨able_ready.toAble, by decide⟩, rfl, by decide⟩

theorem witness_ConfigureSetsUpEveryRole : AbleIdle lit ∧ ∀ r ∈ configuredRoles lit.cfg, reservedPin lit.cfg r = false :=
  ⟨able_lit, by decide⟩

theorem witness_EncodersReturnTheirByte : Able (opened .data true) := able_opened _ _

theorem witness_WriteCommandSendsAnyByte : AbleIdle ready ∧ ready.peer.sync = .paired ∧ Able (opened .command true) ∧
    (opened .command true).phase ≠ .idle :=
  ⟨able_ready, rfl, able_opened _ _, opened_busy _ _⟩

theorem witness_SetAddressCounterSendsTheAddress : AbleIdle ready ∧ ready.peer.sync = .paired ∧
    Able (opened .command false) ∧ (opened .command false).phase ≠ .idle :=
  ⟨able_ready, rfl, able_opened _ _, opened_busy _ _⟩

theorem witness_ReadBytesSetsTheCounterFirst : AbleIdle (wired (byteLevels 0x48)) ∧ [0x48#8].length = 1 ∧
    (wired (byteLevels 0x48)).wire = [0x48#8].flatMap byteLevels ++ [] ∧ (wired (byteLevels 0x48)).peer.sync = .paired ∧
    (wired (byteLevels 0x48)).peer.regs.cursorRight = true ∧ (∀ k, k < 1 → acStepStated true .ddram (acMoved true 0x4E k) = true) ∧
    leftPeer.sync = .paired ∧ leftPeer.regs.cursorRight = false ∧
    (∀ k, k < 0x3F → acStepStated false .cgram (acMoved false 0x3F k) = true) ∧
    Able (opened .data true) ∧ (opened .data true).phase ≠ .idle :=
  ⟨able_wired _, rfl, rfl, rfl, rfl, by decide, rfl, rfl, by decide, able_opened _ _, opened_busy _ _⟩

theorem witness_ReadStatusReadsTheCommandRegister : AbleIdle (wired (byteLevels 0x43 ++ [true])) ∧
    (wired (byteLevels 0x43 ++ [true])).wire = byteLevels 0x43 ++ [true] ∧
    Able (opened .command true) ∧ (opened .command true).phase ≠ .idle :=
  ⟨able_wired _, rfl, able_opened _ _, opened_busy _ _⟩

theorem witness_WriteBytesTakesCountBytes : AbleIdle ready ∧ Able (opened .data false) ∧ (opened .data false).phase ≠ .idle :=
  ⟨able_ready, able_opened _ _, opened_busy _ _⟩

/-- The last and first bytes that are no glyph digit, the first that no special row takes. -/
theorem witness_InterpreterFormByForm : (0x2F#8).extractLsb' 3 5 ≠ 0b00110 ∧ (0x38#8).extractLsb' 3 5 ≠ 0b00110 ∧
    (0x0D#8 ∈ [0x09#8, 0x0B#8, 0x0C#8, 0x0D#8]) ∧ textSpecial 0x00 = false ∧ textSpecial 0xFF = false := by decide

theorem witness_InterpreterBounds : (Reg.command, 0xC0#8) ∈ interpret [0x41, 0x0A] ∧ (Reg.data, 0x41#8) ∈ interpret [0x41, 0x0A] ∧
    ∀ ch ∈ [0x09#8, 0x0B#8, 0x0C#8, 0x0D#8], ch = 0x09 ∨ ch = 0x0B ∨ ch = 0x0C ∨ ch = 0x0D := by decide

theorem witness_RunsAreMaximal : (runsOf [(.data, 0x41), (.command, 0xC0)])[0]? = some (.data, [0x41]) ∧
    (runsOf [(.data, 0x41), (.command, 0xC0)])[1]? = some (.command, [0xC0]) := by decide

theorem witness_TextFormsEmitTheirItem : AbleIdle ready ∧ ready.peer.sync = .paired := ⟨able_ready, rfl⟩

theorem witness_InitConfiguresThePins : (fresh testConfig).fault = none ∧ (fresh testConfig).life = .uninitialized ∧
    configWf (fresh testConfig).cfg = true ∧ (fresh testConfig).phase = .idle ∧
    ∀ r ∈ configuredRoles (fresh testConfig).cfg, reservedPin (fresh testConfig).cfg r = false := by decide

/-- P2b, and the same configuration with the block in `Ready`. -/
theorem witness_ReservedPinAborts :
    ((fresh reservedConfig).fault = none ∧ configWf (fresh reservedConfig).cfg = true ∧ (fresh reservedConfig).phase = .idle ∧
      configuredRoles reservedConfig = [.rs, .rw] ++ .e :: [.d0, .d1, .d2, .d3] ∧
      (∀ q ∈ [PinRole.rs, .rw], reservedPin reservedConfig q = false) ∧ reservedPin reservedConfig .e = true ∧
      (fresh reservedConfig).life = .uninitialized) ∧
    ({ ready with cfg := reservedConfig } : State).life = .ready := by decide

theorem witness_EnablePerformsTheWakeRitual : (configured testConfig).fault = none ∧
    (configured testConfig).life = .pinsConfigured ∧ configWf (configured testConfig).cfg = true ∧
    (configured testConfig).phase = .idle := by decide

/-- The longest text allowed and the shortest that is not. -/
theorem witness_DisplayWriteClearsThenWrites : AbleIdle ready ∧ (List.replicate 32 0x41#8).length ≤ 32 ∧
    32 < (List.replicate 33 0x41#8).length :=
  ⟨able_ready, by decide, by decide⟩

theorem witness_DisplayAppendWritesWithoutClearing : AbleIdle ready ∧ (List.replicate 32 0x41#8).length ≤ 32 ∧
    32 < (List.replicate 33 0x41#8).length :=
  ⟨able_ready, by decide, by decide⟩

theorem witness_AddCustomGlyphWritesItsSlot : AbleIdle ready ∧ ready.peer.sync = .paired ∧ 7 < 8 ∧ 8 ≤ 8 :=
  ⟨able_ready, rfl, by decide, by decide⟩

theorem witness_SetCursorSendsTheCell : AbleIdle ready ∧ ready.peer.sync = .paired ∧ (15 ≤ 15 ∧ 1 ≤ 1) ∧
    (15 < 16 ∨ 1 < 0) ∧ (15 < 0 ∨ 1 < 2) :=
  ⟨able_ready, rfl, by decide, by decide, by decide⟩

theorem witness_ToggleAndResetSendOneCommand : AbleIdle ready ∧ ready.peer.sync = .paired := ⟨able_ready, rfl⟩

/-- With and without a backlight, and in `PinsConfigured`. -/
theorem witness_SetBacklightWritesOnePin :
    (lit.fault = none ∧ lit.life ≠ .uninitialized ∧ configWf lit.cfg = true ∧ lit.phase = .idle ∧ lit.cfg.useBacklight = true) ∧
    ((configured testConfig).life ≠ .uninitialized ∧ configWf (configured testConfig).cfg = true ∧
      (configured testConfig).cfg.useBacklight = false) := by decide

theorem witness_PeerMovesOnlyWhenEnableFalls :
    (after (exec (.continueTransaction false) (opened .data false)) fun _ => ()) = some () ∧
    (after (exec .endTransaction (opened .data false)) fun _ => ()) = some () ∧
    (after (exec (.pinWrite .e false) (opened .data false)) fun _ => ()) = some () ∧
    (after (exec (.beginTransaction true false) ready) fun _ => ()) = some () ∧
    (opened .data false).pin.e = .held true ∧ ready.pin.e = .held false ∧
    ({ opened .data false with dir := .input } : State).dir ≠ .output := by decide

theorem witness_PeerExecutesACommand : AbleIdle ready ∧ ready.peer.sync = .paired := ⟨able_ready, rfl⟩

/-- A DDRAM cell at the last address that is stated to be one, a CGRAM cell at the last address, a counter that steps. -/
theorem witness_PeerStoresADataByte : AbleIdle ready ∧ ready.peer.sync = .paired ∧
    (selectedCell { pairedPeer.regs with ac := 0x4F } = (.ddram, 0x4F) ∧ ddramStated 0x4F = true ∧ ddramStated 0x1F = true) ∧
    selectedCell { pairedPeer.regs with ac := 0x3F, ram := .cgram } = (.cgram, 0x3F) ∧
    (pairedPeer.regs.cursorRight = true ∧ acStepStated true .ddram 0x1E = true ∧ acStepStated true .cgram 0x3E = true) ∧
    (leftPeer.sync = .paired ∧ leftPeer.regs.cursorRight = false ∧ acStepStated false .ddram 0x01 = true ∧
      acStepStated false .ddram 0x41 = true ∧ acStepStated false .cgram 0x01 = true) ∧
    operandBytes [0x41, 0x42] 1 = [0x41#8] ∧ interpret (operandBytes [0x0D, 0x41] 2) = [(.data, 0x41)] ∧
    interpret [0x60, 0x37] = [(.data, 0x07)] :=
  ⟨able_ready, rfl, by decide, by decide, by decide, by decide, by decide, by decide, by decide⟩

theorem witness_ReadsLeaveTheRams : AbleIdle ready ∧ ready.peer.sync = .paired ∧ ready.peer.regs.cursorRight = true ∧
    (∀ k, k < 12 → acStepStated true ready.peer.regs.ram (acMoved true ready.peer.regs.ac k) = true) ∧
    leftPeer.sync = .paired ∧ leftPeer.regs.cursorRight = false ∧
    ∀ k, k < 3 → acStepStated false leftPeer.regs.ram (acMoved false leftPeer.regs.ac k) = true :=
  ⟨able_ready, rfl, rfl, by decide, rfl, rfl, by decide⟩

theorem witness_EnableSynchronisesThePeer : (configured testConfig).fault = none ∧
    (configured testConfig).life = .pinsConfigured ∧ configWf (configured testConfig).cfg = true ∧
    (configured testConfig).phase = .idle ∧ (configured testConfig).peer.sync = .waking 0 := by decide

theorem witness_GlyphRowsLandInCgram : (AbleIdle ready ∧ ready.peer.sync = .paired ∧ ready.peer.regs.cursorRight = true ∧ 7 < 8) ∧
    (AbleIdle { ready with peer := leftPeer } ∧ leftPeer.sync = .paired ∧ leftPeer.regs.cursorRight = false ∧ 0 < 1 ∧ 1 < 8) :=
  ⟨⟨able_ready, rfl, rfl, by decide⟩,
    ⟨⟨able_ready.alive, able_ready.ready, able_ready.config⟩, able_ready.idle⟩, rfl, rfl, by decide, by decide⟩

theorem witness_TextLandsInDdram : AbleIdle ready ∧ ready.peer.sync = .paired ∧ ready.peer.regs.cursorRight = true ∧
    (List.replicate 32 0x20#8).length ≤ 32 ∧
    interpret (List.replicate 32 0x20#8) = (List.replicate 32 0x20#8).map (fun b => (.data, b)) ∧
    (0x41#8 :: 0x0A :: List.replicate 16 0x42).length ≤ 32 ∧ (List.replicate 16 0x42#8).length ≤ 16 ∧
    interpret (0x41#8 :: 0x0A :: List.replicate 16 0x42) =
      [0x41#8].map (fun b => (.data, b)) ++ (.command, 0xC0) :: (List.replicate 16 0x42#8).map fun b => (.data, b) :=
  ⟨able_ready, rfl, rfl, by decide, by decide, by decide, by decide, by decide⟩

/-- A state of each lifecycle state meets the invariant and has a next step. -/
theorem witness_StepKeepsTheInvariant :
    StateInv { fresh testConfig with calls := [0b100000] } ∧ StateInv { configured testConfig with calls := [0b100001] } ∧
    StateInv { ready with calls := [0b100111] } ∧ StateInv { loneOpened with calls := [0b000010] } ∧
    (after (step { fresh testConfig with calls := [0b100000] }) fun _ => ()) = some () ∧
    (after (step { ready with calls := [0b100111] }) fun _ => ()) = some () := by
  refine ⟨?_, ?_, ?_, ?_, by decide, by decide⟩
  · exact ⟨by decide, by decide, fun h => absurd h (by decide), by decide, by decide, fun h => absurd h (by decide), by decide, by decide, by decide, by decide, by decide⟩
  · exact ⟨by decide, by decide, fun h => absurd h (by decide), by decide, by decide, fun h => absurd h (by decide), by decide, by decide, by decide, by decide, by decide⟩
  · exact ⟨by decide, by decide, fun _ => ⟨by decide, by decide, by simp [ready, pairedPeer], by simp [ready, pairedPeer]⟩,
      by decide, by decide, fun h => absurd h (by decide), by decide, by decide, by decide, by decide, by decide⟩
  · exact ⟨by decide, by decide,
      fun _ => ⟨by decide, by decide, by simp [loneOpened, opened, ready, pairedPeer], by simp [loneOpened, opened, ready, pairedPeer]⟩,
      by decide, by decide, fun _ => ⟨rfl, rfl, .command, rfl⟩, by decide, by decide, by decide, by decide, by decide⟩

theorem witness_EngineInvariants :
    (EnableFollowsPhase ready ∧ (∀ v, Instr.reset ≠ .pinWrite .e v) ∧ (after (exec .reset ready) fun _ => ()) = some ()) ∧
    ((opened .data false).phase ≠ .idle ∧ (∀ r v, Instr.endTransaction ≠ .pinWrite r v) ∧
      (after (exec .endTransaction (opened .data false)) fun _ => ()) = some ()) :=
  ⟨⟨by simp [EnableFollowsPhase, ready, fresh], by simp, by decide⟩, opened_busy _ _, by simp, by decide⟩

/-- An abort of each cause. -/
theorem witness_OnlyTheFourCausesAbort :
    after (exec .init (fresh reservedConfig)) (fun t => t.fault) = some (some (.reservedPin .e)) ∧
    after (exec (.displayWrite (List.replicate 33 0x41)) ready) (fun t => t.fault) = some (some (.textTooLong 33)) ∧
    after (exec (.setCursor 0 2) ready) (fun t => t.fault) = some (some (.cursorOutOfRange 0 2)) ∧
    after (exec (.addCustomGlyph ⟨0, 0, 0, 0, 0, 0, 0, 0⟩ 8) ready) (fun t => t.fault) = some (some (.slotOutOfRange 8)) := by
  decide

theorem witness_ConfigurationStaysAndTracesGrow :
    (after (step { ready with calls := [0b100111] }) fun _ => ()) = some () := by decide

theorem witness_FramesAreTheDeliveredStream :
    (ready.phase = .idle ∧ (∀ v, Instr.readStatus ≠ .pinWrite .e v) ∧
      (after (exec .readStatus (wired (byteLevels 0x43))) fun _ => ()) = some ()) ∧
    ((∀ reg r, loneOpened.phase = .active reg r → loneOpened.pin.rs = .held reg.isData ∧ loneOpened.pin.rw = .held r) ∧
      owedTransfers loneOpened ≠ [] ∧ (after (exec (.busWriteBytes .command [0x28]) loneOpened) fun _ => ()) = some ()) :=
  ⟨⟨rfl, by simp, by decide⟩, by rintro _ _ ⟨⟩; exact ⟨rfl, rfl⟩, by decide, by decide⟩

theorem witness_AdjacentWaitsMerge : (mergeWaits [.wait 1, .wait 2])[0]? = some (.wait 3) ∧
    ∀ k a b : Nat, [Event.wait 1, .drive .e true, .wait 2][k]? = some (.wait a) →
      [Event.wait 1, .drive .e true, .wait 2][k + 1]? ≠ some (.wait b) :=
  ⟨by decide, by rintro (_ | _ | _ | k) a b h <;> simp at h ⊢⟩

theorem witness_BehaviourIgnoresTheEnvironment :
    SameBlock ready (wired (byteLevels 0x43)) ∧ (refusal (exec .endTransaction ready)).isSome = true ∧
    (after (exec .readStatus ready) fun _ => ()) = some () ∧ (after (exec .clear ready) fun _ => ()) = some () ∧
    (wired (byteLevels 0x43)).result = ready.result ∧
    (refusal (step { ready with calls := [0x40, 0x03] })).isSome = true ∧
    step { ready with fault := some (.slotOutOfRange 8) } = .fault (.aborted (.slotOutOfRange 8)) ∧
    (after (step { ready with calls := [0x40, 0x01] }) fun _ => ()) = some () :=
  ⟨⟨rfl, rfl, rfl, rfl, rfl, rfl, rfl, rfl, rfl, rfl, rfl, rfl⟩, by decide, by decide, by decide, rfl, by decide, rfl,
    by decide⟩

end Sys2Proof.Machine.Tests
end

section
/-! SUPPORT. O10: which configurations are admitted (00_scope R6, R7). -/

namespace Sys2Proof.Machine

/-- Every wait of R9's table is below the timer's modulus (R7(c)), wait by wait; `W_ENDSETUP` is the setup wait of a write. -/
theorem allWaits_below_iff (c : Config) :
    (∀ d ∈ allWaits c, d < c.timerModulus) ↔
      c.scale * c.tAs - c.tRise < c.timerModulus ∧ c.scale * c.tDdr < c.timerModulus ∧
      c.scale * c.tDsw < c.timerModulus ∧ c.scale * c.tH < c.timerModulus ∧
      c.cycRemRead < c.timerModulus ∧ c.cycRemWrite < c.timerModulus ∧
      c.scale * c.tH + c.tFall < c.timerModulus ∧ c.scale * c.tPowerOn < c.timerModulus ∧
      c.scale * c.tWake1 < c.timerModulus ∧ c.scale * c.tWake2 < c.timerModulus := by
  simp only [allWaits, wAs, wSetup, wHold, wCycRem, wEndSetup, wEndHold, wPowerOn, wWake1, wWake2, if_true,
    Bool.false_eq_true, if_false, List.forall_mem_cons, List.not_mem_nil, false_imp_iff, implies_true, and_true]
  constructor
  · rintro ⟨as, ddr, dsw, hold, cycR, cycW, -, endHold, powerOn, wake1, wake2⟩
    exact ⟨as, ddr, dsw, hold, cycR, cycW, endHold, powerOn, wake1, wake2⟩
  · rintro ⟨as, ddr, dsw, hold, cycR, cycW, endHold, powerOn, wake1, wake2⟩
    exact ⟨as, ddr, dsw, hold, cycR, cycW, dsw, endHold, powerOn, wake1, wake2⟩

/-- `configWf` is the conjunction of the conditions of R7 and of `SCALE` at least 1. -/
theorem configWf_iff (c : Config) :
    configWf c = true ↔
      1 ≤ c.scale ∧ c.tRise ≤ c.scale * c.tAs ∧ wWake2 c < wWake1 c ∧ 0 < wWake2 c ∧
      (∀ d ∈ allWaits c, d < c.timerModulus) ∧
      (∀ r ∈ configuredRoles c, (pinOf c r).isSome) ∧ ((configuredRoles c).map (comboOf c)).Nodup := by
  simp only [configWf, Bool.and_eq_true, List.all_eq_true, decide_eq_true_eq, noRepeats_iff, and_assoc]

/-- Settles O10: `configWf_iff` with the waits written out, and the guard's refusal of any other configuration. -/
theorem configurationWellFormedness : Obligations.ConfigurationWellFormedness := by
  refine ⟨fun c => ?_, fun i s => exec_illFormed⟩
  rw [configWf_iff, allWaits_below_iff]
  rfl

end Sys2Proof.Machine
end

section
/-! SUPPORT. O59: merging adjacent waits (00_scope R11). -/

namespace Sys2Proof.Machine

/-- No two adjacent events of the trace are both waits. -/
def NoAdjacentWaits (es : List Event) : Prop :=
  ∀ k a b : Nat, es[k]? = some (.wait a) → es[k + 1]? ≠ some (.wait b)

theorem noAdjacentWaits_cons (e : Event) (es : List Event) :
    NoAdjacentWaits (e :: es) ↔ (∀ a b, e = .wait a → es.head? ≠ some (.wait b)) ∧ NoAdjacentWaits es := by
  constructor
  · intro h
    exact ⟨fun a b ha => by simpa [ha, List.head?_eq_getElem?] using h 0 a b, fun k => by simpa using h (k + 1)⟩
  · rintro ⟨h0, h⟩ (_ | k) a b
    · simpa [List.head?_eq_getElem?] using h0 a b
    · simpa using h k a b

/-! ## One event joined in front -/

theorem joinWait_wait_wait (a b : Nat) (es : List Event) :
    joinWait (.wait a) (.wait b :: es) = .wait (a + b) :: es := rfl

/-- An event is only put in front, unless it and the head are both waits. -/
theorem joinWait_eq_cons {e : Event} {es : List Event} (h : ∀ a b, e = .wait a → es.head? ≠ some (.wait b)) :
    joinWait e es = e :: es := by
  unfold joinWait
  split
  · next a b rest => exact absurd rfl (h a b rfl)
  · rfl

/-- Either an event is only put in front, or two waits become one. -/
theorem joinWait_cases (e : Event) (es : List Event) :
    (∀ a b, e = .wait a → es.head? ≠ some (.wait b)) ∨ ∃ a b rest, e = .wait a ∧ es = .wait b :: rest := by
  by_cases h : ∃ a b rest, e = .wait a ∧ es = .wait b :: rest
  · exact .inr h
  · refine .inl fun a b ha hb => h ?_
    obtain ⟨rest, hes⟩ := List.head?_eq_some_iff.mp hb
    exact ⟨a, b, rest, ha, hes⟩

/-- Two waits joined in front are their sum joined in front, whatever follows. -/
theorem joinWait_joinWait (a b : Nat) (es : List Event) :
    joinWait (.wait a) (joinWait (.wait b) es) = joinWait (.wait (a + b)) es := by
  obtain h | ⟨_, c, rest, -, rfl⟩ := joinWait_cases (.wait b) es
  · rw [joinWait_eq_cons h, joinWait_eq_cons fun _ c _ => h b c rfl, joinWait_wait_wait]
  · simp only [joinWait_wait_wait, Nat.add_assoc]

theorem noAdjacentWaits_joinWait (e : Event) {es : List Event} (h : NoAdjacentWaits es) :
    NoAdjacentWaits (joinWait e es) := by
  obtain he | ⟨a, b, rest, rfl, rfl⟩ := joinWait_cases e es
  · rw [joinWait_eq_cons he, noAdjacentWaits_cons]
    exact ⟨he, h⟩
  · rw [noAdjacentWaits_cons] at h
    rw [joinWait_wait_wait, noAdjacentWaits_cons]
    exact ⟨fun _ c _ => h.1 b c rfl, h.2⟩

/-- Waits are no frames (R121), joined or not. -/
theorem framesFrom_joinWait (p seen : Pins) (e : Event) (es : List Event) :
    framesFrom p seen (joinWait e es) = framesFrom p seen (e :: es) := by
  obtain he | ⟨a, b, rest, rfl, rfl⟩ := joinWait_cases e es
  · rw [joinWait_eq_cons he]
  · rfl

/-- The frames of a trace depend on its tail only through the tail's frames. -/
theorem framesFrom_cons_congr (e : Event) {es es' : List Event}
    (h : ∀ p seen, framesFrom p seen es = framesFrom p seen es') (p seen : Pins) :
    framesFrom p seen (e :: es) = framesFrom p seen (e :: es') := by
  cases e <;> simp only [framesFrom, h]

/-! ## Whole traces -/

@[simp] theorem mergeWaits_nil : mergeWaits [] = [] := rfl

@[simp] theorem mergeWaits_cons (e : Event) (es : List Event) : mergeWaits (e :: es) = joinWait e (mergeWaits es) := rfl

/-- What stands before a part of the trace sees only the part's merged form. -/
theorem mergeWaits_append_congr {es es' : List Event} (h : mergeWaits es = mergeWaits es') (before : List Event) :
    mergeWaits (before ++ es) = mergeWaits (before ++ es') := by
  induction before with
  | nil => exact h
  | cons e before ih => simp only [List.cons_append, mergeWaits_cons, ih]

theorem mergeWaits_wait_wait (a b : Nat) (es : List Event) :
    mergeWaits (.wait a :: .wait b :: es) = mergeWaits (.wait (a + b) :: es) :=
  joinWait_joinWait a b (mergeWaits es)

theorem noAdjacentWaits_mergeWaits (es : List Event) : NoAdjacentWaits (mergeWaits es) := by
  induction es with
  | nil => simp [NoAdjacentWaits]
  | cons e es ih => exact noAdjacentWaits_joinWait e ih

theorem mergeWaits_eq_self {es : List Event} (h : NoAdjacentWaits es) : mergeWaits es = es := by
  induction es with
  | nil => rfl
  | cons e es ih =>
    obtain ⟨he, hes⟩ := (noAdjacentWaits_cons e es).mp h
    rw [mergeWaits_cons, ih hes, joinWait_eq_cons he]

theorem framesFrom_mergeWaits (p seen : Pins) (es : List Event) :
    framesFrom p seen (mergeWaits es) = framesFrom p seen es := by
  induction es generalizing p seen with
  | nil => rfl
  | cons e es ih => rw [mergeWaits_cons, framesFrom_joinWait, framesFrom_cons_congr e ih]

/-- Settles O59: merging is sound in any surroundings, leaves no adjacent waits, is the identity on a trace without them,
and keeps the nibble stream. -/
theorem adjacentWaitsMerge : Obligations.AdjacentWaitsMerge := by
  refine ⟨fun before after a b => ?_, noAdjacentWaits_mergeWaits, fun es => mergeWaits_eq_self, framesFrom_mergeWaits⟩
  simp only [List.append_assoc]
  exact mergeWaits_append_congr (mergeWaits_wait_wait a b after) before

end Sys2Proof.Machine
end

section
/-! SUPPORT. O51: where the rows of a glyph land (20_memory R53, R54, 43_ram_access R180, 45_facade R220). -/

namespace Sys2Proof.Machine

/-! ## The address counter set into CGRAM -/

/-- The byte that sets the counter into CGRAM is SET_CGRAM_ADDR of the low 6 bits (R89, R175). -/
theorem addressByte_cgram (a : BitVec 7) : addressByte a false = (Command.setCgramAddr (a.setWidth 6)).toByte := by
  have h : ∀ a : Fin (2 ^ 7), addressByte (BitVec.ofFin a) false =
      (Command.setCgramAddr ((BitVec.ofFin a).setWidth 6)).toByte := by decide
  exact h a.toFin

/-- A paired peer whose counter points at `a` in CGRAM, all else as before. -/
def Peer.atCgram (p : Peer) (a : BitVec 7) : Peer :=
  { p with sync := .paired, regs := { p.regs with ac := a, ram := .cgram } }

theorem peerCommand_addressByte_cgram (n : Nat) (a : BitVec 7) (p : Peer) :
    peerCommand n (addressByte a false) p = p.atCgram ((a.setWidth 6).setWidth 7) := by
  simp only [peerCommand, addressByte_cgram, decodeCommand_toByte, Peer.atCgram]

/-- SET_ADDRESS_COUNTER into CGRAM at a peer in step (R51, R175). -/
theorem setAddressCounter_cgram_peer (a : BitVec 7) {s : State} (h : s.phase = .idle) (hp : s.peer.sync = .paired) :
    (setAddressCounter a false s).peer = s.peer.atCgram ((a.setWidth 6).setWidth 7) := by
  obtain ⟨n, e⟩ := busWriteBytes_peerCommand (addressByte a false) s h hp
  rw [← peerCommand_addressByte_cgram n a s.peer, ← e]
  rfl

theorem setAddressCounter_phase (a : BitVec 7) (f : Bool) {s : State} (h : s.phase = .idle) :
    (setAddressCounter a f s).phase = .idle :=
  (busWriteBytes_idle .command [addressByte a f] s h).phase

/-! ## The cells of a slot -/

theorem slotAddr_toNat {slot : Nat} (h : slot < 8) : (slotAddr slot).toNat = slot * 8 := by
  simp only [slotAddr, glyphBytes, BitVec.toNat_ofNat]
  omega

/-- A slot's base address lies in CGRAM, so no bit of it is lost in the command byte. -/
theorem slotAddr_setWidth {slot : Nat} (h : slot < 8) : ((slotAddr slot).setWidth 6).setWidth 7 = slotAddr slot := by
  apply BitVec.eq_of_toNat_eq
  simp only [BitVec.toNat_setWidth, slotAddr_toNat h]
  omega

/-- Upwards, `k` accesses from the base of the slot. -/
theorem acMoved_slotAddr_right {slot k : Nat} (h : slot < 8) (hk : k ≤ 8) :
    (acMoved true (slotAddr slot) k).toNat = slot * 8 + k := by
  simp only [acMoved, if_true, BitVec.toNat_add, slotAddr_toNat h, BitVec.toNat_ofNat]
  omega

/-- Downwards, `k` accesses from the base of a slot above 0. -/
theorem acMoved_slotAddr_left {slot k : Nat} (h : slot < 8) (h0 : 0 < slot) (hk : k ≤ 8) :
    (acMoved false (slotAddr slot) k).toNat = slot * 8 - k := by
  simp only [acMoved, Bool.false_eq_true, if_false, BitVec.toNat_sub, slotAddr_toNat h, BitVec.toNat_ofNat]
  omega

/-- The pixel row is the low 5 bits (R5, R98). -/
theorem glyphRow_eq (b : Byte) : glyphRow b = b.extractLsb' 0 5 := BitVec.setWidth_eq_extractLsb' (by decide)

/-! ## The glyph's bytes at the peer -/

/-- ADD_CUSTOM_GLYPH at a peer in step: the counter set to the slot's base, then one frame per nibble of the rows (R220). -/
theorem addCustomGlyph_peerFrames (g : Glyph) {slot : Nat} {s : State} (ha : AbleIdle s) (hp : s.peer.sync = .paired)
    (h : slot < 8) :
    ∃ t, exec (.addCustomGlyph g slot) s = .next t ∧
      PeerFrames true false (nibblesOf g.rows) (s.peer.atCgram (slotAddr slot)) t.peer := by
  refine ⟨_, exec_of_guard ha.content, ?_⟩
  have hs : ¬maxTotalCustomPattern ≤ slot := Nat.not_le.mpr h
  have hf := busWriteBytes_peer .data g.rows _ (setAddressCounter_phase (slotAddr slot) false ha.idle)
  rw [setAddressCounter_cgram_peer _ ha.idle hp, slotAddr_setWidth h] at hf
  simp only [effectOf, hs, if_false]
  exact hf

/-- The eight rows written from `base` on, wherever no wrap falls between two of them: `cgram_run` for a glyph. -/
theorem glyph_rows_run {g : Glyph} {base : BitVec 7} {p q : Peer} (hb : base.toNat < 64)
    (hst : ∀ k, k < 7 → acStepStated p.regs.cursorRight .cgram (acMoved p.regs.cursorRight base k) = true)
    (hf : PeerFrames true false (nibblesOf g.rows) (p.atCgram base) q) :
    (∀ r, r < 8 → memRead q.cgram (acMoved p.regs.cursorRight base r).toNat = g.rows[r]?) ∧
    (∀ a, (∀ k, k < 8 → a ≠ (acMoved p.regs.cursorRight base k).toNat) → memRead q.cgram a = memRead p.cgram a) ∧
    (acStepStated p.regs.cursorRight .cgram (acMoved p.regs.cursorRight base 7) = true →
      q.regs.ac = acMoved p.regs.cursorRight base 8) := by
  have hlen : g.rows.length = 8 := rfl
  obtain ⟨-, -, -, hrow, hother, hac⟩ := cgram_run g.rows (p.atCgram base) q rfl rfl hb (by omega)
    (fun k hk => hst k (by omega)) hf
  refine ⟨hrow, hother, fun h7 => ?_⟩
  rw [hac fun k hk => ?_]
  · rfl
  · obtain hk | rfl : k < 7 ∨ k = 7 := by omega
    · exact hst k hk
    · exact h7

/-- Under increment mode row `r` lands `r` cells above the base of the slot (R53, R63). -/
theorem glyph_rows_right {g : Glyph} {slot : Nat} {p q : Peer} (hc : p.regs.cursorRight = true) (h : slot < 8)
    (hf : PeerFrames true false (nibblesOf g.rows) (p.atCgram (slotAddr slot)) q) :
    (∀ r, r < 8 → memRead q.cgram (slot * 8 + r) = g.rows[r]?) ∧
    (∀ a, a < slot * 8 ∨ slot * 8 + 8 ≤ a → memRead q.cgram a = memRead p.cgram a) ∧
    (slot < 7 → q.regs.ac = BitVec.ofNat 7 (slot * 8 + 8)) := by
  have addr : ∀ k, k ≤ 8 → (acMoved true (slotAddr slot) k).toNat = slot * 8 + k := fun k => acMoved_slotAddr_right h
  have stated : ∀ k, k ≤ 8 → slot * 8 + k < 63 → acStepStated true .cgram (acMoved true (slotAddr slot) k) = true :=
    fun k hk hw => by simpa [acStepStated, addr k hk] using hw
  obtain ⟨hrow, hother, hac⟩ := glyph_rows_run (by rw [slotAddr_toNat h]; omega)
    (fun k hk => by rw [hc]; exact stated k (by omega) (by omega)) hf
  rw [hc] at hrow hother hac
  refine ⟨fun r hr => ?_, fun a ha => hother a fun k hk => ?_, fun h7 => ?_⟩
  · rw [← addr r (Nat.le_of_lt hr)]
    exact hrow r hr
  · rw [addr k (Nat.le_of_lt hk)]
    omega
  · rw [hac (stated 7 (by decide) (by omega)), ← addr 8 (Nat.le_refl 8), BitVec.ofNat_toNat, BitVec.setWidth_eq]

/-- Under decrement mode, in a slot above 0, row `r` lands `r` cells below the base of the slot (R54). -/
theorem glyph_rows_left {g : Glyph} {slot : Nat} {p q : Peer} (hc : p.regs.cursorRight = false) (h : slot < 8)
    (h0 : 0 < slot) (hf : PeerFrames true false (nibblesOf g.rows) (p.atCgram (slotAddr slot)) q) :
    (∀ r, r < 8 → memRead q.cgram (slot * 8 - r) = g.rows[r]?) ∧
    (∀ a, a + 8 ≤ slot * 8 ∨ slot * 8 < a → memRead q.cgram a = memRead p.cgram a) ∧
    q.regs.ac = BitVec.ofNat 7 (slot * 8 - 8) := by
  have addr : ∀ k, k ≤ 8 → (acMoved false (slotAddr slot) k).toNat = slot * 8 - k :=
    fun k => acMoved_slotAddr_left h h0
  have stated : ∀ k, k < 8 → acStepStated false .cgram (acMoved false (slotAddr slot) k) = true := fun k hk => by
    simp only [acStepStated, addr k (Nat.le_of_lt hk), Bool.and_eq_true, decide_eq_true_eq]
    omega
  obtain ⟨hrow, hother, hac⟩ := glyph_rows_run (by rw [slotAddr_toNat h]; omega)
    (fun k hk => by rw [hc]; exact stated k (by omega)) hf
  rw [hc] at hrow hother hac
  refine ⟨fun r hr => ?_, fun a ha => hother a fun k hk => ?_, ?_⟩
  · rw [← addr r (Nat.le_of_lt hr)]
    exact hrow r hr
  · rw [addr k (Nat.le_of_lt hk)]
    omega
  · rw [hac (stated 7 (by decide)), ← addr 8 (Nat.le_refl 8), BitVec.ofNat_toNat, BitVec.setWidth_eq]

/-- A cell that holds a pattern byte holds its pixel row. -/
theorem cell_and_glyphRow {m o : Option Byte} (h : m = o) :
    m = o ∧ m.map glyphRow = o.map fun b => b.extractLsb' 0 5 :=
  ⟨h, h ▸ Option.map_congr fun b _ => glyphRow_eq b⟩

/-- Settles O51: what holds in either mode from `data_run`, then the rows upwards or downwards from the slot's base. -/
theorem glyphRowsLandInCgram : Obligations.GlyphRowsLandInCgram := by
  intro g slot s ha hp h
  obtain ⟨t, ht, hf⟩ := addCustomGlyph_peerFrames g ha hp h
  obtain ⟨hsync, hram, -, hddram⟩ := data_run g.rows _ _ rfl hf
  refine ⟨t, ht, hsync, hram, hddram rfl, fun hc => ?_, fun hc h0 => ?_⟩
  · obtain ⟨hrow, hother, hac⟩ := glyph_rows_right hc h hf
    exact ⟨fun r hr => cell_and_glyphRow (hrow r hr), hother, hac⟩
  · obtain ⟨hrow, hother, hac⟩ := glyph_rows_left hc h h0 hf
    exact ⟨fun r hr => cell_and_glyphRow (hrow r hr), hother, hac⟩

end Sys2Proof.Machine
end

section
/-! SUPPORT. O7, O54: the state after reset (10_state R33, 70_reset_and_hazards R281). -/

namespace Sys2Proof.Machine

/-- No pin has been written (R33, the spec's decision D16). -/
@[simp] theorem Pins.unwritten_get (r : PinRole) : Pins.unwritten.get r = .noValue := by
  cases r <;> rfl

@[simp] theorem memRead_nil (a : Nat) : memRead [] a = none := rfl

/-- Settles O7: each field as `State.reset` gives it. -/
theorem resetLeavesTheBlock : Obligations.ResetLeavesTheBlock :=
  ⟨rfl, rfl, rfl, rfl, rfl, Pins.unwritten_get, rfl, fun a => ⟨memRead_nil a, memRead_nil a⟩⟩

/-- Settles O54: at reset the block is `Uninitialized`, so what the invariant asks from `PinsConfigured` on is vacuous. -/
theorem resetMeetsTheInvariant : Obligations.ResetMeetsTheInvariant where
  lifecycle := by decide
  before _ := ⟨rfl, rfl, rfl⟩
  after := nofun
  uninitialized _ := rfl
  configured := nofun
  loneNibble := nofun
  abortIdle _ := rfl
  backlight _ := rfl
  domains := List.nodup_nil
  ddram := rfl
  cgram := rfl

end Sys2Proof.Machine
end

section
/-! SUPPORT. O57: every call keeps the configuration and only appends to the trace and the delivered stream (10_state R28, R29,
20_memory R64). -/

namespace Sys2Proof.Machine

/-- From `s` to `t` the configuration stayed, and both streams only got longer. -/
structure Grew (s t : State) : Prop where
  cfg : t.cfg = s.cfg
  trace : s.trace <+: t.trace
  delivered : s.delivered <+: t.delivered

theorem Grew.refl (s : State) : Grew s s := ⟨rfl, List.prefix_rfl, List.prefix_rfl⟩

theorem Grew.trans {s t u : State} (h : Grew s t) (k : Grew t u) : Grew s u :=
  ⟨k.cfg.trans h.cfg, h.trace.trans k.trace, h.delivered.trans k.delivered⟩

theorem Grew.of_append {s t : State} {es : List Event} {ts : List Transfer} (hc : t.cfg = s.cfg)
    (he : t.trace = s.trace ++ es) (ht : t.delivered = s.delivered ++ ts) : Grew s t :=
  ⟨hc, he ▸ List.prefix_append _ _, ht ▸ List.prefix_append _ _⟩

/-- What is handed back is no part of it. -/
theorem Grew.returning {s t : State} (h : Grew s t) (r : Returned) : Grew s (returning r t) :=
  ⟨h.cfg, h.trace, h.delivered⟩

/-! ## The named operations -/

theorem emit_grew (e : Event) (s : State) : Grew s (emit e s) :=
  ⟨rfl, List.prefix_append _ _, List.prefix_rfl⟩

theorem sample_grew (r : PinRole) (s : State) : Grew s (sample r s) :=
  ⟨rfl, List.prefix_append _ _, List.prefix_rfl⟩

theorem abort_grew (c : Cause) (s : State) : Grew s (abort c s) :=
  ⟨rfl, List.prefix_append _ _, List.prefix_rfl⟩

theorem drive_grew (r : PinRole) (v : Level) (s : State) : Grew s (drive r v s) := by
  refine ⟨rfl, List.prefix_append _ _, ?_⟩
  rw [drive_delivered]
  split
  · exact List.prefix_append _ _
  · exact List.prefix_rfl

theorem setDataDirection_grew (i : Bool) (s : State) : Grew s (setDataDirection i s) := by
  rw [setDataDirection_eq]
  exact ⟨rfl, List.prefix_append _ _, List.prefix_rfl⟩

theorem beginTransaction_grew (reg : Reg) (r : Bool) (s : State) : Grew s (beginTransaction reg r s) := by
  rw [beginTransaction_eq]
  exact ⟨rfl, List.prefix_append _ _, List.prefix_rfl⟩

theorem continueTransaction_grew (r : Bool) (s : State) : Grew s (continueTransaction r s) := by
  rw [continueTransaction_eq]
  exact .of_append rfl rfl rfl

theorem endTransaction_grew (s : State) : Grew s (endTransaction s) := by
  rw [endTransaction_eq]
  exact .of_append rfl rfl rfl

theorem driveNibble_grew (n : Nibble) (s : State) : Grew s (driveNibble n s) := by
  rw [driveNibble_eq]
  exact ⟨rfl, List.prefix_append _ _, List.prefix_rfl⟩

theorem sampleNibble_grew (s : State) : Grew s (sampleNibble s).2 := by
  rw [sampleNibble_eq]
  exact ⟨rfl, List.prefix_append _ _, List.prefix_rfl⟩

/-! ## Whole transfers -/

theorem emitRuns_grew {runs : List (Reg × List Byte)} {s : State} (h : s.phase = .idle)
    (hr : ∀ run ∈ runs, run.2 ≠ []) : Grew s (emitRuns runs s) := by
  obtain ⟨kept, trace, delivered, -⟩ := emitRuns_eq runs s h hr
  exact .of_append kept.cfg trace delivered

theorem busReadBytes_grew (reg : Reg) (k : Nat) {s : State} (h : s.phase = .idle) :
    Grew s (busReadBytes reg k s).2 := by
  have r := busReadBytes_idle reg k s h
  exact .of_append r.kept.cfg r.trace r.delivered

/-- A write that joins an open transaction (R119). -/
theorem busWriteBytes_join_grew (reg : Reg) {bs : List Byte} (hb : bs ≠ []) {s : State} {r : Reg} {d : Bool}
    (h : s.phase = .active r d) : Grew s (busWriteBytes reg bs s) := by
  obtain ⟨p, n, e⟩ := busWriteBytes_join reg bs (bs.getLast hb) (List.getLast?_eq_some_getLast hb) s r d h
  rw [e]
  exact .of_append rfl rfl (List.append_assoc ..)

theorem busWriteNibble_grew (reg : Reg) (n : Nibble) (t : Bool) (s : State) : Grew s (busWriteNibble reg n t s) := by
  rw [busWriteNibble_eq]
  refine ⟨rfl, by simp only [List.append_assoc, List.prefix_append], ?_⟩
  cases t
  · exact List.prefix_rfl
  · exact List.prefix_append _ _

theorem busReadNibble_grew (reg : Reg) (n : Nibble) (s : State) : Grew s (busReadNibble reg n s).2 := by
  obtain ⟨-, p, k, e⟩ := busReadNibble_eq reg n s
  rw [e]
  exact ⟨rfl, by simp only [List.append_assoc, List.prefix_append], List.prefix_append _ _⟩

theorem wakeRitual_grew (s : State) : Grew s (wakeRitual s) := by
  rw [wakeRitual_eq]
  exact ⟨rfl, by simp only [List.append_assoc, List.prefix_append], List.prefix_append _ _⟩

/-- CONFIGURE, whether or not a reserved pin cuts it short (R140). -/
theorem configure_grew (s : State) (hw : configWf s.cfg = true) : Grew s (configure s) := by
  rcases firstReserved s.cfg (configuredRoles s.cfg) with hr | ⟨before, r, after, e, h1, h2⟩
  · rw [configure_ok s hw hr]
    exact ⟨rfl, List.prefix_append _ _, List.prefix_rfl⟩
  · rw [configure_reserved s hw before after r e h1 h2]
    exact ⟨rfl, by simp only [List.append_assoc, List.prefix_append], List.prefix_rfl⟩

/-! ## Calls and steps -/

theorem initCommands_ne_nil (c : Config) : initCommands c ≠ [] := List.cons_ne_nil _ _

theorem exec_grew {i : Instr} {s t : State} (he : exec i s = .next t) : Grew s t := by
  obtain ⟨-, hw, sh⟩ := exec_shape he
  cases sh with
  | runs _ _ hr hp => exact (emitRuns_grew hp hr).returning _
  | reads _ runs reg n _ hr hp =>
    obtain ⟨-, -, -, hp', -⟩ := emitRuns_eq runs s hp hr
    exact ((emitRuns_grew hp hr).trans (busReadBytes_grew reg n hp')).returning _
  | nothing => exact (Grew.refl s).returning _
  | join reg bs hb hp => exact (busWriteBytes_join_grew reg hb hp).returning _
  | nibble => exact (busWriteNibble_grew ..).returning _
  | readNibble => exact (busReadNibble_grew ..).returning _
  | beginTransaction => exact (beginTransaction_grew ..).returning _
  | continueTransaction => exact (continueTransaction_grew ..).returning _
  | endTransaction => exact (endTransaction_grew s).returning _
  | driveNibble => exact (driveNibble_grew ..).returning _
  | sampleNibble => exact (sampleNibble_grew s).returning _
  | setDataDirection => exact (setDataDirection_grew ..).returning _
  | pinWrite => exact (drive_grew ..).returning _
  | pinWriteNoLatch => exact (emit_grew ..).returning _
  | pinRead => exact (sample_grew ..).returning _
  | builder => exact (Grew.refl s).returning _
  | configured => exact (configure_grew s hw).returning _
  | init =>
    have h := (configure_grew s hw).trans (setDataDirection_grew true _)
    exact ⟨h.cfg, h.trace, h.delivered⟩
  | reserved => exact configure_grew s hw
  | enable =>
    have hp : (wakeRitual s).phase = .active .command false := by rw [wakeRitual_eq]
    have h := (wakeRitual_grew s).trans (busWriteBytes_join_grew .command (initCommands_ne_nil s.cfg) hp)
    exact ⟨h.cfg, h.trace, h.delivered⟩
  | backlight on =>
    refine Grew.returning ?_ _
    split
    · exact drive_grew ..
    · exact Grew.refl s
  | aborted => exact abort_grew ..

/-- A step to a next state is idle, or a decoded call taken off `calls` and run. -/
theorem step_next {s t : State} (h : step s = .next t) :
    t = s ∨ ∃ i rest, decode s.calls = .ok (i, rest) ∧ exec i { s with calls := rest } = .next t := by
  unfold step at h
  split at h
  · split at h
    · exact .inl (by simpa using h.symm)
    · cases h
  · split at h
    · next i rest hd => exact .inr ⟨i, rest, hd, h⟩
    · cases h

/-- Settles O57: `exec_grew` for the call a step takes. -/
theorem configurationStaysAndTracesGrow : Obligations.ConfigurationStaysAndTracesGrow := by
  intro s t h
  obtain rfl | ⟨i, rest, -, he⟩ := step_next h
  · exact ⟨rfl, ⟨[], (List.append_nil _).symm⟩, [], (List.append_nil _).symm⟩
  · obtain ⟨hc, ⟨es, he⟩, ts, ht⟩ := exec_grew he
    exact ⟨hc, ⟨es, he.symm⟩, ts, ht.symm⟩

end Sys2Proof.Machine
end

section
/-! SUPPORT. O55: E follows the phase, and RS and RW stay through an open transaction (10_state R24, 40_bus_engine R110,
R120). -/

namespace Sys2Proof.Machine

/-! ## E asserted exactly while a transaction is open -/

theorem EnableFollowsPhase.closed {s : State} (he : s.pin.e = .held false) (hp : s.phase = .idle) :
    EnableFollowsPhase s := by
  simp [EnableFollowsPhase, he, hp]

theorem EnableFollowsPhase.opened {s : State} (he : s.pin.e = .held true) (hp : s.phase ≠ .idle) :
    EnableFollowsPhase s := by
  simp [EnableFollowsPhase, he, hp]

/-- Only E and the phase matter. -/
theorem EnableFollowsPhase.congr {s t : State} (h : EnableFollowsPhase s) (he : t.pin.e = s.pin.e)
    (hp : t.phase = s.phase) : EnableFollowsPhase t := by
  rw [EnableFollowsPhase, he, hp]
  exact h

theorem EnableFollowsPhase.returning {s : State} (h : EnableFollowsPhase s) (r : Returned) :
    EnableFollowsPhase (returning r s) :=
  h.congr rfl rfl

theorem reset_enableFollowsPhase : EnableFollowsPhase State.reset := by
  simp [EnableFollowsPhase, State.reset, Pins.unwritten]

theorem Pins.set_e_of_ne {r : PinRole} (h : r ≠ .e) (v : Level) (p : Pins) : (p.set r v).e = p.e := by
  cases r with
  | e => exact absurd rfl h
  | rs | rw | bl | d0 | d1 | d2 | d3 => rfl

/-- Any write of bytes that writes something closes its transaction (R116, R119). -/
theorem busWriteBytes_enableFollowsPhase (reg : Reg) (bs : List Byte) {s : State} (h : EnableFollowsPhase s) :
    EnableFollowsPhase (busWriteBytes reg bs s) := by
  by_cases hb : bs = []
  · rw [hb, busWriteBytes_nil]
    exact h
  · rw [busWriteBytes, if_neg hb]
    exact .closed (by simp) (by simp)

theorem emitRuns_enableFollowsPhase : ∀ (runs : List (Reg × List Byte)) {s : State}, EnableFollowsPhase s →
    EnableFollowsPhase (emitRuns runs s)
  | [], _, h => h
  | (reg, bs) :: more, _, h => emitRuns_enableFollowsPhase more (busWriteBytes_enableFollowsPhase reg bs h)

/-- Any read of bytes that reads something closes its transaction (R117). -/
theorem busReadBytes_enableFollowsPhase (reg : Reg) (k : Nat) {s : State} (h : EnableFollowsPhase s) :
    EnableFollowsPhase (busReadBytes reg k s).2 := by
  by_cases hk : k = 0
  · subst hk
    exact h
  · rw [busReadBytes, if_neg hk]
    exact .closed (by simp) (by simp)

/-- A lone nibble's transaction is open exactly when it is not terminated (R118). -/
theorem busWriteNibble_enableFollowsPhase (reg : Reg) (n : Nibble) (t : Bool) (s : State) :
    EnableFollowsPhase (busWriteNibble reg n t s) := by
  rw [busWriteNibble_eq]
  cases t
  · exact .opened rfl nofun
  · exact .closed rfl rfl

theorem busReadNibble_enableFollowsPhase (reg : Reg) (n : Nibble) (s : State) :
    EnableFollowsPhase (busReadNibble reg n s).2 := by
  obtain ⟨-, p, k, e⟩ := busReadNibble_eq reg n s
  rw [e]
  exact .closed rfl rfl

/-- CONFIGURE drives no latch and opens no transaction (R140). -/
theorem configure_pin_phase (s : State) (hw : configWf s.cfg = true) :
    (configure s).pin = s.pin ∧ (configure s).phase = s.phase := by
  rcases firstReserved s.cfg (configuredRoles s.cfg) with hr | ⟨before, r, after, e, h1, h2⟩
  · rw [configure_ok s hw hr]
    exact ⟨rfl, rfl⟩
  · rw [configure_reserved s hw before after r e h1 h2]
    exact ⟨rfl, rfl⟩

theorem configure_enableFollowsPhase {s : State} (hw : configWf s.cfg = true) (h : EnableFollowsPhase s) :
    EnableFollowsPhase (configure s) := by
  obtain ⟨hpin, hphase⟩ := configure_pin_phase s hw
  exact h.congr (by rw [hpin]) hphase

theorem wakeRitual_enableFollowsPhase (s : State) : EnableFollowsPhase (wakeRitual s) := by
  rw [wakeRitual_eq]
  exact .opened rfl nofun

/-- Every operation but a host's own pin write of E keeps E with the phase (R120(a)). -/
theorem exec_enableFollowsPhase {i : Instr} {s t : State} (hi : ∀ v, i ≠ .pinWrite .e v) (h : EnableFollowsPhase s)
    (he : exec i s = .next t) : EnableFollowsPhase t := by
  obtain ⟨-, hw, sh⟩ := exec_shape he
  cases sh with
  | runs => exact (emitRuns_enableFollowsPhase _ h).returning _
  | reads => exact (busReadBytes_enableFollowsPhase _ _ (emitRuns_enableFollowsPhase _ h)).returning _
  | nothing | builder | pinRead | pinWriteNoLatch | aborted => exact h.congr rfl rfl
  | join => exact (busWriteBytes_enableFollowsPhase _ _ h).returning _
  | nibble => exact (busWriteNibble_enableFollowsPhase ..).returning _
  | readNibble => exact (busReadNibble_enableFollowsPhase ..).returning _
  | beginTransaction => exact .opened (by simp) (by simp)
  | continueTransaction reg r hp => exact .opened (by simp) (by simp [hp])
  | endTransaction => exact .closed (by simp) (by simp)
  | driveNibble | sampleNibble | setDataDirection => exact h.congr (by simp) (by simp)
  | pinWrite r v =>
    have hr : r ≠ .e := by
      rintro rfl
      exact hi v rfl
    exact h.congr (Pins.set_e_of_ne hr v s.pin) rfl
  | configured => exact (configure_enableFollowsPhase hw h).returning _
  | reserved => exact configure_enableFollowsPhase hw h
  | init => exact (configure_enableFollowsPhase hw h).congr (by simp) (by simp)
  | enable =>
    have k := busWriteBytes_enableFollowsPhase .command (initCommands s.cfg) (wakeRitual_enableFollowsPhase s)
    exact k.congr rfl rfl
  | backlight on =>
    refine EnableFollowsPhase.returning ?_ _
    split
    · exact h.congr rfl rfl
    · exact h

/-! ## RS and RW inside an open transaction -/

/-- Inside an open transaction only a host's own pin write moves RS or RW: BEGIN, which drives them, needs `Idle`
(R120(b)). -/
theorem exec_rs_rw_of_open {i : Instr} {s t : State} (ho : s.phase ≠ .idle) (hi : ∀ r v, i ≠ .pinWrite r v)
    (he : exec i s = .next t) : t.pin.rs = s.pin.rs ∧ t.pin.rw = s.pin.rw := by
  obtain ⟨-, -, sh⟩ := exec_shape he
  cases sh with
  | runs _ _ _ hp | reads _ _ _ _ _ _ hp | nibble _ _ _ _ hp | readNibble _ _ _ hp | beginTransaction _ _ hp
  | setDataDirection _ hp | configured hp | init hp | reserved _ _ _ _ hp | enable hp | backlight _ hp
  | aborted _ _ _ hp => exact absurd hp ho
  | pinWrite r v => exact absurd rfl (hi r v)
  | pinWriteNoLatch v => exact absurd rfl (hi .bl v)
  | nothing | builder | pinRead => exact ⟨rfl, rfl⟩
  | join reg bs hb hp =>
    obtain ⟨p, n, e⟩ := busWriteBytes_join reg bs (bs.getLast hb) (List.getLast?_eq_some_getLast hb) s reg false hp
    rw [e]
    exact ⟨rfl, rfl⟩
  | continueTransaction | endTransaction | driveNibble | sampleNibble => simp

/-- Settles O55: reset, E with the phase by `exec_enableFollowsPhase`, RS and RW by `exec_rs_rw_of_open`. -/
theorem engineInvariants : Obligations.EngineInvariants :=
  ⟨reset_enableFollowsPhase, fun _ _ _ => exec_enableFollowsPhase, fun _ _ _ => exec_rs_rw_of_open⟩

end Sys2Proof.Machine
end

section
/-! SUPPORT. O5: a step is the decoded call and nothing around it (20_memory R64). -/

namespace Sys2Proof.Machine

/-- No call is read off an empty call stream. -/
theorem decode_nil : decode [] = .error .truncated := rfl

/-- Settles O5: bytes that decode are not empty, and then `step` runs what they decode to. -/
theorem stepRunsTheDecodedCall : Obligations.StepRunsTheDecodedCall := by
  intro s i rest h
  unfold step
  split
  · next hnil =>
    rw [hnil, decode_nil] at h
    cases h
  · rw [h]

end Sys2Proof.Machine
end

section
/-! SUPPORT. O23, O47: a command byte at a peer in step, as two frames and as a whole (20_memory R51, R55, R56, R59). -/

namespace Sys2Proof.Machine

/-! ## Two frames -/

theorem AbleIdle.of_kept {s t : State} (h : AbleIdle s) (k : Kept s t) (hp : t.phase = .idle) : AbleIdle t :=
  ⟨⟨by rw [k.fault, h.alive], by rw [k.life, h.ready], by rw [k.cfg, h.config]⟩, hp⟩

/-- Between two bytes a frame is the first half of the next one (R56). -/
theorem peerFrame_paired (n : Nat) (s w : Level) (nib : Nibble) {p : Peer} (hp : p.sync = .paired) :
    peerFrame n s w nib p = { p with sync := .half ⟨s, w, nib⟩ } := by
  simp [peerFrame, hp]

/-- A second frame of the same kind completes the byte (R56, R59). -/
theorem peerFrame_half (n : Nat) (s w : Level) (hi lo : Nibble) (p : Peer) :
    peerFrame n s w lo { p with sync := .half ⟨s, w, hi⟩ } = peerByte n s w (byteOf hi lo) p := by
  simp [peerFrame, peerByte_sync]

/-- NIB_WR_CMD is one frame to the peer, and the block can go on (R93). -/
theorem nibWrCmd_next (nib : Nibble) {s : State} (h : AbleIdle s) :
    ∃ t, exec (.nibWrCmd nib) s = .next t ∧ AbleIdle t ∧ t.peer = peerFrame s.draws false false nib s.peer := by
  refine ⟨_, exec_of_guard h.guard, ?_, busWriteNibble_peer .command nib s⟩
  refine h.of_kept ?_ ?_ <;> simp only [effectOf, busWriteNibble_eq]
  · exact ⟨rfl, rfl, rfl, rfl, rfl, rfl⟩
  · rfl

/-- Settles O23: the first frame leaves the high nibble held, the second completes the byte. -/
theorem twoFramesMakeOneCommandByte : Obligations.TwoFramesMakeOneCommandByte := by
  intro c s h hp
  obtain ⟨t, ht, hat, hpt⟩ := nibWrCmd_next (highNibble c) h
  obtain ⟨u, hu, -, hpu⟩ := nibWrCmd_next (lowNibble c) hat
  rw [peerFrame_paired _ _ _ _ hp] at hpt
  rw [hpt, peerFrame_half, byteOf_nibbles] at hpu
  exact ⟨t, u, t.draws, ht, hpt, hu, hpu⟩

/-! ## A whole command byte -/

theorem exec_toInstr (cmd : Command) (s : State) : exec cmd.toInstr s = execCommand cmd s := by
  cases cmd <;> rfl

/-- JUMP_LINE2 is a second name of SET_DDRAM_ADDR with address 0x40 (R91). -/
theorem cmdJumpLine2_eq : cmdJumpLine2 = (Command.setDdramAddr 0x40).toByte := rfl

theorem exec_jumpLine2 (s : State) : exec .jumpLine2 s = exec (.setDdramAddr 0x40) s := by
  simp only [exec, execJumpLine2, execSetDdramAddr, execCommand, cmdJumpLine2_eq]

/-- A command row of the table delivers its byte to a peer in step, once (R51, R55). -/
theorem command_peer (cmd : Command) {s : State} (h : AbleIdle s) (hp : s.peer.sync = .paired) :
    ∃ t n, exec cmd.toInstr s = .next t ∧ t.peer = peerCommand n cmd.toByte s.peer := by
  obtain ⟨n, e⟩ := busWriteBytes_peerCommand cmd.toByte s h.idle hp
  refine ⟨s |> writeCommand cmd.toByte |> returning .nothing, n, ?_, e⟩
  rw [exec_toInstr, execCommand, h.guard, guarded_none]

/-- The same, for a command whose effect on the peer has no free value in it. -/
theorem command_peer_eq (cmd : Command) {s : State} {q : Peer} (h : AbleIdle s) (hp : s.peer.sync = .paired)
    (hq : ∀ n, peerCommand n cmd.toByte s.peer = q) : ∃ t, exec cmd.toInstr s = .next t ∧ t.peer = q := by
  obtain ⟨t, n, ht, e⟩ := command_peer cmd h hp
  exact ⟨t, ht, e.trans (hq n)⟩

/-- The peer with its counter at `a` in DDRAM, in step, all else as before. -/
def Peer.atDdram (p : Peer) (a : BitVec 7) : Peer :=
  { p with sync := .paired, regs := { p.regs with ac := a, ram := .ddram } }

/-- CLEAR forgets DDRAM and brings the counter to its address 0 (R55, R58; log 10). -/
theorem peerCommand_clear (n : Nat) (p : Peer) : peerCommand n cmdClear p = { p with ddram := [] }.atDdram 0 := rfl

theorem peerCommand_setDdramAddr (n : Nat) (a : BitVec 7) (p : Peer) :
    peerCommand n (Command.setDdramAddr a).toByte p = p.atDdram a := by
  simp only [peerCommand, decodeCommand_toByte, Peer.atDdram]

/-- Settles O47: `command_peer` for each row, and the row of `peerCommand` its byte decodes to. -/
theorem peerExecutesACommand : Obligations.PeerExecutesACommand := by
  intro s h hp
  have setDdram (a : BitVec 7) : ∃ t, exec (.setDdramAddr a) s = .next t ∧
      t.peer = { s.peer with regs := { s.peer.regs with ac := a, ram := .ddram } } :=
    command_peer_eq (.setDdramAddr a) h hp fun n => by
      simp only [peerCommand_setDdramAddr, Peer.atDdram, hp]
  refine ⟨?clear, setDdram, fun a => command_peer_eq (.setCgramAddr a) h hp fun n => ?setCgram, ?jumpLine2,
    fun r sh => command_peer_eq (.entryMode r sh) h hp fun n => ?entryMode,
    fun d c b => command_peer_eq (.displayControl d c b) h hp fun n => ?displayControl,
    fun l f x => command_peer_eq (.functionSet false l f x) h hp fun n => ?functionSet,
    command_peer_eq .home h hp fun n => ?home, fun m x => ?shiftCursor,
    fun m x => command_peer_eq (.shift true m x) h hp fun n => ?shiftDisplay⟩
  case setCgram | entryMode | displayControl | functionSet | home => simp only [peerCommand, decodeCommand_toByte, hp]
  case shiftDisplay => simp only [peerCommand, decodeCommand_toByte, ← hp]
  case clear =>
    obtain ⟨t, ht, e⟩ := command_peer_eq .clear h hp fun n => peerCommand_clear n s.peer
    refine ⟨t, ht, ?_⟩
    rw [e]
    exact ⟨rfl, rfl, rfl, rfl⟩
  case jumpLine2 =>
    rw [exec_jumpLine2]
    exact setDdram 0x40
  case shiftCursor =>
    obtain ⟨t, n, ht, e⟩ := command_peer (.shift false m x) h hp
    exact ⟨t, (Config.peerRegs n).ac, ht, by simp only [e, peerCommand, decodeCommand_toByte, hp]⟩

end Sys2Proof.Machine
end

section
/-! SUPPORT. O48, O49: a data byte stored at a peer in step, and reads, which store nothing (20_memory R50, R54, R61). -/

namespace Sys2Proof.Machine

/-! ## The calls that send one data byte -/

/-- The calls that send this data byte and nothing else. -/
def SendsDataByte (b : Byte) (i : Instr) : Prop :=
  i = .txtVerbatim b ∨ i = .busWriteBytes .data [b] ∨ (i = .txtSpace ∧ b = 0x20) ∨ (i = .txtEscapeFailed ∧ b = 0x60) ∨
    (∃ d : BitVec 3, i = .txtGlyph d ∧ b = d.setWidth 8) ∨
    (∃ data count, i = .writeBytesRaw data count ∧ operandBytes data count = [b]) ∨
    (∃ data count, i = .writeBytesText data count ∧ interpret (operandBytes data count) = [(.data, b)]) ∨
    (∃ text : List Byte, i = .displayAppend text ∧ text.length ≤ 32 ∧ interpret text = [(.data, b)])

theorem writeText_one {text : List Byte} {b : Byte} (h : interpret text = [(.data, b)]) (s : State) :
    writeText text s = busWriteBytes .data [b] s := by
  rw [writeText, h, emitItems_one]

/-- Each of them is the same write of one byte (R116, R177, R178, R198 to R202, R219). -/
theorem SendsDataByte.next {b : Byte} {i : Instr} (hi : SendsDataByte b i) {s : State} (h : AbleIdle s) :
    exec i s = .next (s |> busWriteBytes .data [b] |> returning .nothing) := by
  rw [exec_next]
  obtain rfl | rfl | ⟨rfl, rfl⟩ | ⟨rfl, rfl⟩ | ⟨d, rfl, rfl⟩ | ⟨data, n, rfl, e⟩ | ⟨data, n, rfl, e⟩ | ⟨text, rfl, hl, e⟩ := hi
  · exact ⟨h.guard, rfl⟩
  · exact ⟨by rw [guardOf, h.toAble.guard, writeGuard_idle h.idle, Option.or_none], rfl⟩
  · exact ⟨h.guard, rfl⟩
  · exact ⟨h.guard, rfl⟩
  · exact ⟨h.guard, rfl⟩
  · exact ⟨h.guard, by rw [effectOf, e]⟩
  · exact ⟨h.guard, by rw [effectOf, writeText_one e]⟩
  · exact ⟨h.content, by rw [← writeText_one e]; exact if_neg (Nat.not_lt.mpr hl)⟩

/-! ## What a data byte does to the peer -/

theorem peerWriteData_regs (n : Nat) (b : Byte) (p : Peer) :
    (peerWriteData n b p).regs = { p.regs with ac := acAfterAccess n p.regs } := by
  simp only [peerWriteData]
  split <;> rfl

/-- A byte written where the counter points into DDRAM (R50, R52). -/
theorem peerWriteData_ddram (n : Nat) (b : Byte) {p : Peer} {a : Nat} (h : selectedCell p.regs = (.ddram, a)) :
    (peerWriteData n b p).cgram = p.cgram ∧
    (ddramStated p.regs.ac = true → (peerWriteData n b p).ddram = memWrite p.ddram a b) := by
  simp only [peerWriteData, h]
  exact ⟨trivial, fun hs => if_pos hs⟩

/-- A byte written where the counter points into CGRAM (R50, R53). -/
theorem peerWriteData_cgram (n : Nat) (b : Byte) {p : Peer} {a : Nat} (h : selectedCell p.regs = (.cgram, a)) :
    (peerWriteData n b p).ddram = p.ddram ∧ (peerWriteData n b p).cgram = memWrite p.cgram a b := by
  simp only [peerWriteData, h, and_self]

/-- Settles O48: one write of one byte, stored in the RAM the counter points into. -/
theorem peerStoresADataByte : Obligations.PeerStoresADataByte := by
  intro b i s h hp hi
  obtain ⟨n, e⟩ := busWriteBytes_peerData b s h.idle hp
  refine ⟨_, SendsDataByte.next hi h, ?_⟩
  rw [returning_peer, e]
  refine ⟨peerWriteData_paired n b s.peer, fun a ha => ?_, fun a ha => ?_, fun hs => ?_⟩
  · obtain ⟨hcgram, hddram⟩ := peerWriteData_ddram n b ha
    refine ⟨hcgram, fun hst => ?_⟩
    rw [hddram hst]
    exact ⟨memRead_memWrite _ a b, memRead_memWrite_ne _ a b⟩
  · obtain ⟨hddram, hcgram⟩ := peerWriteData_cgram n b ha
    rw [hcgram]
    exact ⟨hddram, memRead_memWrite _ a b, memRead_memWrite_ne _ a b⟩
  · rw [peerWriteData_regs, acAfterAccess_stated n _ hs]
    rfl

/-! ## Reads -/

/-- Settles O49: the frames of a read are whole bytes read, none of which stores anything. -/
theorem readsLeaveTheRams : Obligations.ReadsLeaveTheRams := by
  intro count s h hp
  have status (k : Nat) : (busReadBytes .command k s).2.peer = s.peer :=
    status_run k _ _ hp (busReadBytes_peer .command k s)
  obtain ⟨hsync, hddram, hcgram, -, hregs⟩ := data_read_run count _ _ hp (busReadBytes_peer .data count s)
  refine ⟨⟨_, exec_of_guard h.guard, status count⟩, ⟨_, exec_of_guard h.guard, status 1⟩,
    _, exec_of_guard h.guard, hsync, hddram, hcgram, ?_⟩
  rintro _ rfl hst
  exact hregs hst

end Sys2Proof.Machine
end

section
/-! SUPPORT. O52: where the text of DISPLAY_WRITE lands (20_memory R52, R54, R63, 45_facade R218, R303). -/

namespace Sys2Proof.Machine

/-! ## The transactions of a text -/

/-- A command item and the data items after it are a transaction each, the second only if there are data items (R203). -/
theorem emitItems_command_data (c : Byte) (bs : List Byte) (s : State) :
    emitItems ((.command, c) :: bs.map fun b => (.data, b)) s = busWriteBytes .data bs (busWriteBytes .command [c] s) := by
  cases bs with
  | nil => rw [busWriteBytes_nil, List.map_nil, emitItems_one]
  | cons b bs =>
    rw [← emitItems_map .data (b :: bs)]
    exact emitItems_cut .command .data (by decide) b (bs.map fun b => (.data, b)) [c] s

/-- DISPLAY_WRITE of a text short enough: the clear, then the items of the text (R218). -/
theorem displayWrite_next {text : List Byte} (hl : text.length ≤ 32) {s : State} (h : AbleIdle s) :
    exec (.displayWrite text) s = .next (s |> writeCommand cmdClear |> emitItems (interpret text) |> returning .nothing) :=
  exec_next.mpr ⟨h.content, if_neg (Nat.not_lt.mpr hl)⟩

theorem writeCommand_clear_peer {s : State} (h : s.phase = .idle) (hp : s.peer.sync = .paired) :
    (writeCommand cmdClear s).peer = { s.peer with ddram := [] }.atDdram 0 := by
  obtain ⟨n, e⟩ := busWriteBytes_peerCommand cmdClear s h hp
  rw [writeCommand, e, peerCommand_clear]

theorem busWriteBytes_jumpLine2_peer {s : State} (h : s.phase = .idle) (hp : s.peer.sync = .paired) :
    (busWriteBytes .command [cmdJumpLine2] s).peer = s.peer.atDdram 0x40 := by
  obtain ⟨n, e⟩ := busWriteBytes_peerCommand cmdJumpLine2 s h hp
  rw [e, cmdJumpLine2_eq, peerCommand_setDdramAddr]

/-! ## A line of text at the peer -/

/-- What bytes written after the clear leave: the k-th in cell k, no other cell known (R52, R54, R303). -/
structure HoldsText (p q : Peer) (bytes : List Byte) : Prop where
  sync : q.sync = .paired
  cells : ∀ k, memRead q.ddram k = bytes[k]?
  cgram : q.cgram = p.cgram
  regs : q.regs = { p.regs with ac := q.regs.ac, ram := .ddram }
  counter : bytes.length < 32 → q.regs.ac = BitVec.ofNat 7 bytes.length

theorem holdsText_of_frames {bytes : List Byte} {p q : Peer} (hc : p.regs.cursorRight = true) (hl : bytes.length ≤ 32)
    (h : PeerFrames true false (nibblesOf bytes) ({ p with ddram := [] }.atDdram 0) q) : HoldsText p q bytes := by
  have h0 : ({ p with ddram := [] }.atDdram 0).regs.ac.toNat = 0 := rfl
  obtain ⟨hsync, hcgram, hin, hout, hregs, hac⟩ :=
    ddram_run bytes ({ p with ddram := [] }.atDdram 0) q rfl hc rfl (by omega) h
  simp only [h0, Nat.zero_add] at hin hout hac
  refine ⟨hsync, fun k => ?_, hcgram, hregs, fun hk => (hac (by omega) (by omega)).trans (BitVec.zero_add _)⟩
  by_cases hk : k < bytes.length
  · exact hin k hk
  · rw [hout k (.inr (by omega)), List.getElem?_eq_none (by omega)]
    rfl

/-- Bytes written from the start of the second line on land there, and nothing below it changes (R52, R54). -/
theorem secondLine_of_frames {bytes : List Byte} {p q : Peer} (hc : p.regs.cursorRight = true) (hl : bytes.length ≤ 16)
    (h : PeerFrames true false (nibblesOf bytes) (p.atDdram 0x40) q) :
    q.sync = .paired ∧ q.cgram = p.cgram ∧ (∀ k, k < 0x40 → memRead q.ddram k = memRead p.ddram k) ∧
    (∀ k, memRead p.ddram (0x40 + k) = none → memRead q.ddram (0x40 + k) = bytes[k]?) ∧
    (bytes.length < 16 → q.regs.ac = BitVec.ofNat 7 (0x40 + bytes.length)) := by
  have h40 : (p.atDdram 0x40).regs.ac.toNat = 0x40 := rfl
  obtain ⟨hsync, hcgram, hin, hout, -, hac⟩ := ddram_run bytes (p.atDdram 0x40) q rfl hc rfl (by omega) h
  rw [h40] at hin hout hac
  refine ⟨hsync, hcgram, fun k hk => hout k (.inl hk), fun k hk => ?_, fun hk => ?_⟩
  · by_cases hlt : k < bytes.length
    · exact hin k hlt
    · rw [hout _ (.inr (by omega)), List.getElem?_eq_none (by omega)]
      exact hk
  · rw [hac (by omega) (by omega), BitVec.ofNat_add]
    rfl

/-- The clear and the data bytes after it, up to the 32 a text can have. -/
theorem clear_then_data {bytes : List Byte} {s : State} (h : s.phase = .idle) (hp : s.peer.sync = .paired)
    (hc : s.peer.regs.cursorRight = true) (hl : bytes.length ≤ 32) :
    (busWriteBytes .data bytes (writeCommand cmdClear s)).phase = .idle ∧
    HoldsText s.peer (busWriteBytes .data bytes (writeCommand cmdClear s)).peer bytes := by
  have hi : (writeCommand cmdClear s).phase = .idle := (busWriteBytes_idle .command [cmdClear] s h).phase
  have hf := busWriteBytes_peer .data bytes _ hi
  rw [writeCommand_clear_peer h hp] at hf
  exact ⟨(busWriteBytes_idle .data bytes _ hi).phase, holdsText_of_frames hc hl hf⟩

/-- Settles O52: one run from cell 0, or that run, JUMP_LINE2 and a second run from cell 0x40. -/
theorem textLandsInDdram : Obligations.TextLandsInDdram := by
  intro text s h hp hc hl
  have hlen := interpret_length text
  refine ⟨fun bytes hi => ⟨_, displayWrite_next hl h, ?_⟩, fun first second hs hi => ⟨_, displayWrite_next hl h, ?_⟩⟩
  · rw [hi, List.length_map] at hlen
    rw [returning_peer, hi, emitItems_map]
    obtain ⟨-, line⟩ := clear_then_data h.idle hp hc (Nat.le_trans hlen hl)
    exact ⟨line.sync, line.cells, line.cgram, line.regs, line.counter⟩
  · have hfirst : first.length ≤ 32 := by
      simp only [hi, List.length_append, List.length_cons, List.length_map] at hlen
      omega
    rw [returning_peer, hi, emitItems_cut .data .command (by decide), emitItems_command_data]
    obtain ⟨hidle, line⟩ := clear_then_data h.idle hp hc hfirst
    generalize busWriteBytes .data first (writeCommand cmdClear s) = u at hidle line ⊢
    have hf := busWriteBytes_peer .data second _ (busWriteBytes_idle .command [cmdJumpLine2] u hidle).phase
    rw [busWriteBytes_jumpLine2_peer hidle line.sync] at hf
    obtain ⟨hsync, hcgram, hbelow, habove, hac⟩ := secondLine_of_frames (by rw [line.regs]; exact hc) hs hf
    refine ⟨hsync, fun k hk => (hbelow k hk).trans (line.cells k), fun k => habove k ?_, hcgram.trans line.cgram, hac⟩
    rw [line.cells, List.getElem?_eq_none (by omega)]

end Sys2Proof.Machine
end

section
/-! SUPPORT. O1: the decoder reads the calls of the encoder (30_encoding R80, R81, R93, R96, R100). -/

namespace Sys2Proof

/-! ## The layers of the call form -/

theorem decode_encodeCommand (cmd : Command) (rest : List Byte) :
    decode (encodeCommand cmd ++ rest) = .ok (cmd.toInstr, rest) :=
  decode_command cmd.toByte cmd rest (decodeCommand_toByte cmd)

/-- The byte of a BUS4 call: layer 2, then the frame `s w n` (R93). -/
theorem encodeFrame_eq (s w : Bool) (n : Nibble) :
    encodeFrame s w n = [0b10#2 ++ (BitVec.ofBool s ++ BitVec.ofBool w ++ n)] := by
  revert s w n
  decide

theorem decode_frame (f : BitVec 6) (rest : List Byte) :
    decode ((0b10#2 ++ f) :: rest) = .ok (decodeFrame f, rest) := by
  have layer : (BitVec.extractLsb' 6 2 (0b10#2 ++ f)).toNat = 2 := by
    rw [BitVec.extractLsb'_append_eq_left]
    rfl
  have word : (0b10#2 ++ f : BitVec 8).setWidth 6 = f := BitVec.setWidth_append_eq_right
  simp only [decode, layer, word]

/-- The row of R93 with these RS and RW. -/
def frameRow : Bool → Bool → Nibble → Instr
  | false, false => .nibWrCmd
  | true, false => .nibWrData
  | false, true => .nibRdCmd
  | true, true => .nibRdData

theorem decodeFrame_fields (s w : Bool) (n : Nibble) :
    decodeFrame (BitVec.ofBool s ++ BitVec.ofBool w ++ n) = frameRow s w n := by
  revert s w n
  decide

theorem decode_encodeFrame (s w : Bool) (n : Nibble) (rest : List Byte) :
    decode (encodeFrame s w n ++ rest) = .ok (frameRow s w n, rest) := by
  rw [encodeFrame_eq, ← decodeFrame_fields]
  exact decode_frame _ rest

theorem decode_txtGlyph (d : BitVec 3) (rest : List Byte) :
    decode (encode (.txtGlyph d) ++ rest) = .ok (.txtGlyph d, rest) := by
  have form : ∀ d : BitVec 3, decodeTextForm [0x60#8, 0x30#8 ||| d.setWidth 8] = some (.txtGlyph d) := by decide
  simp [encode, decode, takeBytes, form]

/-- A byte that no earlier row of R96 matches is its own text form. -/
theorem decodeTextForm_verbatim {c : Byte} (h : textSpecial c = false) : decodeTextForm [c] = some (.txtVerbatim c) := by
  simp only [textSpecial, Bool.or_eq_false_iff, beq_eq_false_iff_ne] at h
  simp only [decodeTextForm, h, if_false]

/-! ## The operations -/

theorem fits16_iff {n : Nat} : fits16 n = true ↔ n < 65536 := by
  simp [fits16]

theorem fits16_and_iff {m n : Nat} : (fits16 m && fits16 n) = true ↔ m < 65536 ∧ n < 65536 := by
  simp [fits16]

/-- An OP call is read back when `decodeOp` reads back its operands. -/
theorem decode_encodeOp (code : Nat) (h : code < 64) {operands rest : List Byte} {i : Instr}
    (hop : decodeOp code (operands ++ rest) = .ok (i, rest)) :
    decode (opByte code :: operands ++ rest) = .ok (i, rest) :=
  (decode_op code h (operands ++ rest)).trans hop

/-- Settles O1: an instruction of each layer by the lemma of its layer, an operation by its select code and the parsers of
its operands. -/
theorem decodeInvertsEncode : Obligations.DecodeInvertsEncode := by
  intro i rest h
  cases i with
  | clear => exact decode_encodeCommand .clear rest
  | home => exact decode_encodeCommand .home rest
  | entryMode r s => exact decode_encodeCommand (.entryMode r s) rest
  | displayControl d c b => exact decode_encodeCommand (.displayControl d c b) rest
  | shift w t x => exact decode_encodeCommand (.shift w t x) rest
  | functionSet l n f x => exact decode_encodeCommand (.functionSet l n f x) rest
  | setCgramAddr a => exact decode_encodeCommand (.setCgramAddr a) rest
  | setDdramAddr a => exact decode_encodeCommand (.setDdramAddr a) rest
  | jumpLine2 => rfl
  | nibWrCmd n => exact decode_encodeFrame false false n rest
  | nibWrData n => exact decode_encodeFrame true false n rest
  | nibRdCmd n => exact decode_encodeFrame false true n rest
  | nibRdData n => exact decode_encodeFrame true true n rest
  | txtNewline | txtDropTab | txtDropVt | txtDropFf | txtDropCr | txtSpace | txtEscapeFailed =>
    exact decode_text _ _ rest (by rfl)
  | txtVerbatim c => exact decode_text c _ rest (decodeTextForm_verbatim (by simpa [Instr.wf] using h))
  | txtGlyph d => exact decode_txtGlyph d rest
  | endTransaction | sampleNibble | configure | readStatus | init | enable | reset =>
    exact decode_op _ (by decide) rest
  | beginTransaction | continueTransaction | setDataDirection | encEntryMode | encDisplayControl | encFunctionSet
  | encShift | toggleFeatures | setBacklight =>
    exact decode_encodeOp _ (by decide) (by simp [decodeOp, takeLow_flag1, takeLow_flag2, takeLow_flag3])
  | driveNibble | pinWrite | pinRead | writeCommand | setAddressCounter =>
    exact decode_encodeOp _ (by decide) (by simp [decodeOp, takeNibble_cons, takeRole_cons, takeAddr_cons, takeLow_flag1])
  | busWriteNibble reg n t =>
    exact decode_encodeOp _ (by decide) (by simp [decodeOp, takeNibble_cons, takeLow_flag2])
  | busReadBytes reg n =>
    have hn := fits16_iff.mp h
    exact decode_encodeOp _ (by decide) (by simp [decodeOp, takeNat_le16 hn, takeLow_flag1])
  | readBytes n a f =>
    have hn := fits16_iff.mp h
    exact decode_encodeOp _ (by decide) (by simp [decodeOp, takeNat_le16 hn, takeAddr_cons, takeLow_flag1])
  | busWriteBytes reg bs =>
    have hl := fits16_iff.mp h
    exact decode_encodeOp _ (by decide) (by simp [decodeOp, takeLow_flag1, takeList_encodeList hl])
  | displayWrite text | displayAppend text =>
    have hl := fits16_iff.mp h
    exact decode_encodeOp _ (by decide) (by simp [decodeOp, takeList_encodeList hl])
  | writeBytesRaw data n | writeBytesText data n =>
    obtain ⟨hl, hn⟩ := fits16_and_iff.mp h
    exact decode_encodeOp _ (by decide) (by simp [decodeOp, takeLow_flag1, takeList_encodeList hl, takeNat_le16 hn])
  | addCustomGlyph g slot =>
    have hs := fits16_iff.mp h
    exact decode_encodeOp _ (by decide) (by simp [decodeOp, takeGlyph_rows, takeNat_le16 hs])
  | setCursor x y =>
    obtain ⟨hx, hy⟩ := fits16_and_iff.mp h
    exact decode_encodeOp _ (by decide) (by simp [decodeOp, takeNat_le16 hx, takeNat_le16 hy])

end Sys2Proof
end

section
/-! SUPPORT. O2, O3, O4: command bytes and their fields, and words written out from the spec (30_encoding R81 to R92). -/

namespace Sys2Proof.Machine

/-- A flag byte has its flag at its bit and nothing else. -/
theorem flagAt_getElem (k : Nat) (b : Bool) (i : Nat) (hi : i < 8) : (flagAt k b)[i] = (decide (i = k) && b) := by
  cases b
  · simp [flagAt]
  · by_cases h : i = k
    · simp [flagAt, h]
    · have h' : i < k ∨ i - k ≠ 0 := by omega
      rcases h' with h' | h' <;> simp [flagAt, h, h']

/-- Two bytes with the same eight bits are the same. -/
theorem byte_ext {x y : Byte} (h0 : x.getLsbD 0 = y.getLsbD 0) (h1 : x.getLsbD 1 = y.getLsbD 1)
    (h2 : x.getLsbD 2 = y.getLsbD 2) (h3 : x.getLsbD 3 = y.getLsbD 3) (h4 : x.getLsbD 4 = y.getLsbD 4)
    (h5 : x.getLsbD 5 = y.getLsbD 5) (h6 : x.getLsbD 6 = y.getLsbD 6) (h7 : x.getLsbD 7 = y.getLsbD 7) : x = y := by
  apply BitVec.eq_of_getLsbD_eq
  intro i hi
  have h8 : i = 0 ∨ i = 1 ∨ i = 2 ∨ i = 3 ∨ i = 4 ∨ i = 5 ∨ i = 6 ∨ i = 7 := by omega
  rcases h8 with rfl | rfl | rfl | rfl | rfl | rfl | rfl | rfl <;> assumption

/-- A byte whose bits 7 to 2 are clear is 0x00 or 0x03, but for the bytes of CLEAR and HOME (R92). -/
theorem unlisted_of_low {c : Byte} (h7 : ¬c.getLsbD 7 = true) (h6 : ¬c.getLsbD 6 = true) (h5 : ¬c.getLsbD 5 = true)
    (h4 : ¬c.getLsbD 4 = true) (h3 : ¬c.getLsbD 3 = true) (h2 : ¬c.getLsbD 2 = true) (hhome : ¬c = 0x02)
    (hclear : ¬c = 0x01) : c = 0x00 ∨ c = 0x03 := by
  have low : (c.setWidth 2).setWidth 8 = c := by
    apply byte_ext <;> simp_all
  have two : ∀ x : BitVec 2, ¬x.setWidth 8 = 0x02#8 → ¬x.setWidth 8 = 0x01#8 →
      x.setWidth 8 = 0x00#8 ∨ x.setWidth 8 = 0x03#8 := by decide
  have hc := two (c.setWidth 2)
  rw [low] at hc
  exact hc hhome hclear

/-- What decoding a byte may answer: a command of which it is the byte, or nothing for the two bytes of R92. -/
inductive DecodesTo (c : Byte) : Option Command → Prop
  | command (cmd : Command) : cmd.toByte = c → DecodesTo c (some cmd)
  | unlisted : c = 0x00 ∨ c = 0x03 → DecodesTo c none

/-- The tests of `decodeCommand` from the top; in the six categories with operands the two bytes are compared bit by bit. -/
theorem decodeCommand_decodesTo (c : Byte) : DecodesTo c (decodeCommand c) := by
  unfold decodeCommand
  repeat' split
  iterate 6 exact .command _ (by apply byte_ext <;> simp_all [Command.toByte, flagAt_getElem])
  · next hhome => exact .command _ hhome.symm
  · next hclear => exact .command _ hclear.symm
  · next h7 h6 h5 h4 h3 h2 hhome hclear => exact .unlisted (unlisted_of_low h7 h6 h5 h4 h3 h2 hhome hclear)

theorem toByte_of_decodeCommand {c : Byte} {cmd : Command} (h : decodeCommand c = some cmd) : cmd.toByte = c := by
  have hc := decodeCommand_decodesTo c
  rw [h] at hc
  cases hc with
  | command _ e => exact e

theorem decodeCommand_eq_none {c : Byte} : decodeCommand c = none ↔ c = 0x00 ∨ c = 0x03 := by
  constructor
  · intro h
    have hc := decodeCommand_decodesTo c
    rw [h] at hc
    cases hc with
    | unlisted e => exact e
  · rintro (rfl | rfl) <;> rfl

/-- Settles O2: a decoded command's byte is the byte it was decoded from, and each builder makes the byte of its command. -/
theorem commandByteRoundTrip : Obligations.CommandByteRoundTrip := by
  refine ⟨decodeCommand_toByte, fun _ _ => toByte_of_decodeCommand, fun _ => decodeCommand_eq_none,
    fun a b c => ⟨?_, ?_, ?_, ?_⟩⟩
  · exact decodeCommand_toByte (.entryMode a b)
  · exact decodeCommand_toByte (.displayControl a b c)
  · have e : encodeFunctionSet a b c = (Command.functionSet a b c 0).toByte := (BitVec.or_zero ..).symm
    rw [e, decodeCommand_toByte]
  · have e : encodeShift a b = (Command.shift a b 0).toByte := (BitVec.or_zero ..).symm
    rw [e, decodeCommand_toByte]

/-- A bit the mask keeps is the bit of the match (R82). -/
theorem getLsbD_of_mask {c m v : Byte} (h : c &&& m = v) (k : Nat) (hm : m.getLsbD k = true) :
    c.getLsbD k = v.getLsbD k := by
  rw [← h, BitVec.getLsbD_and, hm, Bool.and_true]

/-- Settles O3: each mask fixes the bits `decodeCommand` tests down to the category's own. -/
theorem commandCategories : Obligations.CommandCategories := by
  intro c
  have whole (v : Byte) (h : c &&& 0xFF = v) : c = v := (BitVec.and_allOnes (x := c)).symm.trans h
  refine ⟨fun h => ?_, fun h => ?_, fun h => ?_, fun h => ?_, fun h => ?_, fun h => ?_, fun h => ?_, fun h => ?_,
    fun h => ?_, fun h => ?_⟩
  · have bit := getLsbD_of_mask h
    rw [decodeCommand, bit 7 rfl]
    rfl
  · have bit := getLsbD_of_mask h
    rw [decodeCommand, bit 7 rfl, bit 6 rfl]
    rfl
  · have bit := getLsbD_of_mask h
    rw [decodeCommand, bit 7 rfl, bit 6 rfl, bit 5 rfl]
    rfl
  · have bit := getLsbD_of_mask h
    rw [decodeCommand, bit 7 rfl, bit 6 rfl, bit 5 rfl, bit 4 rfl]
    rfl
  · have bit := getLsbD_of_mask h
    rw [decodeCommand, bit 7 rfl, bit 6 rfl, bit 5 rfl, bit 4 rfl, bit 3 rfl]
    rfl
  · have bit := getLsbD_of_mask h
    rw [decodeCommand, bit 7 rfl, bit 6 rfl, bit 5 rfl, bit 4 rfl, bit 3 rfl, bit 2 rfl]
    rfl
  · rw [whole _ h]
    rfl
  · rw [whole _ h]
    rfl
  · rw [whole _ h]
    rfl
  · obtain rfl | rfl := h <;> rfl

/-- Settles O4: the decoder evaluated on each word. -/
theorem specWordsDecode : Obligations.SpecWordsDecode :=
  ⟨rfl, rfl, rfl, rfl, rfl, rfl, rfl, rfl, rfl, rfl, rfl, rfl, rfl, rfl⟩

end Sys2Proof.Machine
end

section
/-! SUPPORT. O6: the stops of a step that are the model's choice (60_exceptions R258, R261; logs 1 and 16). -/

namespace Sys2Proof.Machine

/-- Settles O6: the three branches of `step` that run no call. -/
theorem stopsTheModelChooses : Obligations.StopsTheModelChooses := by
  refine ⟨fun s hc hf => ?_, fun s c hc hf => ?_, fun s e hc he => ?_⟩
  · simp only [step, hc, hf]
  · simp only [step, hc, hf]
  · unfold step
    split
    · next hnil => exact absurd hnil hc
    · rw [he]

end Sys2Proof.Machine
end

section
/-! SUPPORT. O20: the command rows as transactions (30_encoding R83 to R91, 42_command_encoder R163). -/

namespace Sys2Proof.Machine

/-! ## The bytes, bit by bit -/

theorem entryMode_toByte (r s : Bool) :
    (Command.entryMode r s).toByte = 0b000001#6 ++ BitVec.ofBool r ++ BitVec.ofBool s := by
  revert r s
  decide

theorem displayControl_toByte (d c b : Bool) :
    (Command.displayControl d c b).toByte = 0b00001#5 ++ BitVec.ofBool d ++ BitVec.ofBool c ++ BitVec.ofBool b := by
  revert d c b
  decide

theorem shift_toByte (w m : Bool) (x : BitVec 2) :
    (Command.shift w m x).toByte = 0b0001#4 ++ BitVec.ofBool w ++ BitVec.ofBool m ++ x := by
  revert w m x
  decide

theorem functionSet_toByte (l n f : Bool) (x : BitVec 2) :
    (Command.functionSet l n f x).toByte = 0b001#3 ++ BitVec.ofBool l ++ BitVec.ofBool n ++ BitVec.ofBool f ++ x := by
  revert l n f x
  decide

theorem setCgramAddr_toByte (a : BitVec 6) : (Command.setCgramAddr a).toByte = 0b01#2 ++ a := by
  revert a
  decide

theorem setDdramAddr_toByte (a : BitVec 7) : (Command.setDdramAddr a).toByte = 0b1#1 ++ a := by
  revert a
  decide

/-! ## The transaction -/

/-- A command row writes its byte to the command register (R116, R163). -/
theorem command_wrote (cmd : Command) {b : Byte} (hb : cmd.toByte = b) {s : State} (h : AbleIdle s) :
    ∃ t, exec cmd.toInstr s = .next t ∧ Wrote s t .command [b] := by
  refine ⟨s |> writeCommand b |> returning .nothing, ?_, (busWriteBytes_idle .command [b] s h.idle).returning _⟩
  rw [exec_toInstr, execCommand, h.guard, guarded_none, hb]

/-- Settles O20: `command_wrote` for each row, with its byte written out. -/
theorem commandRowsDeliverTheirByte : Obligations.CommandRowsDeliverTheirByte := by
  intro s h
  refine ⟨command_wrote .clear rfl h, command_wrote .home rfl h,
    fun r sh => command_wrote _ (entryMode_toByte r sh) h,
    fun d c b => command_wrote _ (displayControl_toByte d c b) h,
    fun w m x => command_wrote _ (shift_toByte w m x) h,
    fun l n f x => command_wrote _ (functionSet_toByte l n f x) h,
    fun a => command_wrote _ (setCgramAddr_toByte a) h,
    fun a => command_wrote _ (setDdramAddr_toByte a) h, ?_⟩
  rw [exec_jumpLine2]
  exact command_wrote (.setDdramAddr 0x40) rfl h

end Sys2Proof.Machine
end

section
/-! SUPPORT. O21, O22: the nibble frames as transactions of one cycle (30_encoding R93, 40_bus_engine R115, R118, R121). -/

namespace Sys2Proof.Machine

/-- A nibble cycle of its own from `Idle`, closed again (R118); the peer's part is left open. -/
theorem busWriteNibble_idle (reg : Reg) (v : Nibble) {s : State} (h : s.phase = .idle) :
    ∃ p n, returning .nothing (busWriteNibble reg v true s) = { s with
      pin := latchesAfterWrite s.pin reg false v, dir := .output
      trace := s.trace ++ nibbleWriteEvents s.cfg reg v ++ endEvents s.cfg
      delivered := s.delivered ++ [⟨reg, false, .nibble v⟩], lone := false
      result := .nothing, peer := p, draws := n } := by
  refine ⟨(busWriteNibble reg v true s).peer, (busWriteNibble reg v true s).draws, ?_⟩
  rw [busWriteNibble_eq, h]
  rfl

/-- The one frame of a lone nibble written (R118, R121). -/
theorem framesFrom_nibbleWrite (c : Config) (reg : Reg) (v : Nibble) (p seen : Pins) :
    framesFrom p seen (nibbleWriteEvents c reg v ++ endEvents c) = [frame reg.isData false v] := by
  rw [nibbleWriteEvents, List.append_assoc, List.append_assoc, framesFrom_direction, framesFrom_begin, framesFrom_nibble,
    ← List.append_nil (endEvents c), framesFrom_end _ _ _ _ rfl, frameOf_write]
  rfl

/-- Settles O21: each row is the nibble cycle of `busWriteNibble_idle`, and its events hold one frame. -/
theorem writeFramesReachThePins : Obligations.WriteFramesReachThePins := by
  intro v s h
  obtain ⟨p, n, hcmd⟩ := busWriteNibble_idle .command v h.idle
  obtain ⟨q, m, hdata⟩ := busWriteNibble_idle .data v h.idle
  exact ⟨⟨p, n, exec_next.mpr ⟨h.guard, hcmd⟩⟩, ⟨q, m, exec_next.mpr ⟨h.guard, hdata⟩⟩,
    framesFrom_nibbleWrite s.cfg .command v s.pin s.pin, framesFrom_nibbleWrite s.cfg .data v s.pin s.pin⟩

/-- A read of one nibble cycle from `Idle` (R93); the peer's part is left open. -/
theorem busReadNibble_idle (reg : Reg) (v : Nibble) {s : State} (h : s.phase = .idle) :
    ∃ p n, returning (.nibble (busReadNibble reg v s).1) (busReadNibble reg v s).2 = { s with
      pin := { s.pin with rs := .held reg.isData, rw := .held true, e := .held false }, dir := .input
      trace := s.trace ++ directionEvents .input ++ beginEvents s.cfg reg true ++ sampleEvents v ++ endEvents s.cfg
      delivered := s.delivered ++ [⟨reg, true, .nibble v⟩], lone := false
      result := .nibble v, peer := p, draws := n } := by
  obtain ⟨hv, p, n, e⟩ := busReadNibble_eq reg v s
  refine ⟨p, n, ?_⟩
  rw [hv, e, h]
  rfl

/-- Settles O22: each row is the read of `busReadNibble_idle`. -/
theorem readFramesReturnTheNibble : Obligations.ReadFramesReturnTheNibble := by
  intro v s h
  obtain ⟨p, n, hcmd⟩ := busReadNibble_idle .command v h.idle
  obtain ⟨q, m, hdata⟩ := busReadNibble_idle .data v h.idle
  exact ⟨⟨p, n, exec_next.mpr ⟨h.guard, hcmd⟩⟩, ⟨q, m, exec_next.mpr ⟨h.guard, hdata⟩⟩⟩

end Sys2Proof.Machine
end

section
/-! SUPPORT. O60: the block never acts on what the environment answers (20_memory R57, 40_bus_engine R123). -/

namespace Sys2Proof.Machine

/-- Two outcomes agree on the block: both stop by the same name, or both go on in agreeing states. -/
inductive SameOutcome : Host.Outcome State Fault Refusal → Host.Outcome State Fault Refusal → Prop
  | next {s t : State} : SameBlock s t → SameOutcome (.next s) (.next t)
  | fault (f : Fault) : SameOutcome (.fault f) (.fault f)
  | refused (r : Refusal) : SameOutcome (.refused r) (.refused r)

namespace SameOutcome

variable {a b : Host.Outcome State Fault Refusal} (h : SameOutcome a b)
include h

theorem refused_of_refused (r : Refusal) (ha : a = .refused r) : b = .refused r := by
  cases h with
  | refused => exact ha
  | next | fault => cases ha

theorem fault_of_fault (f : Fault) (ha : a = .fault f) : b = .fault f := by
  cases h with
  | fault => exact ha
  | next | refused => cases ha

theorem next_of_next {s : State} (ha : a = .next s) : ∃ t, b = .next t ∧ SameBlock s t := by
  cases h with
  | next hst => cases ha; exact ⟨_, rfl, hst⟩
  | fault | refused => cases ha

end SameOutcome

theorem SameBlock.withCalls {s t : State} (h : SameBlock s t) (c : List Byte) :
    SameBlock { s with calls := c } { t with calls := c } :=
  ⟨h.trace, h.delivered, h.pin, h.dir, h.phase, h.life, h.fault, h.domains, h.cfg, rfl, h.lone, h.result⟩

/-- States that differ only in the environment agree. -/
theorem SameBlock.of_environment (s : State) (w : List Level) (n : Nat) (p : Peer) :
    SameBlock s { s with wire := w, draws := n, peer := p } :=
  ⟨rfl, rfl, rfl, rfl, rfl, rfl, rfl, rfl, rfl, rfl, rfl, rfl⟩

/-- A call whose guard passes has an admitted configuration (R7). -/
theorem configWf_of_guardOf {i : Instr} {s : State} (h : guardOf i s = none) : configWf s.cfg = true := by
  obtain ⟨-, -, hw, -⟩ := guardOf_none h
  exact hw

/-- CONFIGURE hands nothing back itself. -/
theorem configure_result {s : State} (hw : configWf s.cfg = true) : (configure s).result = s.result := by
  rcases firstReserved s.cfg (configuredRoles s.cfg) with hr | ⟨before, r, after, e, h1, h2⟩
  · rw [configure_ok s hw hr]
  · rw [configure_reserved s hw before after r e h1 h2]

section
variable {s t : State} (h : SameBlock s t)
include h

/-- Nothing handed back on either side. -/
theorem SameBlock.returningNothing : SameBlock (Machine.returning .nothing s) (Machine.returning .nothing t) := h.returning rfl

theorem SameBlock.writeCommand (c : Byte) : SameBlock (writeCommand c s) (writeCommand c t) := h.busWriteBytes _ _

theorem SameBlock.setAddressCounter (a : BitVec 7) (f : Bool) :
    SameBlock (setAddressCounter a f s) (setAddressCounter a f t) := h.writeCommand _

theorem SameBlock.emitItems (items : List Item) : SameBlock (emitItems items s) (emitItems items t) :=
  SameBlock.emitRuns _ h

theorem SameBlock.readBytes (n : Nat) (a : BitVec 7) (f : Bool) :
    SameBlock (readBytes n a f s).2 (readBytes n a f t).2 := (h.setAddressCounter a f).busReadBytes _ _

/-- Reads of the same number of bytes hand back the same, once the values are erased. -/
theorem SameBlock.returningBytes {bs bs' : List Byte} (hl : bs'.length = bs.length) :
    SameBlock (Machine.returning (.bytes bs) s) (Machine.returning (.bytes bs') t) :=
  h.returning (by simp only [Returned.shape, List.map_const', hl])

end

/-- What each instruction does keeps the agreement, by the shared operation it is made of. -/
theorem SameBlock.effectOf {s t : State} (h : SameBlock s t) (hw : configWf s.cfg = true) (i : Instr) :
    SameBlock (effectOf i s) (effectOf i t) := by
  cases i with
  | clear | home | entryMode | displayControl | shift | functionSet | setCgramAddr | setDdramAddr | jumpLine2
  | writeCommand | toggleFeatures | reset => exact (h.writeCommand _).returningNothing
  | setAddressCounter => exact (h.setAddressCounter _ _).returningNothing
  | busWriteBytes | writeBytesRaw => exact (h.busWriteBytes _ _).returningNothing
  | nibWrCmd | nibWrData | busWriteNibble => exact (h.busWriteNibble _ _ _).returningNothing
  | nibRdCmd | nibRdData => exact (h.busReadNibble _ _).returning rfl
  | txtNewline | txtGlyph | txtDropTab | txtDropVt | txtDropFf | txtDropCr | txtSpace | txtEscapeFailed | txtVerbatim
  | writeBytesText => exact (h.emitItems _).returningNothing
  | beginTransaction => exact (h.beginTransaction _ _).returningNothing
  | continueTransaction => exact (h.continueTransaction _).returningNothing
  | endTransaction => exact h.endTransaction.returningNothing
  | driveNibble => exact (h.driveNibble _).returningNothing
  | sampleNibble => exact h.sampleNibble.returning rfl
  | busReadBytes reg n =>
    exact (h.busReadBytes reg n).returningBytes
      ((busReadBytes_length reg n t).trans (busReadBytes_length reg n s).symm)
  | readBytes n a f =>
    exact (h.readBytes n a f).returningBytes
      ((busReadBytes_length .data n _).trans (busReadBytes_length .data n _).symm)
  | readStatus => exact (h.busReadBytes .command 1).returning rfl
  | setDataDirection => exact (h.setDataDirection _).returningNothing
  | pinWrite => exact (h.writePin _ _).returningNothing
  | pinRead r => exact (h.sample r).returning rfl
  | encEntryMode | encDisplayControl | encFunctionSet | encShift => exact h.returning rfl
  | configure =>
    have k := h.configure hw
    simp only [Machine.effectOf, k.fault]
    split
    · exact k
    · exact k.returningNothing
  | init =>
    have k := h.configure hw
    simp only [Machine.effectOf, k.fault]
    split
    · exact k
    · exact (k.setDataDirection true).returningNothing.withLife _
  | enable =>
    simp only [Machine.effectOf, h.cfg]
    exact (h.wakeRitual.busWriteBytes _ _).returningNothing.withLife _
  | displayWrite text =>
    simp only [Machine.effectOf]
    split
    · exact h.abort _
    · exact ((h.writeCommand _).emitItems _).returningNothing
  | displayAppend text =>
    simp only [Machine.effectOf]
    split
    · exact h.abort _
    · exact (h.emitItems _).returningNothing
  | addCustomGlyph g slot =>
    simp only [Machine.effectOf]
    split
    · exact h.abort _
    · exact ((h.setAddressCounter _ _).busWriteBytes _ _).returningNothing
  | setCursor x y =>
    simp only [Machine.effectOf]
    split
    · exact h.abort _
    · exact (h.setAddressCounter _ _).returningNothing
  | setBacklight on =>
    simp only [Machine.effectOf, h.cfg]
    split
    · exact (h.drive _ _).returningNothing
    · exact h.returningNothing

/-- The five operations that return what they sample. -/
def returnsSamples : Instr → Prop
  | .sampleNibble | .pinRead _ | .busReadBytes _ _ | .readBytes _ _ _ | .readStatus => True
  | _ => False

/-- Every other operation hands back the same, and an aborted one what stood there before (log 16). -/
theorem SameBlock.effectOf_result {s t : State} (h : SameBlock s t) (hw : configWf s.cfg = true)
    (hr : t.result = s.result) (i : Instr) (hi : ¬returnsSamples i) :
    (Machine.effectOf i t).result = (Machine.effectOf i s).result := by
  have hwt : configWf t.cfg = true := by rw [h.cfg]; exact hw
  cases i with
  | sampleNibble | pinRead | busReadBytes | readBytes | readStatus => exact absurd trivial hi
  | nibRdCmd n | nibRdData n =>
    simp only [Machine.effectOf, returning_result, (busReadNibble_eq _ n _).1]
  | configure | init =>
    simp only [Machine.effectOf, (h.configure hw).fault]
    split
    · rw [configure_result hw, configure_result hwt, hr]
    · rfl
  | displayWrite | displayAppend | addCustomGlyph | setCursor =>
    simp only [Machine.effectOf]
    split
    · exact hr
    · rfl
  | _ => rfl

theorem SameBlock.exec {s t : State} (h : SameBlock s t) (i : Instr) : SameOutcome (exec i s) (exec i t) := by
  rw [exec_eq, exec_eq, h.guardOf]
  cases hg : Machine.guardOf i s with
  | some r => exact .refused r
  | none => exact .next (h.effectOf (configWf_of_guardOf hg) i)

theorem SameBlock.exec_result {s t s' t' : State} {i : Instr} (h : SameBlock s t) (hr : t.result = s.result)
    (hi : ¬returnsSamples i) (hs : Machine.exec i s = .next s') (ht : Machine.exec i t = .next t') :
    t'.result = s'.result := by
  obtain ⟨hg, rfl⟩ := exec_next.mp hs
  obtain ⟨-, rfl⟩ := exec_next.mp ht
  exact h.effectOf_result (configWf_of_guardOf hg) hr i hi

theorem SameBlock.step {s t : State} (h : SameBlock s t) : SameOutcome (step s) (step t) := by
  unfold Machine.step
  rw [h.calls]
  split
  · rw [h.fault]
    split
    · exact .next h
    · exact .fault _
  · split
    · exact (h.withCalls _).exec _
    · exact .refused _

/-- Settles O60: agreement goes through every effect, so through `exec` and `step`. -/
theorem behaviourIgnoresTheEnvironment : Obligations.BehaviourIgnoresTheEnvironment := by
  refine ⟨fun s t h => ⟨fun i => (h.exec i).refused_of_refused, fun i s' hs => ?_, h.step.refused_of_refused,
    h.step.fault_of_fault, fun _ => h.step.next_of_next⟩, SameBlock.of_environment⟩
  obtain ⟨t', ht, hst⟩ := (h.exec i).next_of_next hs
  refine ⟨t', ht, hst, fun h1 h2 h3 h4 h5 hr => h.exec_result hr ?_ hs ht⟩
  intro hi
  cases i with
  | sampleNibble => exact h1 rfl
  | pinRead r => exact h2 r rfl
  | busReadBytes reg n => exact h3 reg n rfl
  | readBytes n a f => exact h4 n a f rfl
  | readStatus => exact h5 rfl
  | _ => exact hi

end Sys2Proof.Machine
end

section
/-! SUPPORT. O58: the frames of the pin trace are those of the delivered transfers (00_scope R11, 40_bus_engine R121). -/

namespace Sys2Proof.Machine

/-! ## The frames of an operation's events -/

theorem framesFrom_wait (d : Nat) (p seen : Pins) (rest : List Event) :
    framesFrom p seen (.wait d :: rest) = framesFrom p seen rest := rfl

/-- CONFIGURE drives no pin. -/
theorem framesFrom_roles (c : Config) (p seen : Pins) (rest : List Event) :
    ∀ (roles : List (PinRole × PinDescriptor)) (domains : List Nat),
      framesFrom p seen (rolesEvents c domains roles ++ rest) = framesFrom p seen rest
  | [], _ => rfl
  | (r, d) :: roles, domains => by
    have ih := framesFrom_roles c p seen rest roles (withDomain domains d.clockDomain)
    rw [rolesEvents, roleEvents, List.append_assoc, List.append_assoc]
    split <;> exact ih

/-- A lone nibble left open drops no E: no frame yet (R118). -/
theorem framesFrom_openNibble (c : Config) (reg : Reg) (v : Nibble) (p seen : Pins) (rest : List Event) :
    framesFrom p seen (nibbleWriteEvents c reg v ++ rest) = framesFrom (latchesAfterWrite p reg true v) seen rest := by
  rw [nibbleWriteEvents, List.append_assoc, List.append_assoc, framesFrom_direction, framesFrom_begin, framesFrom_nibble]
  rfl

/-- A lone nibble and its END are one frame. -/
theorem framesFrom_closedNibble (c : Config) (reg : Reg) (v : Nibble) (p seen : Pins) (rest : List Event) :
    framesFrom p seen (nibbleWriteEvents c reg v ++ (endEvents c ++ rest)) =
      frame reg.isData false v :: framesFrom (latchesAfterWrite p reg false v) seen rest := by
  rw [framesFrom_openNibble, framesFrom_end _ _ _ _ rfl]
  exact congrArg (· :: _) (frameOf_write reg.isData v (.held true) p.bl seen)

/-- A nibble read in a transaction of its own is one frame (R93). -/
theorem framesFrom_readNibble (c : Config) (reg : Reg) (v : Nibble) (p seen : Pins) :
    framesFrom p seen (directionEvents .input ++ (beginEvents c reg true ++ (sampleEvents v ++ endEvents c))) =
      [frame reg.isData true v] := by
  rw [framesFrom_direction, framesFrom_begin, framesFrom_sample, ← List.append_nil (endEvents c),
    framesFrom_end _ _ _ _ rfl, frameOf_read reg.isData v _ seen rfl rfl]
  rfl

/-- The frame that stands on the latches, which E takes when it falls from its asserted level (R121). -/
def standingFrame (p seen : Pins) : List Frame := if p.e = .held true then [frameOf p seen] else []

theorem framesFrom_dropEnable (p seen : Pins) : framesFrom p seen [.drive .e false] = standingFrame p seen := by
  simp only [framesFrom, fallingEnable_e_false, standingFrame, decide_eq_true_eq]

/-- A write that joins takes the frame on the latches, then drives its bytes (R119). -/
theorem framesFrom_join (c : Config) (reg : Reg) {bs : List Byte} (hb : bs ≠ []) {p : Pins} (seen : Pins)
    (hs : p.rs = .held reg.isData) (hw : p.rw = .held false) :
    framesFrom p seen (joinEvents c bs) = standingFrame p seen ++ bs.flatMap (byteFrames reg.isData false) := by
  obtain ⟨b, -, e⟩ := framesFrom_bytesWrite c reg.isData bs hb { p with e := .held true } seen [] hs hw rfl
  rw [List.append_nil] at e
  rw [joinEvents, List.append_assoc, framesFrom_cont_any, e, framesFrom, List.append_nil]
  rfl

/-! ## What an operation adds to the trace and to the delivered stream -/

/-- The new part of the trace has the frames of the new transfers, and no others. -/
def FramesAreTransfers (seen : Pins) (s t : State) : Prop :=
  ∃ es ts, t.trace = s.trace ++ es ∧ t.delivered = s.delivered ++ ts ∧
    framesFrom s.pin seen es = ts.flatMap transferFrames

/-- First E falls, over a lone nibble or over a frame made by hand; what follows is frames of transfers. -/
def FramesAfterFall (seen : Pins) (s t : State) : Prop :=
  ∃ es ts, t.trace = s.trace ++ es ∧ t.delivered = s.delivered ++ (owedTransfers s ++ ts) ∧
    framesFrom s.pin seen es = standingFrame s.pin seen ++ ts.flatMap transferFrames

/-- The frame E takes as it falls is the one that was owed, or nothing was owed (log 26). -/
theorem standingFrame_owed (s : State) (seen : Pins) :
    owedTransfers s = [] ∨ standingFrame s.pin seen = (owedTransfers s).flatMap transferFrames := by
  obtain h | ⟨he, h⟩ := owedTransfers_frames s seen
  · exact .inl h
  · exact .inr (by rw [h, standingFrame, if_pos he])

/-- The frames of the transfers stand among those of the trace, and are all of them if a lone nibble was owed. -/
theorem FramesAfterFall.grouped {seen : Pins} {s t : State} (h : FramesAfterFall seen s t) :
    ∃ es ts, t.trace = s.trace ++ es ∧ t.delivered = s.delivered ++ ts ∧
      (ts.flatMap transferFrames).Sublist (framesFrom s.pin seen es) ∧
      (owedTransfers s ≠ [] → framesFrom s.pin seen es = ts.flatMap transferFrames) := by
  obtain ⟨es, ts, he, ht, hf⟩ := h
  refine ⟨es, owedTransfers s ++ ts, he, ht, ?_⟩
  rw [hf]
  obtain ho | ho := standingFrame_owed s seen
  · rw [ho, List.nil_append]
    exact ⟨List.sublist_append_right _ _, fun h => absurd rfl h⟩
  · rw [ho, ← List.flatMap_append]
    exact ⟨List.Sublist.refl _, fun _ => rfl⟩

/-- Only the trace and the delivered stream matter. -/
theorem FramesAreTransfers.congr {seen : Pins} {s t u : State} (h : FramesAreTransfers seen s t)
    (ht : u.trace = t.trace) (hd : u.delivered = t.delivered) : FramesAreTransfers seen s u := by
  rw [FramesAreTransfers, ht, hd]
  exact h

/-- Events among which E does not fall, and no transfer. -/
theorem FramesAreTransfers.of_silent {seen : Pins} {s t : State} {es : List Event} (ht : t.trace = s.trace ++ es)
    (hd : t.delivered = s.delivered) (hf : framesFrom s.pin seen es = []) : FramesAreTransfers seen s t :=
  ⟨es, [], ht, by rw [hd, List.append_nil], hf⟩

theorem FramesAreTransfers.refl (seen : Pins) (s : State) : FramesAreTransfers seen s s :=
  .of_silent (List.append_nil _).symm rfl rfl

/-! ## The operations -/

section
variable (seen : Pins)

theorem emitRuns_frames {runs : List (Reg × List Byte)} {s : State} (h : s.phase = .idle)
    (hr : ∀ run ∈ runs, run.2 ≠ []) : FramesAreTransfers seen s (emitRuns runs s) := by
  obtain ⟨-, ht, hd, -⟩ := emitRuns_eq runs s h hr
  obtain ⟨q, e⟩ := framesFrom_runs s.cfg runs s.pin seen []
  rw [List.append_nil, framesFrom, List.append_nil] at e
  exact ⟨_, _, ht, hd, e⟩

/-- Whole writes, then a read: the frames of the read follow those of the writes. -/
theorem emitRuns_busReadBytes_frames {runs : List (Reg × List Byte)} {s : State} (h : s.phase = .idle)
    (hr : ∀ run ∈ runs, run.2 ≠ []) (reg : Reg) (k : Nat) :
    FramesAreTransfers seen s (busReadBytes reg k (emitRuns runs s)).2 := by
  obtain ⟨hk, ht, hd, hp, -⟩ := emitRuns_eq runs s h hr
  have hread := busReadBytes_idle reg k (emitRuns runs s) hp
  generalize (busReadBytes reg k (emitRuns runs s)).1 = bs at hread
  refine ⟨_, _, by rw [hread.trace, ht, List.append_assoc], by rw [hread.delivered, hd, List.append_assoc], ?_⟩
  obtain ⟨q, e⟩ := framesFrom_runs s.cfg runs s.pin seen (readEvents s.cfg reg bs)
  obtain ⟨q', seen', e'⟩ := framesFrom_read s.cfg reg bs q seen []
  rw [List.append_nil, framesFrom, List.append_nil] at e'
  rw [hk.cfg, e, e', List.flatMap_append, transferFrames_bytes]

theorem busWriteBytes_join_frames (reg : Reg) {bs : List Byte} (hb : bs ≠ []) {s : State}
    (h : s.phase = .active reg false) (hs : s.pin.rs = .held reg.isData) (hw : s.pin.rw = .held false) :
    FramesAfterFall seen s (busWriteBytes reg bs s) := by
  obtain ⟨p, n, e⟩ := busWriteBytes_join reg bs (bs.getLast hb) (List.getLast?_eq_some_getLast hb) s reg false h
  refine ⟨joinEvents s.cfg bs, bs.map fun b => ⟨reg, false, .byte b⟩, by rw [e], by rw [e, List.append_assoc], ?_⟩
  rw [framesFrom_join s.cfg reg hb seen hs hw, transferFrames_bytes]

theorem busWriteNibble_frames (reg : Reg) (v : Nibble) (terminate : Bool) (s : State) :
    FramesAreTransfers seen s (busWriteNibble reg v terminate s) := by
  rw [busWriteNibble_eq]
  cases terminate
  · refine .of_silent (List.append_assoc ..) rfl ?_
    exact framesFrom_openNibble s.cfg reg v s.pin seen []
  · refine ⟨nibbleWriteEvents s.cfg reg v ++ endEvents s.cfg, [⟨reg, false, .nibble v⟩], List.append_assoc .., rfl, ?_⟩
    rw [framesFrom_nibbleWrite]
    simp only [transferFrames, levelFor_rsDataLevel, levelFor_rwReadLevel, List.flatMap_cons, List.flatMap_nil, List.append_nil]

theorem busReadNibble_frames (reg : Reg) (v : Nibble) (s : State) :
    FramesAreTransfers seen s (busReadNibble reg v s).2 := by
  obtain ⟨-, p, n, e⟩ := busReadNibble_eq reg v s
  rw [e]
  refine ⟨directionEvents .input ++ (beginEvents s.cfg reg true ++ (sampleEvents v ++ endEvents s.cfg)),
    [⟨reg, true, .nibble v⟩], by simp only [List.append_assoc], rfl, ?_⟩
  rw [framesFrom_readNibble]
  simp only [transferFrames, levelFor_rsDataLevel, levelFor_rwReadLevel, List.flatMap_cons, List.flatMap_nil, List.append_nil]

theorem continueTransaction_frames (r : Bool) (s : State) : FramesAfterFall seen s (continueTransaction r s) := by
  rw [continueTransaction_eq]
  refine ⟨contEvents s.cfg r, [], rfl, by rw [List.append_nil], ?_⟩
  rw [← List.append_nil (contEvents s.cfg r), framesFrom_cont_any]
  rfl

theorem endTransaction_frames (s : State) : FramesAfterFall seen s (endTransaction s) := by
  rw [endTransaction_eq]
  refine ⟨endEvents s.cfg, [], rfl, by rw [List.append_nil], ?_⟩
  rw [List.flatMap_nil, List.append_nil, ← framesFrom_dropEnable]
  rfl

theorem dropEnable_frames (s : State) : FramesAfterFall seen s (drive .e false s) :=
  ⟨[.drive .e false], [], rfl, by simp, by rw [framesFrom_dropEnable, List.flatMap_nil, List.append_nil]⟩

/-- A write that does not drop E. -/
theorem drive_frames {r : PinRole} {v : Level} (h : dropsEnable r v = false) (s : State) :
    FramesAreTransfers seen s (drive r v s) := by
  refine .of_silent rfl (by simp [h]) ?_
  have hf : fallingEnable r v s.pin = false := by rw [fallingEnable, h, Bool.false_and]
  simp [framesFrom, hf]

/-- CONFIGURE, whether or not a reserved pin cuts it short: no pin is driven. -/
theorem configure_frames {s : State} (hw : configWf s.cfg = true) : FramesAreTransfers seen s (configure s) := by
  rcases firstReserved s.cfg (configuredRoles s.cfg) with hr | ⟨before, r, after, e, h1, h2⟩
  · rw [configure_ok s hw hr]
    refine .of_silent rfl rfl ?_
    rw [← List.append_nil (rolesEvents ..), framesFrom_roles, framesFrom]
  · rw [configure_reserved s hw before after r e h1 h2]
    refine .of_silent (List.append_assoc ..) rfl ?_
    rw [framesFrom_roles]
    rfl

/-- INIT with no reserved pin: CONFIGURE and a change of direction. -/
theorem configure_setDataDirection_frames {s : State} (hw : configWf s.cfg = true)
    (hr : ∀ r ∈ configuredRoles s.cfg, reservedPin s.cfg r = false) (i : Bool) :
    FramesAreTransfers seen s (setDataDirection i (configure s)) := by
  rw [configure_ok s hw hr, setDataDirection_eq]
  refine .of_silent (List.append_assoc ..) rfl ?_
  rw [framesFrom_roles]
  exact framesFrom_direction _ _ _ []

/-- The events of the wake ritual (R217): two closed nibbles and an open one, each after its wait. -/
def wakeEvents (c : Config) : List Event :=
  .wait (wPowerOn c) :: (nibbleWriteEvents c .command c.wakeNibble ++ (endEvents c ++
  .wait (wWake1 c) :: (nibbleWriteEvents c .command c.wakeNibble ++ (endEvents c ++
  .wait (wWake2 c) :: nibbleWriteEvents c .command c.wakeNibble))))

theorem wakeRitual_trace (s : State) : (wakeRitual s).trace = s.trace ++ wakeEvents s.cfg := by
  rw [wakeRitual_eq]
  simp only [wakeEvents, List.append_assoc, List.cons_append, List.nil_append]

/-- The two closed wakes of the ritual are two frames; the third stands on the latches (R217). -/
theorem wakeRitual_frames (s : State) :
    ∃ ts, (wakeRitual s).delivered = s.delivered ++ ts ∧
      ∀ rest, framesFrom s.pin seen (wakeEvents s.cfg ++ rest) =
        ts.flatMap transferFrames ++ framesFrom (wakeRitual s).pin seen rest := by
  rw [wakeRitual_eq]
  refine ⟨_, rfl, fun rest => ?_⟩
  simp only [wakeEvents, List.append_assoc, List.cons_append]
  rw [framesFrom_wait, framesFrom_closedNibble, framesFrom_wait, framesFrom_closedNibble, framesFrom_wait,
    framesFrom_openNibble]
  rfl

/-- The third wake is owed until the configuration write joins it (R118, R217). -/
theorem wakeRitual_owed (s : State) : owedTransfers (wakeRitual s) = [⟨.command, false, .nibble s.cfg.wakeNibble⟩] := by
  rw [wakeRitual_eq]
  exact owedTransfers_driven .command s.cfg.wakeNibble _ rfl rfl rfl rfl rfl rfl rfl rfl

/-- ENABLE: the ritual and the write that joins its last wake. -/
theorem enable_frames (s : State) {bs : List Byte} (hb : bs ≠ []) :
    FramesAreTransfers seen s (busWriteBytes .command bs (wakeRitual s)) := by
  obtain ⟨ts, ht, hf⟩ := wakeRitual_frames seen s
  have hjoin : FramesAfterFall seen (wakeRitual s) (busWriteBytes .command bs (wakeRitual s)) :=
    busWriteBytes_join_frames seen .command hb (by rw [wakeRitual_eq]) (by rw [wakeRitual_eq]; rfl)
      (by rw [wakeRitual_eq]; rfl)
  obtain ⟨es', ts', he', ht', -, hf'⟩ := hjoin.grouped
  refine ⟨wakeEvents s.cfg ++ es', ts ++ ts', by rw [he', wakeRitual_trace, List.append_assoc], by rw [ht', ht, List.append_assoc], ?_⟩
  rw [hf, hf' (by rw [wakeRitual_owed]; exact List.cons_ne_nil _ _), List.flatMap_append]

end

/-! ## Every call -/

/-- RS and RW are as the open transaction has them (R120(b)). -/
def LinesFollowPhase (s : State) : Prop :=
  ∀ reg r, s.phase = .active reg r → s.pin.rs = .held reg.isData ∧ s.pin.rw = .held r

/-- Every call adds the frames of its transfers and no others, but for those that let E fall over what stands on the latches:
inside an open transaction, or by a host's own write of E. -/
theorem exec_frames (seen : Pins) {i : Instr} {s t : State} (hl : LinesFollowPhase s) (he : exec i s = .next t) :
    FramesAreTransfers seen s t ∨
      FramesAfterFall seen s t ∧ (s.phase = .idle → ∃ v, i = .pinWrite .e v) := by
  obtain ⟨-, hw, sh⟩ := exec_shape he
  cases sh with
  | runs _ _ hr hp => exact .inl (emitRuns_frames seen hp hr)
  | reads _ _ reg n _ hr hp => exact .inl (emitRuns_busReadBytes_frames seen hp hr reg n)
  | nothing | builder => exact .inl (FramesAreTransfers.refl seen s)
  | join reg bs hb hp =>
    obtain ⟨hs, hrw⟩ := hl reg false hp
    exact .inr ⟨busWriteBytes_join_frames seen reg hb hp hs hrw, fun h => by rw [hp] at h; cases h⟩
  | nibble _ reg v terminate => exact .inl (busWriteNibble_frames seen reg v terminate s)
  | readNibble _ reg v => exact .inl (busReadNibble_frames seen reg v s)
  | beginTransaction a r =>
    refine .inl (.of_silent (es := beginEvents s.cfg (Reg.ofBool a) r) ?_ ?_ ?_)
    · rw [returning_trace, beginTransaction_eq]
    · simp
    · exact framesFrom_begin _ _ _ _ _ []
  | continueTransaction reg r hp =>
    exact .inr ⟨continueTransaction_frames seen r s, fun h => by rw [hp] at h; cases h⟩
  | endTransaction hp => exact .inr ⟨endTransaction_frames seen s, fun h => absurd h hp⟩
  | driveNibble reg v =>
    refine .inl (.of_silent (es := nibbleEvents v) ?_ ?_ ?_)
    · rw [returning_trace, driveNibble_eq]
    · simp
    · exact framesFrom_nibble _ _ _ []
  | sampleNibble reg =>
    refine .inl (.of_silent (es := sampleEvents (sampleNibble s).1) ?_ ?_ ?_)
    · rw [returning_trace, sampleNibble_eq]
    · simp
    · exact framesFrom_sample _ _ _ []
  | setDataDirection a =>
    refine .inl (.of_silent (es := directionEvents (if a then .input else .output)) ?_ ?_ ?_)
    · rw [returning_trace, setDataDirection_eq]
    · simp
    · exact framesFrom_direction _ _ _ []
  | pinWrite r v =>
    cases hd : dropsEnable r v with
    | false => exact .inl (drive_frames seen hd s)
    | true =>
      obtain ⟨rfl, rfl⟩ : r = .e ∧ v = false := by simpa [dropsEnable] using hd
      exact .inr ⟨dropEnable_frames seen s, fun _ => ⟨false, rfl⟩⟩
  | pinWriteNoLatch v => exact .inl (.of_silent (es := [.drive .bl v]) rfl rfl rfl)
  | pinRead r => exact .inl (.of_silent (es := [.sample r (wireLevel s)]) rfl rfl rfl)
  | configured => exact .inl (configure_frames seen hw)
  | reserved => exact .inl (configure_frames seen hw)
  | init _ _ hr => exact .inl ((configure_setDataDirection_frames seen hw hr true).congr rfl rfl)
  | enable => exact .inl ((enable_frames seen s (initCommands_ne_nil s.cfg)).congr rfl rfl)
  | backlight on =>
    left
    split
    · exact drive_frames seen rfl s
    · exact FramesAreTransfers.refl seen s
  | aborted _ c => exact .inl (.of_silent (es := [.abort c]) rfl rfl rfl)

/-- Settles O58: `exec_frames`; in `Idle` only a host's write of E leaves the first case, and in the second a lone nibble that
was owed is the frame E takes. -/
theorem framesAreTheDeliveredStream : Obligations.FramesAreTheDeliveredStream := by
  intro i s t seen he hl
  obtain ⟨es, ts, htr, hde, hf⟩ | ⟨h, hidle⟩ := exec_frames seen hl he
  · exact ⟨es, ts, htr, hde, by simp only [hf, List.Sublist.refl], fun _ _ => hf, fun _ _ => hf⟩
  · obtain ⟨es, ts, htr, hde, hsub, howed⟩ := h.grouped
    refine ⟨es, ts, htr, hde, hsub, fun hp hi => ?_, fun ho _ => howed ho⟩
    obtain ⟨v, hv⟩ := hidle hp
    exact absurd hv (hi v)

end Sys2Proof.Machine
end

section
/-! SUPPORT. O11 to O15: the timing primitives, the serializer and the deserializer as calls (40_bus_engine R111 to R115). -/

namespace Sys2Proof.Machine

/-! ## What the guards refuse -/

theorem exec_of_guard_some {i : Instr} {s : State} {r : Refusal} (h : guardOf i s = some r) : exec i s = .refused r := by
  rw [exec_eq, h, guarded_some]

/-- An operation that needs `Idle` runs in `Idle`. -/
theorem exec_idle {i : Instr} {s : State} (hi : guardOf i s = internalIdleGuard s) (h : AbleIdle s) :
    exec i s = .next (effectOf i s) :=
  exec_of_guard (hi.trans h.guard)

/-- An operation that needs `Idle` is refused while a transaction is open. -/
theorem exec_busy {i : Instr} {s : State} (hi : guardOf i s = internalIdleGuard s) (h : Able s) (hp : s.phase ≠ .idle) :
    exec i s = .refused (.wrongPhase s.phase) :=
  exec_of_guard_some (hi.trans (internalIdleGuard_busy h hp))

theorem dirGuard_some {d : Direction} {s : State} (h : s.dir ≠ d) : dirGuard d s = some (.wrongDirection s.dir) :=
  if_neg h

/-- Settles O11: `beginTransaction_eq`, its events written out. -/
theorem beginOpensATransaction : Obligations.BeginOpensATransaction := by
  refine fun t r s => ⟨fun h => ?_, fun h hp => exec_busy rfl h hp⟩
  have hreg : (Reg.ofBool t).isData = t := by cases t <;> rfl
  rw [exec_idle rfl h, effectOf, beginTransaction_eq, hreg, beginEvents, hreg]
  rfl

/-- Settles O12: `continueTransaction_eq`, its events written out. -/
theorem contSeparatesNibbleCycles : Obligations.ContSeparatesNibbleCycles := by
  refine fun r s h => ⟨fun reg hp => ?_, fun hp => ?_⟩
  · have hg : guardOf (.continueTransaction r) s = none := by
      rw [guardOf, h.guard, activeGuard_ok hp (decide_eq_true rfl), Option.or_none]
    refine ⟨(continueTransaction r s).peer, (continueTransaction r s).draws, ?_⟩
    rw [exec_of_guard hg, effectOf, continueTransaction_eq]
    rfl
  · apply exec_of_guard_some
    rw [guardOf, h.guard, Option.none_or]
    exact activeGuard_some fun reg d hd => decide_eq_false fun e => hp reg (e ▸ hd)

/-- Settles O13: `endTransaction_eq`, its events written out. -/
theorem endClosesTheTransaction : Obligations.EndClosesTheTransaction := by
  refine fun s h => ⟨fun hp => ?_, fun hp => ?_⟩
  · have hg : guardOf .endTransaction s = none := by
      rw [guardOf, h.guard, Option.none_or]
      cases ha : s.phase with
      | idle => exact absurd ha hp
      | active reg d => exact activeGuard_ok ha rfl
    refine ⟨(endTransaction s).peer, (endTransaction s).draws, ?_⟩
    rw [exec_of_guard hg, effectOf, endTransaction_eq]
    rfl
  · apply exec_of_guard_some
    rw [guardOf, h.guard, Option.none_or, activeGuard, hp]

/-- Settles O14: `driveNibble_eq`, its events written out. -/
theorem driveNibbleSetsTheDataPins : Obligations.DriveNibbleSetsTheDataPins := by
  refine fun v s h => ⟨fun reg hp hd => ?_, fun hp => ?_, fun reg hp hd => ?_⟩
  · have hg : guardOf (.driveNibble v) s = none := by
      rw [guardOf, h.guard, activeGuard_ok hp rfl, dirGuard_none.mpr hd, Option.or_none, Option.or_none]
    rw [exec_of_guard hg, effectOf, driveNibble_eq]
    rfl
  · apply exec_of_guard_some
    rw [guardOf, h.guard, Option.none_or, activeGuard_some, Option.some_or]
    intro reg d hd
    cases d with
    | false => exact absurd hd (hp reg)
    | true => rfl
  · apply exec_of_guard_some
    rw [guardOf, h.guard, activeGuard_ok hp rfl, Option.none_or, Option.none_or, dirGuard_some hd]

/-- Settles O15: `sampleNibble_eq`, its events written out, and `sampleNibble_wire`. -/
theorem sampleNibbleReadsTheWires : Obligations.SampleNibbleReadsTheWires := by
  refine fun s h => ⟨fun reg hp hd => ⟨(sampleNibble s).1, ?_, fun u rest hw => sampleNibble_wire u rest s hw⟩,
    fun hp => ?_, fun reg hp hd => ?_⟩
  · have hg : guardOf .sampleNibble s = none := by
      rw [guardOf, h.guard, activeGuard_ok hp rfl, dirGuard_none.mpr hd, Option.or_none, Option.or_none]
    rw [exec_of_guard hg, effectOf, sampleNibble_eq]
    rfl
  · apply exec_of_guard_some
    rw [guardOf, h.guard, Option.none_or, activeGuard_some, Option.some_or]
    intro reg d hd
    cases d with
    | false => rfl
    | true => exact absurd hd (hp reg)
  · apply exec_of_guard_some
    rw [guardOf, h.guard, activeGuard_ok hp rfl, Option.none_or, Option.none_or, dirGuard_some hd]

end Sys2Proof.Machine
end

section
/-! SUPPORT. O16 to O19: the whole transfers as calls (40_bus_engine R116 to R119, R122). -/

namespace Sys2Proof.Machine

/-- Settles O16: `busWriteBytes_idle` and `busWriteBytes_join`, and the guard of each refused form. -/
theorem busWriteSendsTheBytes : Obligations.BusWriteSendsTheBytes := by
  intro reg bytes s h
  have guard : guardOf (.busWriteBytes reg bytes) s = writeGuard reg bytes s := by
    rw [guardOf, h.guard, Option.none_or]
  have passes (hw : bytes = [] ∨ s.phase = .idle ∨ s.phase = .active reg false ∧ s.dir = .output) :
      exec (.busWriteBytes reg bytes) s = .next (s |> busWriteBytes reg bytes |> returning .nothing) :=
    exec_of_guard (guard.trans (writeGuard_none.mpr hw))
  refine ⟨fun hb => ?empty, fun hp => ?idle, fun b hl hp hd => ?join, fun reg' d hb hp hne => ?phase,
    fun hb hp hd => ?direction⟩
  case empty =>
    rw [passes (.inl hb), hb, busWriteBytes_nil]
    rfl
  case idle =>
    have hw := busWriteBytes_idle reg bytes s hp
    refine ⟨_, passes (.inr (.inl hp)), hw.returning .nothing, rfl, fun hb => ?_⟩
    rw [returning_trace, hw.trace, List.length_append, writeEvents_length s.cfg reg bytes hb]
  case join =>
    obtain ⟨p, n, e⟩ := busWriteBytes_join reg bytes b hl s reg false hp
    have hb : bytes ≠ [] := fun hb => by simp [hb] at hl
    refine ⟨p, n, ?_, joinEvents_length s.cfg bytes hb⟩
    rw [passes (.inr (.inr ⟨hp, hd⟩)), e]
    rfl
  case phase =>
    apply exec_of_guard_some
    have hok : (decide (reg' = reg) && !d) = false := by
      obtain hr | rfl := hne
      · rw [decide_eq_false hr, Bool.false_and]
      · exact Bool.and_false _
    simp [guard, writeGuard, hb, hp, activeGuard, hok]
  case direction =>
    apply exec_of_guard_some
    simp [guard, writeGuard, hb, hp, activeGuard, dirGuard_some hd]

/-- Settles O17: `busReadBytes_idle` and `busReadBytes_wire`. -/
theorem busReadReturnsTheSampledBytes : Obligations.BusReadReturnsTheSampledBytes := by
  refine fun reg count s => ⟨fun h => ?_, fun h hp => exec_busy rfl h hp⟩
  have hr := busReadBytes_idle reg count s h.idle
  have hlen := busReadBytes_length reg count s
  refine ⟨_, (busReadBytes reg count s).1, exec_idle rfl h, hr.returning _, rfl, hlen, fun hc => ?_, ?_⟩
  · have hne : (busReadBytes reg count s).1 ≠ [] := fun e => hc (by rw [← hlen, e]; rfl)
    rw [effectOf, returning_trace, hr.trace, List.length_append, readEvents_length s.cfg reg _ hne, hlen]
  · rintro want rest rfl hw
    exact busReadBytes_wire reg want rest s hw

theorem nibbleWriteEvents_length (c : Config) (reg : Reg) (v : Nibble) : (nibbleWriteEvents c reg v).length = 13 := rfl

/-- Settles O18: `busWriteNibble_eq`; unterminated it owes the nibble on its latches. -/
theorem busWriteNibbleDeliversALoneNibble : Obligations.BusWriteNibbleDeliversALoneNibble := by
  refine fun reg v terminate s => ⟨fun h => ?_, ?_, fun h hp => exec_busy rfl h hp⟩
  · refine ⟨(busWriteNibble reg v terminate s).peer, (busWriteNibble reg v terminate s).draws, ?_, nibbleWriteEvents_length s.cfg reg v, rfl⟩
    rw [exec_idle rfl h, effectOf, busWriteNibble_eq]
    rfl
  · rintro - rfl t ht
    obtain ⟨-, rfl⟩ := exec_next.mp ht
    rw [effectOf, busWriteNibble_eq]
    exact owedTransfers_driven reg v _ rfl rfl rfl rfl rfl rfl rfl rfl

/-- The levels of the frames of a write are those a peer presents for its bytes (R121, R122). -/
theorem framesFrom_write_levels (c : Config) (reg : Reg) (bytes : List Byte) (p seen : Pins) :
    (framesFrom p seen (writeEvents c reg bytes)).flatMap frameLevels = bytes.flatMap byteLevels := by
  obtain ⟨q, e, -, -⟩ := framesFrom_write c reg bytes p seen []
  rw [List.append_nil, framesFrom, List.append_nil] at e
  rw [e, byteFrames_levels]

/-- Settles O19: the write's frames carry the levels the read takes for the same bytes. -/
theorem writeThenReadRoundTrip : Obligations.WriteThenReadRoundTrip := by
  intro reg reg' bytes s u hs hu
  have guard : guardOf (.busWriteBytes reg bytes) s = none := by
    rw [guardOf, hs.toAble.guard, writeGuard_idle hs.idle, Option.or_none]
  refine ⟨_, exec_of_guard guard, fun hw => ⟨_, exec_idle rfl hu, ?_⟩⟩
  rw [effectOf, returning_trace, (busWriteBytes_idle reg bytes s hs.idle).trace, List.drop_left,
    framesFrom_write_levels, ← List.append_nil (bytes.flatMap _)] at hw
  rw [effectOf, returning_result, busReadBytes_wire reg' bytes [] u hw]

end Sys2Proof.Machine
end

section
/-! SUPPORT. O46: the peer takes a frame exactly when E falls (10_state R21, R22, 20_memory R50, R56, 40_bus_engine R121). -/

namespace Sys2Proof.Machine

theorem fallingEnable_iff {r : PinRole} {v : Level} {p : Pins} :
    fallingEnable r v p = true ↔ r = .e ∧ v = false ∧ p.e = .held true := by
  simp only [fallingEnable, dropsEnable, Bool.and_eq_true, decide_eq_true_eq, and_assoc]
  simp

/-- While the block does not drive the data pins, their latches are not on the wires (R21, R22). -/
theorem wireNibble_of_not_output (n : Nat) {dir : Direction} (h : dir ≠ .output) (p : Pins) :
    wireNibble n dir p = Config.undrivenNibble n := if_neg h

theorem peerReceive_of_not_output (n : Nat) {dir : Direction} (h : dir ≠ .output) {p p' : Pins} (hs : p.rs = p'.rs)
    (hw : p.rw = p'.rw) (q : Peer) : peerReceive n dir p q = peerReceive n dir p' q := by
  simp only [peerReceive, wireNibble_of_not_output n h, hs, hw]

/-- CONFIGURE drives no pin, so no frame reaches the peer (R140). -/
theorem effectOf_configure_peer {s : State} (hw : configWf s.cfg = true) : (effectOf .configure s).peer = s.peer := by
  simp only [effectOf]
  split <;> exact configure_peer s hw

/-- Nor does INIT (R216). -/
theorem effectOf_init_peer {s : State} (hw : configWf s.cfg = true) : (effectOf .init s).peer = s.peer := by
  simp only [effectOf]
  split
  · exact configure_peer s hw
  · exact (setDataDirection_peer true _).trans (configure_peer s hw)

/-- SET_BACKLIGHT drives the backlight's pin or none (R224). -/
theorem effectOf_setBacklight_peer (on : Bool) (s : State) : (effectOf (.setBacklight on) s).peer = s.peer := by
  rw [effectOf, returning_peer]
  split <;> rfl

/-- Settles O46: the falls of E by the lemma of each operation, and the operations in which E does not fall. -/
theorem peerMovesOnlyWhenEnableFalls : Obligations.PeerMovesOnlyWhenEnableFalls := by
  refine fun s t => ⟨fun r he => ?cont, fun he => ?close, fun r v he => ?pinWrite, fun i hi he => ?quiet,
    fun p hd hs hw => peerReceive_of_not_output s.draws hd hs hw s.peer⟩
  case cont =>
    obtain ⟨-, rfl⟩ := exec_next.mp he
    rw [effectOf, returning_peer, continueTransaction_eq]
  case close =>
    obtain ⟨-, rfl⟩ := exec_next.mp he
    rw [effectOf, returning_peer, endTransaction_eq]
  case pinWrite =>
    obtain ⟨-, rfl⟩ := exec_next.mp he
    simp only [effectOf, returning_peer, writePin_peer, fallingEnable_iff]
  case quiet =>
    obtain ⟨hg, rfl⟩ := exec_next.mp he
    have hw := configWf_of_guardOf hg
    obtain hi | ⟨a, b, rfl⟩ | ⟨v, rfl⟩ | ⟨b, rfl⟩ | ⟨r, rfl⟩ | ⟨on, rfl⟩ := hi
    · simp only [List.mem_cons, List.not_mem_nil, or_false] at hi
      obtain rfl | rfl | rfl := hi
      · exact effectOf_init_peer hw
      · exact effectOf_configure_peer hw
      · exact sampleNibble_peer s
    · exact beginTransaction_peer (Reg.ofBool a) b s
    · exact driveNibble_peer v s
    · exact setDataDirection_peer b s
    · exact sample_peer r s
    · exact effectOf_setBacklight_peer on s

end Sys2Proof.Machine
end

section
/-! SUPPORT. O24 to O26: the operations of the Pin Bus as calls (41_pin_bus R140 to R145). -/

namespace Sys2Proof.Machine

/-- Settles O24: `setDataDirection_eq`, its events written out for either direction. -/
theorem dataDirectionSwitchesAsAGroup : Obligations.DataDirectionSwitchesAsAGroup := by
  refine fun i s => ⟨fun h => ?_, fun h hp => exec_busy rfl h hp⟩
  rw [exec_idle rfl h, effectOf, setDataDirection_eq]
  cases i <;> rfl

/-! ## One latch -/

theorem Pins.get_set (p : Pins) (r r' : PinRole) (v : Level) :
    (p.set r v).get r' = if r' = r then .held v else p.get r' := by
  cases r <;> cases r' <;> rfl

/-! ## A host's own write and read -/

theorem dropsEnable_iff {r : PinRole} {v : Level} : dropsEnable r v = true ↔ r = .e ∧ v = false := by
  simp [dropsEnable]

/-- A pin write as a whole; what it does to the peer is `drive_peer`. -/
theorem drive_eq (r : PinRole) (v : Level) (s : State) :
    drive r v s =
      { s with
        pin := s.pin.set r v
        trace := s.trace ++ [.drive r v]
        delivered := if r = .e ∧ v = false then s.delivered ++ owedTransfers s else s.delivered
        lone := if r = .e ∧ v = false then false else s.lone
        peer := (drive r v s).peer
        draws := (drive r v s).draws } := by
  by_cases h : r = .e ∧ v = false
  · obtain ⟨rfl, rfl⟩ := h
    simp [drive]
  · have hd : dropsEnable r v = false := Bool.eq_false_iff.mpr (mt dropsEnable_iff.mp h)
    simp [drive, hd, h]

/-- An operation that runs in any phase. -/
theorem exec_able {i : Instr} {s : State} (hi : guardOf i s = internalGuard s) (h : Able s) :
    exec i s = .next (effectOf i s) :=
  exec_of_guard (hi.trans h.guard)

theorem wireLevel_of_cons {s : State} {w : Level} {rest : List Level} (h : s.wire = w :: rest) : wireLevel s = w := by
  rw [wireLevel, h]

/-- Settles O25: `writePin` on a role with a latch and on the one without, and `sample`. -/
theorem pinPrimitivesPassThrough : Obligations.PinPrimitivesPassThrough := by
  refine fun r v s h => ⟨fun hr => ⟨(drive r v s).peer, (drive r v s).draws, ?_⟩, fun hr => ?_,
    ⟨wireLevel s, ?_, fun rest w hw => wireLevel_of_cons hw⟩, (s.pin.get_set r r v).trans (if_pos rfl),
    fun r' hne => (s.pin.get_set r r' v).trans (if_neg hne)⟩
  · rw [exec_able rfl h, effectOf, writePin_configured hr, drive_eq]
    rfl
  · obtain ⟨hbl, hu⟩ := not_configured.mp hr
    refine ⟨hbl, hu, ?_⟩
    rw [exec_able rfl h, effectOf, writePin_not_configured hr]
    rfl
  · rw [exec_able rfl h]
    rfl

/-! ## CONFIGURE -/

/-- With no reserved pin CONFIGURE hands back nothing, since the loop does not abort. -/
theorem effectOf_configure_ok {s : State} (h : Able s) (hr : ∀ r ∈ configuredRoles s.cfg, reservedPin s.cfg r = false) :
    effectOf .configure s = returning .nothing (configure s) := by
  have hf : (configure s).fault = none := by rw [configure_ok s h.config hr]; exact h.alive
  simp only [effectOf, hf]

/-- Settles O26: `configure_ok`, the loop of R140 over all the configured roles. -/
theorem configureSetsUpEveryRole : Obligations.ConfigureSetsUpEveryRole := by
  intro s h hr
  rw [exec_idle rfl h, effectOf_configure_ok h.toAble hr, configure_ok s h.config hr]
  rfl

end Sys2Proof.Machine
end

section
/-! SUPPORT. O27, O28: the operations of the Command Encoder as calls (42_command_encoder R156 to R163). -/

namespace Sys2Proof.Machine

/-! ## The bytes of the four builders, bit by bit (R83 to R91, R156 to R159) -/

theorem encodeEntryMode_bits (a b : Bool) :
    encodeEntryMode a b = 0b000001#6 ++ BitVec.ofBool a ++ BitVec.ofBool b :=
  entryMode_toByte a b

theorem encodeDisplayControl_bits (a b c : Bool) :
    encodeDisplayControl a b c = 0b00001#5 ++ BitVec.ofBool a ++ BitVec.ofBool b ++ BitVec.ofBool c :=
  displayControl_toByte a b c

/-- The two bits the command leaves free are 0. -/
theorem encodeFunctionSet_bits (a b c : Bool) :
    encodeFunctionSet a b c = 0b001#3 ++ BitVec.ofBool a ++ BitVec.ofBool b ++ BitVec.ofBool c ++ 0b00#2 := by
  rw [← functionSet_toByte]
  exact (BitVec.or_zero ..).symm

/-- The two bits the command leaves free are 0. -/
theorem encodeShift_bits (a b : Bool) :
    encodeShift a b = 0b0001#4 ++ BitVec.ofBool a ++ BitVec.ofBool b ++ 0b00#2 := by
  rw [← shift_toByte]
  exact (BitVec.or_zero ..).symm

/-- Settles O27: an encoder runs in any phase and only hands its builder's byte back. -/
theorem encodersReturnTheirByte : Obligations.EncodersReturnTheirByte := by
  intro a b c s h
  rw [← encodeEntryMode_bits, ← encodeDisplayControl_bits, ← encodeFunctionSet_bits, ← encodeShift_bits]
  exact ⟨exec_able rfl h, exec_able rfl h, exec_able rfl h, exec_able rfl h⟩

/-- Settles O28: `busWriteBytes_idle` on one command byte, and `busWriteBytes_peerCommand` at a peer in step. -/
theorem writeCommandSendsAnyByte : Obligations.WriteCommandSendsAnyByte := by
  refine fun c s => ⟨fun h => ?_, fun h hp => exec_busy rfl h hp⟩
  have hw := busWriteBytes_idle .command [c] s h.idle
  refine ⟨_, exec_idle rfl h, hw.returning .nothing, rfl, ?_, busWriteBytes_peerCommand c s h.idle⟩
  rw [effectOf, returning_trace, writeCommand, hw.trace, List.length_append,
    writeEvents_length s.cfg .command [c] (List.cons_ne_nil c []), List.length_singleton]

end Sys2Proof.Machine
end

section
/-! SUPPORT. O29 to O32: the operations of the RAM Access Layer as calls (43_ram_access R175 to R178, R182). -/

namespace Sys2Proof.Machine

/-! ## The address command -/

/-- The byte that sets the counter into DDRAM is SET_DDRAM_ADDR of all 7 bits (R90, R175). -/
theorem addressByte_ddram (a : BitVec 7) : addressByte a true = (Command.setDdramAddr a).toByte :=
  BitVec.or_comm ..

/-- The byte written out: bit 6 of a CGRAM operand is absorbed (R89, R90, R175). -/
theorem addressByte_bits (a : BitVec 7) (f : Bool) :
    addressByte a f = if f then 0b1#1 ++ a else 0b01#2 ++ (a.setWidth 6) := by
  cases f with
  | true => exact (addressByte_ddram a).trans (setDdramAddr_toByte a)
  | false => exact (addressByte_cgram a).trans (setCgramAddr_toByte _)

/-- The peer with its counter at the address a SET_ADDRESS_COUNTER of `a` gives, in the RAM it names, all else as before. -/
def Peer.addressed (p : Peer) (a : BitVec 7) (targetIsDataRam : Bool) : Peer :=
  { p with regs := { p.regs with
      ac := if targetIsDataRam then a else (a.setWidth 6).setWidth 7
      ram := if targetIsDataRam then .ddram else .cgram } }

theorem peerCommand_addressByte (n : Nat) (a : BitVec 7) (f : Bool) {p : Peer} (hp : p.sync = .paired) :
    peerCommand n (addressByte a f) p = p.addressed a f := by
  cases f with
  | true => rw [addressByte_ddram, peerCommand_setDdramAddr, Peer.atDdram, ← hp]; rfl
  | false => rw [peerCommand_addressByte_cgram, Peer.atCgram, ← hp]; rfl

theorem setAddressCounter_wrote (a : BitVec 7) (f : Bool) {s : State} (h : s.phase = .idle) :
    Wrote s (setAddressCounter a f s) .command [if f then 0b1#1 ++ a else 0b01#2 ++ (a.setWidth 6)] := by
  rw [← addressByte_bits]
  exact busWriteBytes_idle .command [addressByte a f] s h

/-- SET_ADDRESS_COUNTER at a peer in step (R51, R175). -/
theorem setAddressCounter_peer (a : BitVec 7) (f : Bool) {s : State} (h : s.phase = .idle) (hp : s.peer.sync = .paired) :
    (setAddressCounter a f s).peer = s.peer.addressed a f := by
  obtain ⟨n, e⟩ := busWriteBytes_peerCommand (addressByte a f) s h hp
  exact e.trans (peerCommand_addressByte n a f hp)

/-- Settles O29: one lemma for either RAM, `setAddressCounter_wrote` for the block and `setAddressCounter_peer` for the peer. -/
theorem setAddressCounterSendsTheAddress : Obligations.SetAddressCounterSendsTheAddress := by
  intro a s
  have runs (f : Bool) (h : AbleIdle s) : ∃ t, exec (.setAddressCounter a f) s = .next t ∧
      Wrote s t .command [if f then 0b1#1 ++ a else 0b01#2 ++ (a.setWidth 6)] ∧ t.result = .nothing ∧
      (s.peer.sync = .paired → t.peer = s.peer.addressed a f) :=
    ⟨_, exec_idle rfl h, (setAddressCounter_wrote a f h.idle).returning .nothing, rfl, setAddressCounter_peer a f h.idle⟩
  exact ⟨runs true, runs false, fun f h hp => exec_busy rfl h hp⟩

/-! ## Reading -/

/-- READ_BYTES at a peer in step: `data_read_run` from the counter the address command has set (R54, R176). -/
theorem readBytes_peer (count : Nat) (a : BitVec 7) (f : Bool) {s : State} (h : s.phase = .idle)
    (hp : s.peer.sync = .paired) :
    let p := s.peer.addressed a f
    let q := (readBytes count a f s).2.peer
    q.sync = .paired ∧ q.ddram = p.ddram ∧ q.cgram = p.cgram ∧ q.regs.ram = p.regs.ram ∧
      ((∀ k, k < count → acStepStated p.regs.cursorRight p.regs.ram (acMoved p.regs.cursorRight p.regs.ac k) = true) →
        q.regs = { p.regs with ac := acMoved p.regs.cursorRight p.regs.ac count }) := by
  have hf := busReadBytes_peer .data count (setAddressCounter a f s)
  rw [setAddressCounter_peer a f h hp] at hf
  exact data_read_run count _ _ hp hf

/-- Settles O30: the state between is the one the address command leaves; from it on it is a read of the data register. -/
theorem readBytesSetsTheCounterFirst : Obligations.ReadBytesSetsTheCounterFirst := by
  refine fun count a f s => ⟨fun h => ?_, fun h hp => exec_busy rfl h hp⟩
  have hw := setAddressCounter_wrote a f h.idle
  have hr := busReadBytes_idle .data count _ hw.phase
  refine ⟨setAddressCounter a f s, _, (readBytes count a f s).1, exec_idle rfl h, hw, hr.returning _, rfl,
    busReadBytes_length .data count _, fun hp => ?peer, ?wires⟩
  case peer =>
    obtain ⟨hsync, hddram, hcgram, hram, hregs⟩ := readBytes_peer count a f h.idle hp
    refine ⟨hsync, hddram, hcgram, hram, ?_⟩
    rintro _ _ rfl rfl hstated
    exact congrArg PeerRegs.ac (hregs hstated)
  case wires =>
    rintro want rest rfl hwire
    exact busReadBytes_wire .data want rest _ (hw.wire.trans hwire)

/-- Settles O31: the one byte of `busReadBytes_idle` and `busReadBytes_wire` on the command register. -/
theorem readStatusReadsTheCommandRegister : Obligations.ReadStatusReadsTheCommandRegister := by
  refine fun s => ⟨fun h => ?_, fun h hp => exec_busy rfl h hp⟩
  obtain ⟨b, hb⟩ := List.length_eq_one_iff.mp (busReadBytes_length .command 1 s)
  have hr := busReadBytes_idle .command 1 s h.idle
  rw [hb] at hr
  refine ⟨_, b, exec_idle rfl h, hr.returning _, ?result, ?events, fun want rest hwire => ?wires⟩
  case result => rw [effectOf, returning_result, hb, List.headD_cons]
  case events =>
    rw [effectOf, returning_trace, hr.trace, List.length_append,
      readEvents_length s.cfg .command [b] (List.cons_ne_nil b []), List.length_singleton]
  case wires =>
    have hwant := busReadBytes_wire .command [want] rest s (by rwa [List.flatMap_singleton])
    exact List.singleton_inj.mp (hb.symm.trans hwant)

/-! ## Writing -/

theorem operandBytes_length (data : List Byte) (count : Nat) : (operandBytes data count).length = count := by
  simp only [operandBytes, List.length_append, List.length_take, List.length_map, List.length_range]
  omega

/-- Inside the buffer the bytes are the buffer's own (R177, R178). -/
theorem operandBytes_take (data : List Byte) (count : Nat) :
    (operandBytes data count).take data.length = data.take count := by
  obtain hc | hc := Nat.le_total count data.length
  · rw [operandBytes, Nat.sub_eq_zero_of_le hc, List.range_zero, List.map_nil, List.append_nil, List.take_take,
      Nat.min_eq_right hc]
  · rw [operandBytes, List.take_of_length_le hc, List.take_left]

/-- Settles O32: `busWriteBytes_idle` and `emitItems_idle` on the bytes of `operandBytes`. -/
theorem writeBytesTakesCountBytes : Obligations.WriteBytesTakesCountBytes := by
  refine fun data count s => ⟨fun h => ?_, fun h hp => ⟨exec_busy rfl h hp, exec_busy rfl h hp⟩⟩
  refine ⟨operandBytes data count, operandBytes_length data count, operandBytes_take data count,
    ⟨_, exec_idle rfl h, ?raw, rfl⟩, ⟨_, exec_idle rfl h, ?text, rfl⟩⟩
  case raw => exact (busWriteBytes_idle .data _ s h.idle).returning .nothing
  case text => exact (emitItems_idle _ s h.idle).returning .nothing

end Sys2Proof.Machine
end

section
/-! SUPPORT. O33, O34: the scan form by form, and what its items can be (44_text_interpreter R196 to R202, R204). -/

namespace Sys2Proof.Machine

/-! ## The forms of the scan -/

/-- The digits below 8 (R198). -/
theorem isGlyphDigit_toNat {d : Byte} : isGlyphDigit d = true ↔ 0x30 ≤ d.toNat ∧ d.toNat < 0x38 := by
  rw [isGlyphDigit, maxTotalCustomPattern]
  simp only [Bool.and_eq_true, decide_eq_true_eq]
  omega

/-- They are the bytes whose upper five bits are 00110 (R96). -/
theorem isGlyphDigit_iff {d : Byte} : isGlyphDigit d = true ↔ d.extractLsb' 3 5 = 0b00110#5 := by
  rw [isGlyphDigit_toNat, ← BitVec.toNat_inj, BitVec.extractLsb'_toNat, Nat.shiftRight_eq_div_pow, BitVec.toNat_ofNat]
  omega

theorem isGlyphDigit_append (d : BitVec 3) : isGlyphDigit (0b00110#5 ++ d) = true := by
  revert d
  decide

theorem glyphDigit_sub (d : BitVec 3) : (0b00110#5 ++ d) - 0x30#8 = d.setWidth 8 := by
  revert d
  decide

/-- An escape and its digit are one slot number (R198). -/
theorem interpret_glyph {d : Byte} (h : isGlyphDigit d = true) (rest : List Byte) :
    interpret (chEscape :: d :: rest) = (.data, d - 0x30) :: interpret rest := by
  rw [interpret, if_pos ⟨rfl, h⟩]

/-- An escape without its digit is itself, and the scan goes on at the byte after it (R202). -/
theorem interpret_escapeFailed {ch : Byte} (h : isGlyphDigit ch = false) (rest : List Byte) :
    interpret (chEscape :: ch :: rest) = (.data, chEscape) :: interpret (ch :: rest) := by
  rw [interpret, if_neg fun hd => Bool.eq_false_iff.mp h hd.2]
  rfl

theorem isDropped_iff {ch : Byte} : isDropped ch = true ↔ ch = 0x09 ∨ ch = 0x0B ∨ ch = 0x0C ∨ ch = 0x0D := by
  simp only [isDropped, Bool.or_eq_true, decide_eq_true_eq, or_assoc]

/-- Dropped whitespace gives nothing (R199). -/
theorem interpret_dropped {ch : Byte} (h : isDropped ch = true) (rest : List Byte) :
    interpret (ch :: rest) = interpret rest := by
  obtain rfl | rfl | rfl | rfl := isDropped_iff.mp h <;> exact interpret_cons _ rest (by decide)

/-- A byte no special row of R96 matches is itself (R201, D11), whatever follows. -/
theorem interpret_verbatim {ch : Byte} (h : textSpecial ch = false) (rest : List Byte) :
    interpret (ch :: rest) = (.data, ch) :: interpret rest := by
  have hne : ch ≠ chEscape := by
    rintro rfl
    exact absurd h (by decide)
  have hi : itemsOfByte ch = [(.data, ch)] := interpret_plain [ch] (List.forall_mem_singleton.mpr h)
  rw [interpret_cons ch rest hne, hi, List.singleton_append]

/-- Settles O33: a lemma of the scan for each form. -/
theorem interpreterFormByForm : Obligations.InterpreterFormByForm := by
  refine ⟨rfl, fun rest => ⟨?newline, fun d => ?glyph, fun ch hch => ?dropped, ?space, rfl, fun ch hch => ?escapeFailed,
    fun ch hch => interpret_verbatim hch rest⟩⟩
  case newline => exact interpret_cons 0x0A rest (by decide)
  case glyph =>
    rw [← glyphDigit_sub]
    exact interpret_glyph (isGlyphDigit_append d) rest
  case dropped => exact interpret_dropped (isDropped_iff.mpr (by simpa using hch)) rest
  case space => exact interpret_cons 0x20 rest (by decide)
  case escapeFailed =>
    exact interpret_escapeFailed (Bool.eq_false_iff.mpr (mt isGlyphDigit_iff.mp hch)) rest

/-! ## What the items can be -/

/-- The items a text can give (R204): the newline's command, a byte of the text that is no newline and not dropped, a slot
number. -/
inductive ItemFrom (text : List Byte) : Item → Prop
  | newline : ItemFrom text (.command, cmdJumpLine2)
  | verbatim (b : Byte) : b ∈ text → b ≠ chNewline → isDropped b = false → ItemFrom text (.data, b)
  | slot (b : Byte) : b.toNat < 8 → ItemFrom text (.data, b)

theorem ItemFrom.mono {text more : List Byte} {i : Item} (hsub : text ⊆ more) (h : ItemFrom text i) : ItemFrom more i := by
  cases h with
  | newline => exact .newline
  | verbatim b hb hn hd => exact .verbatim b (hsub hb) hn hd
  | slot b hb => exact .slot b hb

theorem itemFrom_of_mem_itemsOfByte {ch : Byte} {i : Item} (h : i ∈ itemsOfByte ch) : ItemFrom [ch] i := by
  rw [itemsOfByte] at h
  split at h
  · obtain rfl := List.mem_singleton.mp h
    exact .newline
  · next hn =>
    split at h
    · exact absurd h List.not_mem_nil
    · next hd =>
      obtain rfl := List.mem_singleton.mp h
      exact .verbatim ch List.mem_cons_self hn (Bool.eq_false_iff.mpr hd)

theorem glyphDigit_sub_lt {d : Byte} (h : isGlyphDigit d = true) : (d - 0x30#8).toNat < 8 := by
  obtain ⟨hlo, hhi⟩ := isGlyphDigit_toNat.mp h
  bv_omega

theorem itemFrom_of_mem_interpret {text : List Byte} {i : Item} (h : i ∈ interpret text) : ItemFrom text i := by
  induction text using interpret_induct with
  | nil => exact absurd h List.not_mem_nil
  | one ch rest e ih =>
    rw [e, List.mem_append] at h
    obtain h | h := h
    · exact (itemFrom_of_mem_itemsOfByte h).mono (by simp)
    · exact (ih h).mono (List.subset_cons_self ch rest)
  | two d rest hd ih =>
    rw [interpret_glyph hd, List.mem_cons] at h
    obtain rfl | h := h
    · exact .slot _ (glyphDigit_sub_lt hd)
    · exact (ih h).mono fun b hb => by simp [hb]

/-- No slot number is a newline or dropped whitespace, and no verbatim byte is (R196, R199). -/
theorem ItemFrom.not_control {text : List Byte} {b : Byte} (h : ItemFrom text (.data, b)) :
    b ≠ chNewline ∧ isDropped b = false := by
  cases h with
  | verbatim _ _ hn hd => exact ⟨hn, hd⟩
  | slot _ hb =>
    refine ⟨?_, Bool.eq_false_iff.mpr fun hd => ?_⟩
    · rintro rfl
      exact absurd hb (by decide)
    · obtain rfl | rfl | rfl | rfl := isDropped_iff.mp hd <;> exact absurd hb (by decide)

theorem interpret_allDropped : ∀ {text : List Byte}, (∀ ch ∈ text, isDropped ch = true) → interpret text = []
  | [], _ => rfl
  | ch :: rest, h => by
    obtain ⟨hch, hrest⟩ := List.forall_mem_cons.mp h
    rw [interpret_dropped hch, interpret_allDropped hrest]

/-- Settles O34: `interpret_length`, and the three kinds of item of `ItemFrom`. -/
theorem interpreterBounds : Obligations.InterpreterBounds := by
  refine fun text => ⟨interpret_length text, fun b hb => ?command, fun b hb => ?source, fun b hb => ?control,
    fun h => interpret_allDropped fun ch hch => isDropped_iff.mpr (h ch hch)⟩
  case command =>
    cases itemFrom_of_mem_interpret hb with
    | newline => rfl
  case source =>
    cases itemFrom_of_mem_interpret hb with
    | verbatim _ hmem _ _ => exact .inl hmem
    | slot _ hlt => exact .inr hlt
  case control =>
    obtain ⟨hn, hd⟩ := (itemFrom_of_mem_interpret hb).not_control
    have hd := mt isDropped_iff.mpr (Bool.eq_false_iff.mp hd)
    exact ⟨fun h => hd (.inl h), hn, fun h => hd (.inr (.inl h)), fun h => hd (.inr (.inr (.inl h))),
      fun h => hd (.inr (.inr (.inr h)))⟩

end Sys2Proof.Machine
end

section
/-! SUPPORT. O35, O36: the runs of the items, and the text forms as calls (44_text_interpreter R197 to R203). -/

namespace Sys2Proof.Machine

/-- Two neighbouring runs go to different registers (R203). -/
def NeighboursDiffer (runs : List (Reg × List Byte)) : Prop :=
  ∀ (k : Nat) (a b : Reg × List Byte), runs[k]? = some a → runs[k + 1]? = some b → a.1 ≠ b.1

theorem NeighboursDiffer.singleton (run : Reg × List Byte) : NeighboursDiffer [run] :=
  fun _ _ _ _ hb => nomatch hb

theorem NeighboursDiffer.cons {run next : Reg × List Byte} {more : List (Reg × List Byte)}
    (h : NeighboursDiffer (next :: more)) (hne : run.1 ≠ next.1) : NeighboursDiffer (run :: next :: more)
  | 0, _, _, ha, hb => by
    obtain rfl := Option.some.inj ha
    obtain rfl := Option.some.inj hb
    exact hne
  | k + 1, a, b, ha, hb => h k a b ha hb

/-- Only the register of the first run matters, not its bytes. -/
theorem NeighboursDiffer.of_bytes {reg : Reg} {bs : List Byte} {more : List (Reg × List Byte)}
    (h : NeighboursDiffer ((reg, bs) :: more)) (bs' : List Byte) : NeighboursDiffer ((reg, bs') :: more)
  | 0, _, b, ha, hb => by
    obtain rfl := Option.some.inj ha
    exact h 0 (reg, bs) b rfl hb
  | k + 1, a, b, ha, hb => h (k + 1) a b ha hb

/-- A run ends only where the register changes (R203). -/
theorem runsOf_neighboursDiffer : ∀ items : List Item, NeighboursDiffer (runsOf items)
  | [] => fun _ _ _ ha _ => by cases ha
  | (reg, b) :: rest => by
    have ih := runsOf_neighboursDiffer rest
    rw [runsOf]
    split
    · exact .singleton _
    · next reg' bs more e =>
      rw [e] at ih
      split
      · next heq =>
        subst heq
        exact ih.of_bytes _
      · next hne => exact ih.cons hne

/-- Settles O35: a lemma of `runsOf` for each clause. -/
theorem runsAreMaximal : Obligations.RunsAreMaximal :=
  fun items => ⟨itemsOf_runsOf items, runsOf_ne_nil items, runsOf_neighboursDiffer items⟩

/-- A text form that emits one item writes its byte as a transaction of its own (R203). -/
theorem textForm_wrote {i : Instr} {reg : Reg} {b : Byte} {s : State} (hg : guardOf i s = internalIdleGuard s)
    (he : effectOf i s = returning .nothing (emitItems [(reg, b)] s)) (h : AbleIdle s) :
    ∃ t, exec i s = .next t ∧ Wrote s t reg [b] ∧ t.result = .nothing := by
  rw [exec_idle hg h, he, emitItems_one]
  exact ⟨_, rfl, (busWriteBytes_idle reg [b] s h.idle).returning .nothing, rfl⟩

/-- Settles O36: `textForm_wrote` for the forms with an item, `exec_idle` for dropped whitespace, and the jump to the second
line at a peer in step (R162). -/
theorem textFormsEmitTheirItem : Obligations.TextFormsEmitTheirItem := by
  refine fun s h => ⟨?newline, fun d => textForm_wrote rfl rfl h, exec_idle rfl h, exec_idle rfl h, exec_idle rfl h,
    exec_idle rfl h, textForm_wrote rfl rfl h, textForm_wrote rfl rfl h, fun c => textForm_wrote rfl rfl h⟩
  case newline =>
    have hw := busWriteBytes_idle .command [cmdJumpLine2] s h.idle
    refine ⟨_, exec_idle rfl h, hw.returning .nothing, rfl, fun hp => (busWriteBytes_jumpLine2_peer h.idle hp).trans ?_⟩
    rw [Peer.atDdram, ← hp]

end Sys2Proof.Machine
end

section
/-! SUPPORT. O37, O39, O45: INIT, ENABLE and SET_BACKLIGHT as whole next states (45_facade R216, R217, R224, 70_reset_and_hazards
R285). -/

namespace Sys2Proof.Machine

/-- A facade operation runs in the lifecycle states of its row, in `Idle` (R225). -/
theorem exec_facade {i : Instr} {ok : Life → Bool} {s : State} (hi : guardOf i s = facadeGuard ok s) (hf : s.fault = none)
    (hl : ok s.life = true) (hw : configWf s.cfg = true) (hp : s.phase = .idle) : exec i s = .next (effectOf i s) :=
  exec_of_guard (hi.trans (facadeGuard_none.mpr ⟨hf, hl, hw, hp⟩))

/-! ## INIT -/

/-- What INIT does with no reserved pin (R216). -/
theorem configure_input_eq {s : State} (hw : configWf s.cfg = true)
    (hr : ∀ r ∈ configuredRoles s.cfg, reservedPin s.cfg r = false) :
    { configure s |> setDataDirection true |> returning .nothing with life := .pinsConfigured } = { s with
      life := .pinsConfigured
      dir := .input
      domains := rolesDomains s.domains (describedRoles s.cfg (configuredRoles s.cfg))
      trace := s.trace ++ rolesEvents s.cfg s.domains (describedRoles s.cfg (configuredRoles s.cfg)) ++ directionEvents .input
      result := .nothing } := by
  rw [configure_ok s hw hr, setDataDirection_eq]
  rfl

/-- Settles O37: `configure_ok` leaves no abort, so INIT goes on to the data direction. -/
theorem initConfiguresThePins : Obligations.InitConfiguresThePins := by
  intro s hf hl hw hp hr
  have hc : (configure s).fault = none := by rw [configure_ok s hw hr]; exact hf
  rw [exec_facade rfl hf (decide_eq_true hl) hw hp]
  simp only [effectOf, hc]
  exact congrArg _ (configure_input_eq hw hr)

/-! ## ENABLE -/

/-- The configuration write's bytes, bit by bit (R85, R86, R88, R217). -/
theorem initCommands_eq (c : Config) : initCommands c = configurationBytes c := by
  have hset (l f : Bool) : encodeFunctionSet false l f = 0b0010#4 ++ BitVec.ofBool l ++ BitVec.ofBool f ++ 0b00#2 := by
    revert l f
    decide
  simp only [initCommands, hset, encodeDisplayControl_bits, encodeEntryMode_bits]
  rfl

/-- The last nibble of ENABLE is the low one of the entry-mode byte (R285). -/
theorem lowNibble_encodeEntryMode (r s : Bool) :
    (lowNibble (encodeEntryMode r s)).getLsbD 0 = s ∧ (lowNibble (encodeEntryMode r s)).getLsbD 1 = r ∧
    (lowNibble (encodeEntryMode r s)).getLsbD 2 = true ∧ (lowNibble (encodeEntryMode r s)).getLsbD 3 = false := by
  revert r s
  decide

/-- The ritual's events and the joining write's are ENABLE's (R217). -/
theorem enableEvents_eq (c : Config) : enableEvents c = wakeEvents c ++ joinEvents c (configurationBytes c) := by
  simp only [enableEvents, wakeEvents, List.append_assoc, List.cons_append, List.nil_append]

theorem enableEvents_length (c : Config) : (enableEvents c).length = 123 := by
  have hjoin : (joinEvents c (configurationBytes c)).length = 75 := joinEvents_length c _ (List.cons_ne_nil _ _)
  simp only [enableEvents_eq, wakeEvents, List.length_append, List.length_cons, nibbleWriteEvents_length, endEvents, hjoin,
    List.length_nil]

/-- The lone nibbles of the three wakes, then the four bytes (R217). -/
def enableTransfers (c : Config) : List Transfer :=
  List.replicate 3 ⟨.command, false, .nibble c.wakeNibble⟩ ++
    (configurationBytes c).map fun b => ⟨.command, false, .byte b⟩

/-- The ritual and the configuration write that joins its third wake; the peer's part is left open (R217, R285). -/
theorem wakeRitual_join_eq (s : State) :
    ∃ p n, busWriteBytes .command (initCommands s.cfg) (wakeRitual s) = { s with
      life := .poweredOn
      dir := .output
      phase := .idle
      pin := { s.pin with
        rs := .held false, rw := .held false, e := .held false
        d0 := .held s.cfg.initShiftOnWrite, d1 := .held s.cfg.initCursorRight, d2 := .held true, d3 := .held false }
      trace := s.trace ++ enableEvents s.cfg
      delivered := s.delivered ++ enableTransfers s.cfg
      lone := false, peer := p, draws := n } := by
  obtain ⟨p, n, e⟩ := busWriteBytes_join .command (initCommands s.cfg)
    (encodeEntryMode s.cfg.initCursorRight s.cfg.initShiftOnWrite) rfl (wakeRitual s) .command false (by rw [wakeRitual_eq])
  obtain ⟨h0, h1, h2, h3⟩ := lowNibble_encodeEntryMode s.cfg.initCursorRight s.cfg.initShiftOnWrite
  refine ⟨p, n, ?_⟩
  rw [e, wakeRitual_owed, wakeRitual_trace, h0, h1, h2, h3, initCommands_eq, wakeRitual_eq, enableEvents_eq]
  simp only [enableTransfers, List.append_assoc, latchesAfterWrite]
  rfl

/-- The frames of ENABLE's events are those of its transfers (R121). -/
theorem framesFrom_enable (s : State) (seen : Pins) :
    framesFrom s.pin seen (enableEvents s.cfg) = (enableTransfers s.cfg).flatMap transferFrames := by
  obtain ⟨p, n, e⟩ := wakeRitual_join_eq s
  obtain ⟨es, ts, htrace, hdelivered, hframes⟩ := enable_frames seen s (initCommands_ne_nil s.cfg)
  rw [e] at htrace hdelivered
  rw [List.append_cancel_left htrace, List.append_cancel_left hdelivered, hframes]

theorem enableTransfers_frames (c : Config) :
    (enableTransfers c).flatMap transferFrames =
      List.replicate 3 (frame false false c.wakeNibble) ++ (configurationBytes c).flatMap (byteFrames false false) := by
  rw [enableTransfers, List.flatMap_append, transferFrames_bytes]
  rfl

/-- Settles O39: the next state by `wakeRitual_join_eq`, the waits by R7(b), the frames by `framesFrom_enable`. -/
theorem enablePerformsTheWakeRitual : Obligations.EnablePerformsTheWakeRitual := by
  intro s hf hl hw hp
  obtain ⟨-, -, hwake, hpos, -⟩ := (configWf_iff s.cfg).mp hw
  refine ⟨?_, enableEvents_length s.cfg, hpos, hwake, (framesFrom_enable s s.pin).trans (enableTransfers_frames s.cfg)⟩
  obtain ⟨p, n, e⟩ := wakeRitual_join_eq s
  refine ⟨p, n, ?_⟩
  rw [exec_facade rfl hf (decide_eq_true hl) hw hp, effectOf, e, enableTransfers, ← List.append_assoc, hp]
  rfl

/-! ## SET_BACKLIGHT -/

theorem drive_backlight_eq (v : Level) (s : State) :
    drive .bl v s = { s with pin := { s.pin with bl := .held v }, trace := s.trace ++ [.drive .bl v] } := by
  simp [drive]

/-- Settles O45: one `drive` of the backlight's pin, whose level is the setting's own (log 19), or nothing. -/
theorem setBacklightWritesOnePin : Obligations.SetBacklightWritesOnePin := by
  intro on s hf hl hw hp
  rw [exec_facade (ok := fun l => l != .uninitialized) rfl hf (by simpa using hl) hw hp, effectOf, levelFor_blOnLevel,
    drive_backlight_eq]
  split <;> rfl

end Sys2Proof.Machine
end

section
/-! SUPPORT. O9: the lifecycle table, the phase around a facade operation, and the moves of `life` (45_facade R215, R225,
60_exceptions R256). -/

namespace Sys2Proof.Machine

/-! ## What the operations keep -/

theorem Kept.trans {s t u : State} (h : Kept s t) (k : Kept t u) : Kept s u :=
  ⟨k.cfg.trans h.cfg, k.life.trans h.life, k.fault.trans h.fault, k.domains.trans h.domains,
    k.backlight.trans h.backlight, k.calls.trans h.calls⟩

/-- What is handed back is no part of it. -/
theorem Kept.returning {s t : State} (h : Kept s t) (r : Returned) : Kept s (returning r t) :=
  h.trans ⟨rfl, rfl, rfl, rfl, rfl, rfl⟩

theorem beginTransaction_kept (reg : Reg) (r : Bool) (s : State) : Kept s (beginTransaction reg r s) := by
  constructor <;> simp

theorem continueTransaction_kept (r : Bool) (s : State) : Kept s (continueTransaction r s) := by
  constructor <;> simp

theorem endTransaction_kept (s : State) : Kept s (endTransaction s) := by
  constructor <;> simp

theorem driveNibble_kept (n : Nibble) (s : State) : Kept s (driveNibble n s) := by
  constructor <;> simp

theorem setDataDirection_kept (i : Bool) (s : State) : Kept s (setDataDirection i s) := by
  constructor <;> simp

theorem sampleNibble_kept (s : State) : Kept s (sampleNibble s).2 := ⟨rfl, rfl, rfl, rfl, rfl, rfl⟩

theorem emitRuns_kept {runs : List (Reg × List Byte)} {s : State} (h : s.phase = .idle)
    (hr : ∀ run ∈ runs, run.2 ≠ []) : Kept s (emitRuns runs s) ∧ (emitRuns runs s).phase = .idle := by
  obtain ⟨hk, -, -, hp, -⟩ := emitRuns_eq runs s h hr
  exact ⟨hk, hp⟩

theorem busWriteBytes_join_kept (reg : Reg) {bs : List Byte} (hb : bs ≠ []) {s : State} {r : Reg} {d : Bool}
    (h : s.phase = .active r d) : Kept s (busWriteBytes reg bs s) := by
  obtain ⟨p, n, e⟩ := busWriteBytes_join reg bs (bs.getLast hb) (List.getLast?_eq_some_getLast hb) s r d h
  rw [e]
  exact ⟨rfl, rfl, rfl, rfl, rfl, rfl⟩

theorem busWriteNibble_kept (reg : Reg) (n : Nibble) (t : Bool) (s : State) : Kept s (busWriteNibble reg n t s) := by
  rw [busWriteNibble_eq]
  exact ⟨rfl, rfl, rfl, rfl, rfl, rfl⟩

theorem busReadNibble_kept (reg : Reg) (n : Nibble) (s : State) : Kept s (busReadNibble reg n s).2 := by
  obtain ⟨-, p, k, e⟩ := busReadNibble_eq reg n s
  rw [e]
  exact ⟨rfl, rfl, rfl, rfl, rfl, rfl⟩

theorem configure_life (s : State) (hw : configWf s.cfg = true) : (configure s).life = s.life := by
  rcases firstReserved s.cfg (configuredRoles s.cfg) with hr | ⟨before, r, after, e, h1, h2⟩
  · rw [configure_ok s hw hr]
  · rw [configure_reserved s hw before after r e h1 h2]

/-! ## The phase around a facade operation -/

/-- A facade operation ends with no transaction open, also where it aborts (R225, R258). -/
theorem facade_phase {i : Instr} {s t : State} (hi : isFacade i = true) (he : exec i s = .next t) : t.phase = .idle := by
  obtain ⟨-, hw, sh⟩ := exec_shape he
  cases sh with
  | runs _ _ hr hp => exact (emitRuns_kept hp hr).2
  | reads _ _ _ _ _ _ _ _ h | nibble _ _ _ _ _ _ h | readNibble _ _ _ _ _ h | builder _ _ _ h =>
    rw [h] at hi
    cases hi
  | nothing | join | beginTransaction | continueTransaction | endTransaction | driveNibble | sampleNibble
  | setDataDirection | pinWrite | pinWriteNoLatch | pinRead | configured => cases hi
  | init hp => simpa using (configure_pin_phase s hw).2.trans hp
  | reserved _ _ _ _ hp => exact (configure_pin_phase s hw).2.trans hp
  | enable =>
    obtain ⟨p, n, e⟩ := wakeRitual_join_eq s
    simp only [e, returning_phase]
  | backlight on hp =>
    rw [returning_phase]
    split <;> exact hp
  | aborted _ _ _ hp => exact hp

/-! ## The moves of `life` -/

/-- `life` moves from `Uninitialized` by an INIT that does not abort, from `PinsConfigured` by ENABLE, and by nothing else
(R215). -/
theorem exec_life {i : Instr} {s t : State} (he : exec i s = .next t) :
    t.life = s.life ∨ (i = .init ∧ s.life = .uninitialized ∧ t.life = .pinsConfigured) ∨
      (i = .enable ∧ s.life = .pinsConfigured ∧ t.life = .ready) := by
  obtain ⟨-, hw, sh⟩ := exec_shape he
  cases sh with
  | init _ hl => exact .inr (.inl ⟨rfl, hl, rfl⟩)
  | enable _ hl => exact .inr (.inr ⟨rfl, hl, rfl⟩)
  | runs _ _ hr hp => exact .inl ((emitRuns_kept hp hr).1.returning _).life
  | reads _ _ reg n _ hr hp =>
    obtain ⟨hk, hp'⟩ := emitRuns_kept hp hr
    exact .inl ((hk.trans (busReadBytes_idle reg n _ hp').kept).returning _).life
  | join reg bs hb hp => exact .inl ((busWriteBytes_join_kept reg hb hp).returning _).life
  | nibble => exact .inl ((busWriteNibble_kept ..).returning _).life
  | readNibble => exact .inl ((busReadNibble_kept ..).returning _).life
  | beginTransaction => exact .inl ((beginTransaction_kept ..).returning _).life
  | continueTransaction => exact .inl ((continueTransaction_kept ..).returning _).life
  | endTransaction => exact .inl ((endTransaction_kept s).returning _).life
  | driveNibble => exact .inl ((driveNibble_kept ..).returning _).life
  | setDataDirection => exact .inl ((setDataDirection_kept ..).returning _).life
  | configured | reserved => exact .inl (configure_life s hw)
  | nothing | sampleNibble | pinWrite | pinWriteNoLatch | pinRead | builder | aborted => exact .inl rfl
  | backlight on =>
    left
    split <;> rfl

/-- Settles O9: `exec_wrongLife`; the guard's part by `guardOf_none`, then `facade_phase` and `exec_life`. -/
theorem lifecycleTableDecides : Obligations.LifecycleTableDecides := by
  refine ⟨fun i s => exec_wrongLife, fun i s t he => ?_⟩
  obtain ⟨-, hallowed, -, hidle⟩ := guardOf_none (exec_next.mp he).1
  exact ⟨hallowed, fun hi => ⟨hidle hi, facade_phase hi he⟩, exec_life he⟩

end Sys2Proof.Machine
end

section
/-! SUPPORT. O53: every step keeps the invariant of the machine (10_state R21, R27, R33, 40_bus_engine R118, 45_facade R215,
60_exceptions R258, 70_reset_and_hazards R285). -/

namespace Sys2Proof.Machine

/-! ## The latches and the clock domains -/

@[simp] theorem Latch.isHeld_held (v : Level) : (Latch.held v).isHeld = true := rfl

/-- Every bus latch has been written. -/
def Pins.allHeld (p : Pins) : Prop := (busLatches p).all Latch.isHeld = true

/-- A write of any pin keeps the latches written. -/
theorem Pins.allHeld.set {p : Pins} (h : p.allHeld) (r : PinRole) (v : Level) : (p.set r v).allHeld := by
  simp only [Pins.allHeld, busLatches, List.all_cons, List.all_nil, Bool.and_eq_true] at h ⊢
  cases r <;> simp [h]

/-- A whole write writes every bus latch (R116). -/
theorem latchesAfterWrite_allHeld (p : Pins) (reg : Reg) (e : Level) (n : Nibble) : (latchesAfterWrite p reg e n).allHeld :=
  rfl

theorem withDomain_nodup {domains : List Nat} (h : domains.Nodup) (d : Nat) : (withDomain domains d).Nodup := by
  rw [withDomain]
  split
  · exact h
  · next hd =>
    refine List.nodup_append.mpr ⟨h, List.nodup_cons.mpr ⟨List.not_mem_nil, List.nodup_nil⟩, fun a ha b hb => ?_⟩
    obtain rfl := List.mem_singleton.mp hb
    exact fun hab => hd (hab ▸ ha)

/-- The loop of CONFIGURE enables no domain twice (R27, R140). -/
theorem rolesDomains_nodup : ∀ (roles : List (PinRole × PinDescriptor)) {domains : List Nat}, domains.Nodup →
    (rolesDomains domains roles).Nodup
  | [], _, h => h
  | (_, d) :: roles, _, h => rolesDomains_nodup roles (withDomain_nodup h d.clockDomain)

/-! ## The block in `Ready` -/

/-- A lone nibble still to be delivered stands in an open write, E high (R118). -/
def LoneStands (s : State) : Prop :=
  s.lone = true → s.pin.e = .held true ∧ s.dir = .output ∧ ∃ reg, s.phase = .active reg false

theorem LoneStands.of_not_lone {s : State} (h : s.lone = false) : LoneStands s :=
  fun hl => absurd (h.symm.trans hl) Bool.false_ne_true

/-- No lone nibble is left in `Idle`. -/
theorem LoneStands.not_lone {s : State} (h : LoneStands s) (hp : s.phase = .idle) : s.lone = false := by
  cases hl : s.lone with
  | false => rfl
  | true =>
    obtain ⟨-, -, reg, ha⟩ := h hl
    rw [hp] at ha
    cases ha

/-- Only these four fields matter. -/
theorem LoneStands.congr {s t : State} (h : LoneStands s) (hl : t.lone = s.lone) (he : t.pin.e = s.pin.e) (hd : t.dir = s.dir)
    (hp : t.phase = s.phase) : LoneStands t := by
  rw [LoneStands, hl, he, hd, hp]
  exact h

/-- What the invariant says of a block in `Ready` that has not aborted, apart from the peer. -/
structure ReadyBlock (s : State) : Prop where
  alive : s.fault = none
  ready : s.life = .ready
  held : s.pin.allHeld
  dir : s.dir ≠ .noValue
  lone : LoneStands s
  backlight : s.cfg.useBacklight = false → s.pin.bl = .noValue
  domains : s.domains.Nodup

namespace ReadyBlock

variable {s : State} (h : ReadyBlock s)
include h

theorem of_kept {t : State} (k : Kept s t) (held : t.pin.allHeld) (dir : t.dir ≠ .noValue) (lone : LoneStands t) :
    ReadyBlock t where
  alive := k.fault.trans h.alive
  ready := k.life.trans h.ready
  held := held
  dir := dir
  lone := lone
  backlight hb := k.backlight.trans (h.backlight (by rw [← k.cfg]; exact hb))
  domains := by rw [k.domains]; exact h.domains

theorem returning (r : Returned) : ReadyBlock (returning r s) :=
  ⟨h.alive, h.ready, h.held, h.dir, h.lone, h.backlight, h.domains⟩

theorem wrote {t : State} {reg : Reg} {bs : List Byte} (w : Wrote s t reg bs) (hp : s.phase = .idle) : ReadyBlock t := by
  have lone : LoneStands t := .of_not_lone (by rw [w.lone, h.lone.not_lone hp, Bool.false_and])
  cases hb : bs.getLast? with
  | none =>
    obtain ⟨hpin, hdir, -⟩ := w.none (List.getLast?_eq_none_iff.mp hb)
    exact h.of_kept w.kept (hpin ▸ h.held) (hdir ▸ h.dir) lone
  | some b =>
    obtain ⟨hdir, hpin⟩ := w.last b hb
    exact h.of_kept w.kept (hpin ▸ latchesAfterWrite_allHeld ..) (by rw [hdir]; nofun) lone

theorem read {t : State} {reg : Reg} {bs : List Byte} (r : Read s t reg bs) (hp : s.phase = .idle) : ReadyBlock t := by
  have lone : LoneStands t := .of_not_lone (by rw [r.lone, h.lone.not_lone hp, Bool.false_and])
  by_cases hb : bs = []
  · obtain ⟨hpin, hdir, -⟩ := r.none hb
    exact h.of_kept r.kept (hpin ▸ h.held) (hdir ▸ h.dir) lone
  · obtain ⟨hdir, hpin⟩ := r.some hb
    exact h.of_kept r.kept (hpin ▸ ((h.held.set .rs _).set .rw _).set .e _) (by rw [hdir]; nofun) lone

omit h in
theorem emitRuns : ∀ (runs : List (Reg × List Byte)) {s : State}, ReadyBlock s → s.phase = .idle →
    ReadyBlock (emitRuns runs s)
  | [], _, h, _ => h
  | (reg, bs) :: more, s, h, hp =>
    have w := busWriteBytes_idle reg bs s hp
    emitRuns more (h.wrote w hp) w.phase

theorem join (reg : Reg) {bs : List Byte} (hb : bs ≠ []) (hp : s.phase = .active reg false) :
    ReadyBlock (busWriteBytes reg bs s) := by
  have k := busWriteBytes_join_kept reg hb hp
  obtain ⟨p, n, e⟩ := busWriteBytes_join reg bs (bs.getLast hb) (List.getLast?_eq_some_getLast hb) s reg false hp
  rw [e] at k ⊢
  exact h.of_kept k (((((h.held.set .e _).set .d0 _).set .d1 _).set .d2 _).set .d3 _) h.dir (.of_not_lone rfl)

/-- A lone nibble that is not terminated stands on the pins it has just been driven on. -/
theorem busWriteNibble (reg : Reg) (n : Nibble) (t : Bool) : ReadyBlock (busWriteNibble reg n t s) := by
  have k := busWriteNibble_kept reg n t s
  rw [busWriteNibble_eq] at k ⊢
  refine h.of_kept k (latchesAfterWrite_allHeld ..) nofun ?_
  cases t with
  | false => exact fun _ => ⟨rfl, rfl, reg, rfl⟩
  | true => exact .of_not_lone rfl

theorem busReadNibble (reg : Reg) (n : Nibble) : ReadyBlock (busReadNibble reg n s).2 := by
  have k := busReadNibble_kept reg n s
  obtain ⟨-, p, m, e⟩ := busReadNibble_eq reg n s
  rw [e] at k ⊢
  exact h.of_kept k (((h.held.set .rs _).set .rw _).set .e _) nofun (.of_not_lone rfl)

theorem beginTransaction (reg : Reg) (r : Bool) : ReadyBlock (beginTransaction reg r s) :=
  h.of_kept (beginTransaction_kept ..) (by simpa using ((h.held.set .rs _).set .rw _).set .e _) (by simpa using h.dir)
    (.of_not_lone (by simp))

theorem continueTransaction (r : Bool) : ReadyBlock (continueTransaction r s) :=
  h.of_kept (continueTransaction_kept ..) (by simpa using h.held.set .e _) (by simpa using h.dir) (.of_not_lone (by simp))

theorem endTransaction : ReadyBlock (endTransaction s) :=
  h.of_kept (endTransaction_kept s) (by simpa using h.held.set .e _) (by simpa using h.dir) (.of_not_lone (by simp))

theorem driveNibble (n : Nibble) : ReadyBlock (driveNibble n s) :=
  h.of_kept (driveNibble_kept n s) (by simpa using (((h.held.set .d0 _).set .d1 _).set .d2 _).set .d3 _)
    (by simpa using h.dir) (h.lone.congr (by simp) (by simp) (by simp) (by simp))

theorem setDataDirection (i : Bool) (hp : s.phase = .idle) : ReadyBlock (setDataDirection i s) :=
  h.of_kept (setDataDirection_kept i s) (by simpa using h.held) (by cases i <;> simp)
    (.of_not_lone (by simpa using h.lone.not_lone hp))

/-- A host's own write of a pin drops a lone nibble where it drops E (log 26). -/
theorem drive {r : PinRole} (hr : r ∈ configuredRoles s.cfg) (v : Level) : ReadyBlock (drive r v s) where
  alive := h.alive
  ready := h.ready
  held := h.held.set r v
  dir := h.dir
  lone hl := by
    obtain ⟨hlone, hdrop⟩ : s.lone = true ∧ dropsEnable r v = false := by simpa using hl
    obtain ⟨he, hdir, hphase⟩ := h.lone hlone
    refine ⟨?_, hdir, hphase⟩
    by_cases hre : r = .e
    · subst hre
      obtain rfl : v = true := by simpa [dropsEnable] using hdrop
      rfl
    · exact (Pins.set_e_of_ne hre v s.pin).trans he
  backlight hb := by
    have hne : r ≠ .bl := fun hbl => not_configured.mpr ⟨hbl, hb⟩ hr
    rw [drive_pin, ← h.backlight hb]
    cases r with
    | bl => exact absurd rfl hne
    | rs | rw | e | d0 | d1 | d2 | d3 => rfl
  domains := h.domains

/-- CONFIGURE with no reserved pin (R140). -/
theorem configure (hp : s.phase = .idle) (hw : configWf s.cfg = true)
    (hr : ∀ r ∈ configuredRoles s.cfg, reservedPin s.cfg r = false) : ReadyBlock (configure s) := by
  rw [configure_ok s hw hr]
  exact ⟨h.alive, h.ready, h.held, nofun, .of_not_lone (h.lone.not_lone hp), h.backlight, rolesDomains_nodup _ h.domains⟩

end ReadyBlock

/-! ## The peer after ENABLE -/

/-- A write that joins an open one is one frame per nibble to the peer, after the frame on the latches (R119, R121). -/
theorem busWriteBytes_join_peer (reg : Reg) {bs : List Byte} (hb : bs ≠ []) {s : State} (hp : s.phase = .active reg false)
    (hd : s.dir = .output) (hs : s.pin.rs = .held reg.isData) (hw : s.pin.rw = .held false) :
    PeerFrames reg.isData false (nibblesOf bs) (continueTransaction false s).peer (busWriteBytes reg bs s).peer := by
  have key : (busWriteBytes reg bs s).peer = (endTransaction (driveBytes bs (continueTransaction false s))).peer := by
    simp [busWriteBytes, hb, openWrite, hp]
  rw [key]
  exact driveBytes_peer reg.isData bs hb _ (by simpa using hd) (by simpa using hs) (by simpa using hw) (by simp)

/-- The frames of ENABLE at the peer: three wake nibbles, then those of the configuration write (R217, R284). -/
theorem enable_peerFrames (s : State) :
    PeerFrames false false (List.replicate 3 s.cfg.wakeNibble ++ nibblesOf (initCommands s.cfg)) s.peer
      (busWriteBytes .command (initCommands s.cfg) (wakeRitual s)).peer := by
  have hjoin := busWriteBytes_join_peer .command (initCommands_ne_nil s.cfg) (s := wakeRitual s) (by rw [wakeRitual_eq])
    (by rw [wakeRitual_eq]) (by rw [wakeRitual_eq]; rfl) (by rw [wakeRitual_eq]; rfl)
  have wake (n : Nat) (p : Peer) : peerReceive n .output (latchesAfterWrite s.pin .command true s.cfg.wakeNibble) p =
      peerFrame n false false s.cfg.wakeNibble p := peerReceive_write n _ false _ p rfl rfl rfl rfl rfl rfl
  have hthird : (continueTransaction false (wakeRitual s)).peer =
      peerFrame (s.draws + 2) false false s.cfg.wakeNibble (peerFrame (s.draws + 1) false false s.cfg.wakeNibble
        (peerFrame s.draws false false s.cfg.wakeNibble s.peer)) := by
    rw [continueTransaction_eq, wakeRitual_eq, ← wake, ← wake, ← wake]
    rfl
  rw [hthird] at hjoin
  exact .cons _ _ _ _ _ (.cons _ _ _ _ _ (.cons _ _ _ _ _ hjoin))

theorem peerCommand_past (n : Nat) (c : Byte) (p : Peer) : (peerCommand n c p).past := peerByte_past n false false c p

theorem PeerFrames.past {s w : Level} {nibs : List Nibble} {p q : Peer} (h : PeerFrames s w nibs p q) (hp : p.past) :
    q.past := by
  induction h with
  | nil => exact hp
  | cons n nib rest p q _ ih => exact ih (peerFrame_past n s w nib p hp)

/-- Three wakes and the first byte bring a peer from power-up past the ritual, whatever that byte is (R284; log 8). -/
theorem PeerFrames.past_of_ritual {a b c hi lo : Nibble} {rest : List Nibble} {p q : Peer} (hp : p.sync = .waking 0)
    (h : PeerFrames false false (a :: b :: c :: hi :: lo :: rest) p q) : q.past := by
  cases h with | cons n0 _ _ _ _ h =>
  cases h with | cons n1 _ _ _ _ h =>
  cases h with | cons n2 _ _ _ _ h =>
  cases h with | cons n3 _ _ _ _ h =>
  cases h with | cons n4 _ _ _ _ h =>
  have settled : peerFrame n3 false false hi (peerFrame n2 false false c (peerFrame n1 false false b
      (peerFrame n0 false false a p))) = { p with sync := .settling hi } := by
    simp [peerFrame, hp, rsDataLevel, rwReadLevel]
  rw [settled] at h
  refine h.past ?_
  simp only [peerFrame, rsDataLevel, rwReadLevel, Bool.false_eq_true, decide_false, Bool.or_self, if_false]
  split
  · exact peerCommand_past ..
  · exact peerLost_past n4

theorem enable_past {s : State} (hp : s.peer.sync = .waking 0) :
    (busWriteBytes .command (initCommands s.cfg) (wakeRitual s)).peer.past :=
  (enable_peerFrames s).past_of_ritual hp

/-! ## Calls and steps -/

namespace StateInv

variable {s : State} (h : StateInv s)
include h

theorem readyBlock (hf : s.fault = none) (hl : s.life = .ready) : ReadyBlock s := by
  obtain ⟨held, dir, -⟩ := h.after hl
  exact ⟨hf, hl, held, dir, h.loneNibble, h.backlight, h.domains⟩

omit h in
theorem of_readyBlock {t : State} (h : ReadyBlock t) (past : t.peer.past) (wf : t.peer.wf) : StateInv t where
  lifecycle := by rw [h.ready]; nofun
  before hl := absurd h.ready hl
  after _ := ⟨h.held, h.dir, past⟩
  uninitialized hl := by rw [h.ready] at hl; cases hl
  configured hl := by rw [h.ready] at hl; cases hl
  loneNibble := h.lone
  abortIdle hf := absurd h.alive hf
  backlight := h.backlight
  domains := h.domains
  ddram := wf.1
  cgram := wf.2

/-- An abort in `Idle`, after some clock domains were enabled (R258). -/
theorem aborted (hp : s.phase = .idle) {domains : List Nat} (hd : domains.Nodup) (trace : List Event) (c : Cause) :
    StateInv { s with domains := domains, trace := trace, fault := some c } :=
  ⟨h.lifecycle, h.before, h.after, h.uninitialized, h.configured, h.loneNibble, fun _ => hp, h.backlight, hd, h.ddram,
    h.cgram⟩

theorem withCalls (calls : List Byte) : StateInv { s with calls := calls } :=
  ⟨h.lifecycle, h.before, h.after, h.uninitialized, h.configured, h.loneNibble, h.abortIdle, h.backlight, h.domains, h.ddram,
    h.cgram⟩

/-- What is handed back is not looked at. -/
theorem returning (r : Returned) : StateInv (returning r s) :=
  ⟨h.lifecycle, h.before, h.after, h.uninitialized, h.configured, h.loneNibble, h.abortIdle, h.backlight, h.domains, h.ddram,
    h.cgram⟩

theorem reserved (hp : s.phase = .idle) (hw : configWf s.cfg = true) {before after : List PinRole} {r : PinRole}
    (he : configuredRoles s.cfg = before ++ r :: after) (hb : ∀ q ∈ before, reservedPin s.cfg q = false)
    (hr : reservedPin s.cfg r = true) : StateInv (configure s) := by
  rw [configure_reserved s hw before after r he hb hr]
  exact h.aborted hp (rolesDomains_nodup _ h.domains) _ _

/-- The backlight's pin is no bus line. -/
theorem backlit (hb : s.cfg.useBacklight = true) (v : Level) : StateInv (drive .bl v s) := by
  rw [drive_backlight_eq]
  exact ⟨h.lifecycle, h.before, h.after, h.uninitialized, h.configured, h.loneNibble, h.abortIdle,
    fun hn => absurd (hb.symm.trans hn) (by decide), h.domains, h.ddram, h.cgram⟩

/-- SET_BACKLIGHT, in any lifecycle state (R224). -/
theorem setBacklight (v : Level) : StateInv (if s.cfg.useBacklight then drive .bl v s else s) := by
  split
  · next hb => exact h.backlit hb v
  · exact h

end StateInv

/-- What a call in `Ready` leaves: a block in `Ready`, or an abort. -/
theorem Shape.stateInv_of_ready {i : Instr} {s t : State} (sh : Shape s i t) (h : StateInv s) (hb : ReadyBlock s)
    (hw : configWf s.cfg = true) : ReadyBlock t ∨ StateInv t := by
  cases sh with
  | runs _ runs _ hp => exact .inl ((hb.emitRuns runs hp).returning _)
  | reads _ runs reg n r hr hp =>
    have hp' := (emitRuns_kept hp hr).2
    exact .inl (((hb.emitRuns runs hp).read (busReadBytes_idle reg n _ hp') hp').returning r)
  | nothing | builder => exact .inl (hb.returning _)
  | join reg bs hne hp => exact .inl ((hb.join reg hne hp).returning _)
  | nibble _ reg n t => exact .inl ((hb.busWriteNibble reg n t).returning _)
  | readNibble _ reg n => exact .inl ((hb.busReadNibble reg n).returning _)
  | beginTransaction => exact .inl ((hb.beginTransaction ..).returning _)
  | continueTransaction => exact .inl ((hb.continueTransaction _).returning _)
  | endTransaction => exact .inl (hb.endTransaction.returning _)
  | driveNibble => exact .inl ((hb.driveNibble _).returning _)
  | sampleNibble => exact .inl ((hb.of_kept (sampleNibble_kept s) hb.held hb.dir hb.lone).returning _)
  | setDataDirection i hp => exact .inl ((hb.setDataDirection i hp).returning _)
  | pinWrite r v hr => exact .inl ((hb.drive hr v).returning _)
  | pinWriteNoLatch | pinRead => exact .inl (hb.of_kept ⟨rfl, rfl, rfl, rfl, rfl, rfl⟩ hb.held hb.dir hb.lone)
  | configured hp _ hr => exact .inl ((hb.configure hp hw hr).returning _)
  | init _ hl | enable _ hl =>
    rw [hb.ready] at hl
    cases hl
  | reserved _ _ _ _ hp _ he h1 h2 => exact .inr (h.reserved hp hw he h1 h2)
  | backlight => exact .inr ((h.setBacklight _).returning _)
  | aborted _ c _ hp => exact .inr (h.aborted hp h.domains _ c)

/-- INIT with no reserved pin: no pin is driven, the data pins are inputs (R216). -/
theorem StateInv.init {s : State} (h : StateInv s) (hp : s.phase = .idle) (hl : s.life = .uninitialized)
    (hw : configWf s.cfg = true) (hr : ∀ r ∈ configuredRoles s.cfg, reservedPin s.cfg r = false) :
    StateInv { configure s |> setDataDirection true |> Machine.returning .nothing with life := .pinsConfigured } := by
  rw [configure_input_eq hw hr]
  have lone : s.lone = false := LoneStands.not_lone h.loneNibble hp
  exact {
    lifecycle := nofun
    before := fun _ => h.before (by rw [hl]; nofun)
    after := nofun
    uninitialized := nofun
    configured := fun _ => rfl
    loneNibble := LoneStands.of_not_lone lone
    abortIdle := fun _ => hp
    backlight := h.backlight
    domains := rolesDomains_nodup _ h.domains
    ddram := h.ddram
    cgram := h.cgram }

/-- ENABLE brings the block to `Ready`, all latches written (R285). -/
theorem StateInv.enable {s t : State} (h : StateInv s) (hf : s.fault = none) (hl : s.life = .pinsConfigured)
    (ht : t = { s |> wakeRitual |> busWriteBytes .command (initCommands s.cfg) |> Machine.returning .nothing with
      life := .ready }) (wf : t.peer.wf) : StateInv t := by
  obtain ⟨-, -, hsync⟩ := h.before (by rw [hl]; nofun)
  have past := enable_past hsync
  obtain ⟨p, n, e⟩ := wakeRitual_join_eq s
  rw [e] at past ht
  subst ht
  exact .of_readyBlock ⟨hf, rfl, rfl, nofun, .of_not_lone rfl, h.backlight, h.domains⟩ past wf

/-- Every call keeps the invariant, in each lifecycle state. -/
theorem exec_stateInv {i : Instr} {s t : State} (h : StateInv s) (he : exec i s = .next t) : StateInv t := by
  obtain ⟨hf, hw, sh⟩ := exec_shape he
  have wf : t.peer.wf := exec_keeps wf_keptByFrames he ⟨h.ddram, h.cgram⟩
  by_cases hl : s.life = .ready
  · obtain hb | ht := sh.stateInv_of_ready h (h.readyBlock hf hl) hw
    · obtain ⟨-, -, past⟩ := h.after hl
      exact .of_readyBlock hb (exec_keeps past_keptByFrames he past) wf
    · exact ht
  · cases sh with
    | init hp hu hr => exact h.init hp hu hw hr
    | enable _ hc => exact h.enable hf hc rfl wf
    | reserved _ _ _ _ hp _ hc h1 h2 => exact h.reserved hp hw hc h1 h2
    | backlight => exact (h.setBacklight _).returning _
    | runs _ _ _ _ hr | reads _ _ _ _ _ _ _ hr | nothing _ hr | join _ _ _ _ _ hr | nibble _ _ _ _ _ hr
    | readNibble _ _ _ _ hr | beginTransaction _ _ _ hr | continueTransaction _ _ _ hr | endTransaction _ hr
    | driveNibble _ _ _ _ hr | sampleNibble _ _ _ hr | setDataDirection _ _ hr | pinWrite _ _ _ hr
    | pinWriteNoLatch _ _ hr | pinRead _ hr | builder _ _ hr | configured _ hr | aborted _ _ _ _ hr => exact absurd hr hl

/-- Settles O53: `exec_stateInv` for the call a step takes. -/
theorem stepKeepsTheInvariant : Obligations.StepKeepsTheInvariant := by
  intro s t h hs
  obtain rfl | ⟨i, rest, -, he⟩ := step_next hs
  · exact h
  · exact exec_stateInv (h.withCalls rest) he

end Sys2Proof.Machine
end

section
/-! SUPPORT. O40 to O44: the content operations of the Driver Facade as calls (45_facade R218 to R223, 60_exceptions R252 to
R254, R258). -/

namespace Sys2Proof.Machine

/-- A content operation whose operand is out of range aborts, and that is all it does (R258). -/
theorem exec_content_abort {i : Instr} {c : Cause} {s : State} (hg : guardOf i s = internalIdleGuard s)
    (he : effectOf i s = abort c s) (h : AbleIdle s) :
    exec i s = .next { s with trace := s.trace ++ [.abort c], fault := some c } := by
  rw [exec_idle hg h, he]
  rfl

/-! ## Texts -/

theorem writeText_emitted (text : List Byte) {s : State} (h : s.phase = .idle) : Emitted s (writeText text s) (interpret text) :=
  emitItems_idle (interpret text) s h

/-- Settles O40: `writeText_emitted` from the state the clear leaves, or the abort. -/
theorem displayWriteClearsThenWrites : Obligations.DisplayWriteClearsThenWrites := by
  refine fun text s h => ⟨fun hl => ?_, fun hl => exec_content_abort rfl (if_pos hl) h⟩
  have clear := busWriteBytes_idle .command [cmdClear] s h.idle
  exact ⟨_, _, displayWrite_next hl h, clear, (writeText_emitted text clear.phase).returning .nothing, rfl⟩

/-- Settles O41: `writeText_emitted` from the state the call finds, or the abort. -/
theorem displayAppendWritesWithoutClearing : Obligations.DisplayAppendWritesWithoutClearing := by
  refine fun text s h => ⟨fun hl => ?_, fun hl => exec_content_abort rfl (if_pos hl) h⟩
  have hnext : exec (.displayAppend text) s = .next (s |> writeText text |> returning .nothing) :=
    exec_next.mpr ⟨h.content, if_neg (Nat.not_lt.mpr hl)⟩
  exact ⟨_, hnext, (writeText_emitted text h.idle).returning .nothing, rfl⟩

/-! ## Addresses -/

/-- How many events a write from `Idle` has: 18 a byte, and 7 to switch the direction, open and close (R116). -/
theorem Wrote.trace_length {s t : State} {reg : Reg} {bs : List Byte} (h : Wrote s t reg bs) (hb : bs ≠ []) :
    t.trace.length = s.trace.length + (18 * bs.length + 7) := by
  rw [h.trace, List.length_append, writeEvents_length _ _ _ hb]

theorem addressByte_slotAddr {slot : Nat} (h : slot < 8) :
    addressByte (slotAddr slot) false = BitVec.ofNat 8 (0x40 + slot * 8) := by
  have all : ∀ k : Fin 8, addressByte (slotAddr k) false = BitVec.ofNat 8 (0x40 + k * 8) := by decide
  exact all ⟨slot, h⟩

theorem addressByte_cursorAddr {x y : Nat} (hx : x ≤ 15) (hy : y ≤ 1) :
    addressByte (cursorAddr x y) true = BitVec.ofNat 8 (0x80 + (y * 64 + x)) := by
  have all : ∀ (x : Fin 16) (y : Fin 2), addressByte (cursorAddr x y) true = BitVec.ofNat 8 (0x80 + (y * 64 + x)) := by decide
  exact all ⟨x, Nat.lt_succ_of_le hx⟩ ⟨y, Nat.lt_succ_of_le hy⟩

/-- SET_ADDRESS_COUNTER writes the one byte `addressByte` gives (R175). -/
theorem setAddressCounter_wrote_byte (a : BitVec 7) (f : Bool) {b : Byte} (hb : addressByte a f = b) {s : State}
    (h : s.phase = .idle) : Wrote s (setAddressCounter a f s) .command [b] := by
  rw [← hb]
  exact busWriteBytes_idle .command [addressByte a f] s h

/-- Settles O42: the address command, then the rows as one write; the peer by `data_run` on their frames. -/
theorem addCustomGlyphWritesItsSlot : Obligations.AddCustomGlyphWritesItsSlot := by
  refine fun g slot s h => ⟨fun hs => ?_, fun hs => exec_content_abort rfl (if_pos hs) h⟩
  have hnext : exec (.addCustomGlyph g slot) s =
      .next (s |> setAddressCounter (slotAddr slot) false |> busWriteBytes .data g.rows |> returning .nothing) :=
    exec_next.mpr ⟨h.content, if_neg (Nat.not_le.mpr hs)⟩
  have addr := setAddressCounter_wrote_byte (slotAddr slot) false (addressByte_slotAddr hs) h.idle
  have rows := (busWriteBytes_idle .data g.rows _ addr.phase).returning .nothing
  refine ⟨_, _, hnext, addr, rows, rfl, ?_, fun hp => ?_⟩
  · rw [rows.trace_length (List.cons_ne_nil _ _), addr.trace_length (List.cons_ne_nil _ _)]
    rfl
  · obtain ⟨t, ht, hf⟩ := addCustomGlyph_peerFrames g h hp hs
    obtain ⟨hsync, hram, -⟩ := data_run g.rows _ _ rfl hf
    rw [Host.Outcome.next.inj (hnext.symm.trans ht)]
    exact ⟨hsync, hram⟩

/-- Settles O43: the address command alone, its byte by `addressByte_cursorAddr`, the peer by `setAddressCounter_peer`. -/
theorem setCursorSendsTheCell : Obligations.SetCursorSendsTheCell := by
  refine fun x y s h => ⟨fun hx hy => ?_, fun hxy => exec_content_abort rfl (if_pos hxy) h⟩
  have hnext : exec (.setCursor x y) s = .next (s |> setAddressCounter (cursorAddr x y) true |> returning .nothing) :=
    exec_next.mpr ⟨h.content, if_neg (by simp only [cols, lines]; omega)⟩
  have addr := (setAddressCounter_wrote_byte (cursorAddr x y) true (addressByte_cursorAddr hx hy) h.idle).returning .nothing
  exact ⟨_, hnext, addr, rfl, addr.trace_length (List.cons_ne_nil _ _), setAddressCounter_peer (cursorAddr x y) true h.idle⟩

/-! ## Commands -/

/-- A facade operation that sends one command byte: its transaction, and what the byte does at a peer in step. -/
theorem facadeCommand_next {i : Instr} {b : Byte} {s : State} (hg : guardOf i s = internalIdleGuard s)
    (he : effectOf i s = (s |> writeCommand b |> returning .nothing)) (h : AbleIdle s) :
    ∃ t, exec i s = .next t ∧ Wrote s t .command [b] ∧ t.result = .nothing ∧
      (s.peer.sync = .paired → ∃ n, t.peer = peerCommand n b s.peer) := by
  rw [exec_idle hg h, he]
  exact ⟨_, rfl, (busWriteBytes_idle .command [b] s h.idle).returning .nothing, rfl, busWriteBytes_peerCommand b s h.idle⟩

theorem peerCommand_encodeDisplayControl (n : Nat) (d c b : Bool) {p : Peer} (hp : p.sync = .paired) :
    peerCommand n (encodeDisplayControl d c b) p =
      { p with regs := { p.regs with displayOn := d, cursorOn := c, blink := b } } := by
  have hb : encodeDisplayControl d c b = (Command.displayControl d c b).toByte := rfl
  simp only [peerCommand, hb, decodeCommand_toByte, ← hp]

/-- Settles O44: `facadeCommand_next` for each byte, and what `peerCommand` makes of it. -/
theorem toggleAndResetSendOneCommand : Obligations.ToggleAndResetSendOneCommand := by
  intro d c b s h
  constructor
  · obtain ⟨t, hnext, wrote, hres, peer⟩ := facadeCommand_next (i := .toggleFeatures d c b) rfl rfl h
    refine ⟨t, hnext, encodeDisplayControl_bits d c b ▸ wrote, hres, fun hp => ?_⟩
    obtain ⟨n, e⟩ := peer hp
    exact e.trans (peerCommand_encodeDisplayControl n d c b hp)
  · obtain ⟨t, hnext, wrote, hres, peer⟩ := facadeCommand_next (i := .reset) rfl rfl h
    refine ⟨t, hnext, wrote, hres, fun hp => ?_⟩
    obtain ⟨n, e⟩ := peer hp
    rw [e, peerCommand_clear, Peer.atDdram, ← hp]

end Sys2Proof.Machine
end

section
/-! SUPPORT. O8, O38, O56: the abort, its causes and what it refuses (60_exceptions R250 to R259). -/

namespace Sys2Proof.Machine

/-- Settles O8: the guard looks for an abort before anything else. -/
theorem abortedBlockRefusesEverything : Obligations.AbortedBlockRefusesEverything := by
  refine ⟨fun i s c => exec_aborted, fun i s t he => ?_, rfl⟩
  obtain ⟨hf, -⟩ := exec_shape he
  exact hf

/-! ## A reserved pin -/

/-- Where CONFIGURE aborts, its two callers do nothing more (R140, R216). -/
theorem effectOf_of_configure_aborts {s : State} {c : Cause} (h : (configure s).fault = some c) :
    effectOf .init s = configure s ∧ effectOf .configure s = configure s := by
  simp only [effectOf, h, and_self]

/-- Settles O38: INIT and CONFIGURE are `configure_reserved`, since it aborts. -/
theorem reservedPinAborts : Obligations.ReservedPinAborts := by
  intro s before after r hf hw hp he hb hr
  have hc := configure_reserved s hw before after r he hb hr
  obtain ⟨hinit, hconfigure⟩ := effectOf_of_configure_aborts (congrArg State.fault hc)
  constructor
  · intro hl
    rw [exec_facade rfl hf (decide_eq_true hl) hw hp, hinit, hc]
  · intro hl
    rw [exec_idle rfl ⟨⟨hf, hl, hw⟩, hp⟩, hconfigure, hc]

/-! ## The fault latch after a call -/

/-- INIT or CONFIGURE met a reserved pin (R251). -/
def ReservedRole (i : Instr) (s : State) (r : PinRole) : Prop :=
  (i = .init ∨ i = .configure) ∧ r ∈ configuredRoles s.cfg ∧ reservedPin s.cfg r = true

/-- A call leaves the fault latch as it was, or sets it over a reserved pin, or over its operand (R250). -/
theorem exec_fault {i : Instr} {s t : State} (he : exec i s = .next t) :
    t.fault = s.fault ∨ (∃ r, t.fault = some (.reservedPin r) ∧ ReservedRole i s r) ∨
      ∃ c, t.fault = some c ∧ BadOperand i c := by
  obtain ⟨-, hw, sh⟩ := exec_shape he
  cases sh with
  | reserved _ before after r _ hi hroles hb hr =>
    rw [configure_reserved s hw before after r hroles hb hr]
    exact .inr (.inl ⟨r, rfl, hi.imp And.left And.left, hroles ▸ List.mem_append_right before List.mem_cons_self, hr⟩)
  | aborted _ c hbad => exact .inr (.inr ⟨c, rfl, hbad⟩)
  | runs _ _ hr hp => exact .inl ((emitRuns_kept hp hr).1.returning _).fault
  | reads _ _ reg n _ hr hp =>
    obtain ⟨hk, hp'⟩ := emitRuns_kept hp hr
    exact .inl ((hk.trans (busReadBytes_idle reg n _ hp').kept).returning _).fault
  | join reg bs hb hp => exact .inl ((busWriteBytes_join_kept reg hb hp).returning _).fault
  | nibble => exact .inl ((busWriteNibble_kept ..).returning _).fault
  | readNibble => exact .inl ((busReadNibble_kept ..).returning _).fault
  | beginTransaction => exact .inl ((beginTransaction_kept ..).returning _).fault
  | continueTransaction => exact .inl ((continueTransaction_kept ..).returning _).fault
  | endTransaction => exact .inl ((endTransaction_kept s).returning _).fault
  | driveNibble => exact .inl ((driveNibble_kept ..).returning _).fault
  | setDataDirection => exact .inl ((setDataDirection_kept ..).returning _).fault
  | configured _ _ hr =>
    rw [configure_ok s hw hr]
    exact .inl rfl
  | init _ _ hr =>
    rw [configure_input_eq hw hr]
    exact .inl rfl
  | enable =>
    obtain ⟨p, n, e⟩ := wakeRitual_join_eq s
    simp only [e, returning_fault, true_or]
  | nothing | sampleNibble | pinWrite | pinWriteNoLatch | pinRead | builder => exact .inl rfl
  | backlight on =>
    left
    split <;> rfl

/-- Settles O56: the block ran alive, so by `exec_fault` a latch that is set was set over a reserved pin or over an operand. -/
theorem onlyTheFourCausesAbort : Obligations.OnlyTheFourCausesAbort := by
  intro i s t c he hc
  obtain ⟨halive, -⟩ := exec_shape he
  obtain h | ⟨r, h, hr⟩ | ⟨c', h, hbad⟩ := exec_fault he
  · rw [h, halive] at hc
    cases hc
  · obtain rfl : Cause.reservedPin r = c := Option.some.inj (h.symm.trans hc)
    exact .inl ⟨r, rfl, hr⟩
  · obtain rfl : c' = c := Option.some.inj (h.symm.trans hc)
    cases hbad with
    | write text hlen => exact .inr (.inl ⟨text, rfl, .inl rfl, hlen⟩)
    | append text hlen => exact .inr (.inl ⟨text, rfl, .inr rfl, hlen⟩)
    | cursor x y hxy => exact .inr (.inr (.inl ⟨x, y, rfl, rfl, hxy⟩))
    | slot g k hk => exact .inr (.inr (.inr ⟨g, k, rfl, rfl, hk⟩))

end Sys2Proof.Machine
end

section
/-! SUPPORT. O50: the wake ritual and the configuration write at a peer from power-up (20_memory R55, R56, 45_facade R217,
70_reset_and_hazards R284, R285). -/

namespace Sys2Proof.Machine

/-! ## Into 4-bit mode -/

/-- The ritual counts a command nibble as a wake, up to the third (R284; log 8). -/
theorem peerFrame_waking (n : Nat) (nib : Nibble) {k : Nat} {p : Peer} (hp : p.sync = .waking k) (hk : k < 3) :
    peerFrame n false false nib p = { p with sync := .waking (k + 1) } := by
  simp [peerFrame, hp, hk, rsDataLevel, rwReadLevel]

/-- After three wakes a command nibble is the high one of a byte (R284; log 8). -/
theorem peerFrame_woken (n : Nat) (hi : Nibble) {p : Peer} (hp : p.sync = .waking 3) :
    peerFrame n false false hi p = { p with sync := .settling hi } := by
  simp [peerFrame, hp, rsDataLevel, rwReadLevel]

theorem encodeFunctionSet_eq_toByte (l f : Bool) :
    encodeFunctionSet false l f = (Command.functionSet false l f 0).toByte := (BitVec.or_zero ..).symm

/-- A first byte that is a function set with bit 4 = 0 is executed and brings the peer in step (R55, R284). -/
theorem peerFrame_settling_functionSet (n : Nat) (l f : Bool) (p : Peer) :
    peerFrame n false false (lowNibble (encodeFunctionSet false l f))
        { p with sync := .settling (highNibble (encodeFunctionSet false l f)) } =
      { p with sync := .paired, regs := { p.regs with twoLine := l, font5x10 := f } } := by
  simp [peerFrame, peerCommand, byteOf_nibbles, encodeFunctionSet_eq_toByte, decodeCommand_toByte, rsDataLevel, rwReadLevel]

/-- Three wakes and a function-set byte bring a peer from power-up to 4-bit mode, in step (R284). -/
theorem PeerFrames.functionSet_of_wakes {wake : Nibble} {l f : Bool} {bs : List Byte} {p q : Peer} (hp : p.sync = .waking 0)
    (h : PeerFrames false false (List.replicate 3 wake ++ nibblesOf (encodeFunctionSet false l f :: bs)) p q) :
    PeerFrames false false (nibblesOf bs) { p with sync := .paired, regs := { p.regs with twoLine := l, font5x10 := f } } q := by
  cases h with | cons n0 _ _ _ _ h =>
  cases h with | cons n1 _ _ _ _ h =>
  cases h with | cons n2 _ _ _ _ h =>
  cases h with | cons n3 _ _ _ _ h =>
  cases h with | cons n4 _ _ _ _ h =>
  rwa [peerFrame_waking n0 wake hp (by decide), peerFrame_waking n1 wake rfl (by decide),
    peerFrame_waking n2 wake rfl (by decide), peerFrame_woken n3 _ rfl, peerFrame_settling_functionSet n4 l f p] at h

/-! ## The command bytes after it -/

/-- The first byte of a run written to the command register, when nothing in its effect is a free value (R51, R55). -/
theorem PeerFrames.commandByte {b : Byte} {bs : List Byte} {p p' q : Peer}
    (h : PeerFrames false false (nibblesOf (b :: bs)) p q) (hp : p.sync = .paired) (hb : ∀ n, peerCommand n b p = p') :
    PeerFrames false false (nibblesOf bs) p' q := by
  obtain ⟨n, h⟩ := h.byte hp
  rw [byteOf_nibbles] at h
  exact hb n ▸ h

theorem peerCommand_encodeEntryMode (n : Nat) (r sh : Bool) {p : Peer} (hp : p.sync = .paired) :
    peerCommand n (encodeEntryMode r sh) p = { p with regs := { p.regs with cursorRight := r, shiftOnWrite := sh } } := by
  have hb : encodeEntryMode r sh = (Command.entryMode r sh).toByte := rfl
  simp only [peerCommand, hb, decodeCommand_toByte, ← hp]

/-- Settles O50: `enable_peerFrames`, taken byte by byte through the function set, the display control, the clear and the
entry mode of R217. -/
theorem enableSynchronisesThePeer : Obligations.EnableSynchronisesThePeer := by
  intro s hf hl hw hp hpeer
  have inStep := (enable_peerFrames s).functionSet_of_wakes hpeer
  have displayed := inStep.commandByte rfl fun n => peerCommand_encodeDisplayControl n _ _ _ rfl
  have cleared := displayed.commandByte rfl fun n => peerCommand_clear n _
  have entered := cleared.commandByte rfl fun n => peerCommand_encodeEntryMode n _ _ rfl
  exact ⟨_, exec_facade rfl hf (decide_eq_true hl) hw hp, entered.nil_eq⟩

end Sys2Proof.Machine
end
